-- ==== Sys2Proof/Word.lean ====
section
/-! DEFINITION. The word types of the engine and the plainest arithmetic on sizes (00_scope.md rule R11). -/

namespace Sys2Proof

/-- One byte of the wire or of XBUF. -/
abbrev Byte := BitVec 8

/-- A device word: opcode, address, argument or data word (00_scope.md rule R6: 16 bits). -/
abbrev Word16 := BitVec 16

/-- A host register (00_scope.md rule R6: 32 bits). -/
abbrev Word32 := BitVec 32

/-- `ceil_div(a, b)` of rule R11, exact on naturals. -/
def ceilDiv (a b : Nat) : Nat := (a + b - 1) / b

end Sys2Proof
end

