-- ==== Sys2Proof/Config.lean ====
section
/-! DEFINITION. What an implementation fixes: the parameters of 00_scope.md rule R6, and the free values the spec
leaves open (93_implementation_defined.md). The parameters are plain data and a field of the machine's state, so
that every statement over all states holds for every choice of them (log 1). -/

namespace Sys2Proof

/-- One draw of the HRDY oracle (00_scope.md rule R9): a level, or an I/O error of the adaptor with its code. -/
inductive HrdyDraw where
  | level (v : Bool)
  | ioerr (code : Word32)
  deriving DecidableEq, Repr, Inhabited

/-- One draw of the bus oracle (00_scope.md rule R9): a response, or an I/O error of the adaptor with its code. -/
inductive BusDraw where
  | ok (rx : List Byte)
  | ioerr (code : Word32)
  deriving DecidableEq, Repr, Inhabited

/-- The implementation parameters of 00_scope.md rule R6 and 20_memory.md rule R71. -/
structure Params where
  /-- `ENGINE_BASE`, the host address of offset 0 (R71). -/
  engineBase : Word32
  /-- `BUS_MAX_BYTES`, also read as CAPS1. -/
  busMaxBytes : Nat
  /-- `XBUF_BYTES`, also read as CAPS0. -/
  xbufBytes : Nat
  /-- `RESET_HOLD_MS`. -/
  resetHoldMs : Nat
  /-- `HRDY_POLL_MS`. -/
  hrdyPollMs : Nat
  /-- `DRDY_POLL_MS`. -/
  drdyPollMs : Nat
  /-- `CMD_HZ`; no rule depends on it but the constraint of R6. -/
  cmdHz : Nat
  /-- `DATA_HZ`; no rule depends on it but the constraint of R6. -/
  dataHz : Nat
  /-- `VCOM_CFG_RESET`. -/
  vcomCfgReset : Word16
  /-- `PF_CODE(2)`. -/
  pfCode2 : BitVec 4
  /-- `PF_CODE(3)`. -/
  pfCode3 : BitVec 4
  /-- `PF_CODE(4)`. -/
  pfCode4 : BitVec 4
  /-- `PF_CODE(8)`. -/
  pfCode8 : BitVec 4
  /-- `ENDIAN_CODE_LE`. -/
  endianCodeLe : BitVec 8
  /-- `ROT_CODE_0`. -/
  rotCode0 : BitVec 4
  /-- `I80CPCR_PACKED`. -/
  i80cpcrPacked : Word16
  deriving DecidableEq, Repr

namespace Config

/-- The parameters of the reference machine: the values of 95_test_vectors.md ("Conventions") and the defaults of
00_scope.md rule R6. DESIGN CHOICE for every OPEN one (log 2); PRESUMED for the wire codes of the flags word and of packed
mode, which the spec marks as general knowledge (log 23). Unsafe only for a statement about this one machine. -/
def reference : Params where
  engineBase := 0
  busMaxBytes := 4096
  xbufBytes := 4096
  resetHoldMs := 100
  hrdyPollMs := 1
  drdyPollMs := 1
  cmdHz := 1
  dataHz := 2
  vcomCfgReset := 0
  pfCode2 := 0
  pfCode3 := 1
  pfCode4 := 2
  pfCode8 := 3
  endianCodeLe := 0
  rotCode0 := 0
  i80cpcrPacked := 0x0001

/-- `TIMEOUT_MS_RESET` (00_scope.md rule R6). -/
def timeoutMsReset : Word32 := 5000

/-- FREE VALUE: the n-th HRDY draw, where no script fixes it (U7, U8; log 9). -/
opaque freeHrdy : Nat → HrdyDraw

/-- FREE VALUE: the n-th bus draw, where no script fixes it (U7, U8; log 9). -/
opaque freeBus : Nat → BusDraw

/-- FREE VALUE: what the XBUF byte at an offset holds after the n-th engine reset until it is written (U4; log 6). -/
opaque xbufPowerOn : Nat → Nat → Byte

/-- FREE VALUE: which of the values of a raced XBUF byte the engine takes, by the number of racing host accesses so far
and the offset (U3; log 11). -/
opaque freeRaceEngine : Nat → Nat → Nat

/-- FREE VALUE: which of the values of a raced XBUF byte the host's access takes (U3; log 11). -/
opaque freeRaceHost : Nat → Nat → Nat

end Config

end Sys2Proof
end

