-- ==== Sys2Proof/Syntax.lean ====
section
/-! DEFINITION. The instructions: one constructor per row of spec/opcode_table.json. The 23 operations are selected by
the 32-bit operation word OPW (30_encoding.md rules R100 to R109). The 16 wire command words (R112, R113) and the 3
preambles (R111) are the instructions of the framer, one level below. -/

namespace Sys2Proof

/-- The twelve built-in (TCON) commands of 30_encoding.md rule R112. -/
inductive TconCmd where
  | sysRun | standby | sleep | regRead | regWrite
  | memBurstReadTrigger | memBurstReadStart | memBurstWrite | memBurstEnd
  | loadImage | loadImageArea | loadImageEnd
  deriving DecidableEq, Repr

/-- The four user commands of 30_encoding.md rule R113. -/
inductive UserCmd where
  | displayArea | displayBufArea | vcom | getDevInfo
  deriving DecidableEq, Repr

/-- The ten formats of 30_encoding.md rule R102. -/
inductive Format where
  | N | I | L | IL | IR | B | AB | M | AM | AF
  deriving DecidableEq, Repr

/-- PixelFormat (00_scope.md rule R18). -/
inductive PixelFormat where
  | bpp2 | bpp3 | bpp4 | bpp8
  deriving DecidableEq, Repr

/-- DisplayMode (00_scope.md rule R18). -/
inductive DisplayMode where
  | init | directUpdate | grayscale16Hq | grayscale16Fast | animation
  deriving DecidableEq, Repr

/-- The instructions. An operand is the raw field of the encoding; whether its value is legal is `operandDefect`
(R102, R105), because an illegal value is an error the operation ends with, not an undecodable word (R287). -/
inductive Instr where
  -- Transport operations, 41_transport.md
  | wrCmd (imm : Word16)
  | wrUcmd (imm : Word16)
  | wrData (w : Word16)
  | wrDataBatch
  | rdData
  | rdDataBatch
  | wrCmdArgs (imm : Word16)
  | wrUcmdArgs (imm : Word16)
  | rdReg (addr : Word16)
  | wrReg (addr : Word16)
  -- Device operations, 42_device.md
  | reset
  | init
  | rdVcom
  | wrVcom (v : Word16)
  | run
  | standby
  | sleep
  | waitDisplayReady
  -- Display operations, 43_display.md
  | clear (v : Byte)
  | fillArea (v : Byte)
  | refresh (mode : Word16)
  | refreshArea (mode : Word16)
  | loadImage (fmt : BitVec 4)
  -- Wire command words, 30_encoding.md rules R112 and R113
  | wireSysRun
  | wireStandby
  | wireSleep
  | wireRegRead
  | wireRegWrite
  | wireMemBurstReadTrigger
  | wireMemBurstReadStart
  | wireMemBurstWrite
  | wireMemBurstEnd
  | wireLoadImage
  | wireLoadImageArea
  | wireLoadImageEnd
  | wireDisplayArea
  | wireDisplayBufArea
  | wireVcom
  | wireGetDevInfo
  -- Preambles, each with the rest of the frame it starts, 30_encoding.md rules R111 and R117 to R120
  | preWriteCommand (op : Word16)
  | preWriteData (ws : List Word16)
  | preReadData (n : Nat)
  deriving DecidableEq, Repr

/-- Encoded instructions: an operation word, or the bytes of a wire word or frame in the order they are sent. -/
inductive Code where
  | opw (w : Word32)
  | wire (bytes : List Byte)
  deriving DecidableEq, Repr

/-- Why the decoder rejects. The first two are the reasons 1 and 2 of 30_encoding.md rule R105. -/
inductive DecodeError where
  /-- OP is not in the operation map of R104 (reason 1). -/
  | undefinedOp
  /-- A field the opcode table fixes has another value (R102; reason 2). -/
  | fieldConstraint
  /-- The bytes are neither a command word of R112 and R113 nor a frame of R117 to R120. -/
  | notAFrame
  deriving DecidableEq, Repr

end Sys2Proof
end

