-- ==== Sys2Proof/Decode.lean ====
section
/-! DEFINITION. Byte order helpers, the wire vocabulary and frames (30_encoding.md rules R110 to R124), the decoder of
operation words and frames (R100 to R109), total and rejecting by name, and the encoder. -/

namespace Sys2Proof

/-! ### Bits and bytes (00_scope.md rule R11) -/

/-- `hi8(w) = w[15:8]`. -/
def hi8 (w : Word16) : Byte := w.extractLsb' 8 8

/-- `lo8(w) = w[7:0]`. -/
def lo8 (w : Word16) : Byte := w.extractLsb' 0 8

/-- `be16(w) = [hi8(w), lo8(w)]`. -/
def be16 (w : Word16) : List Byte := [hi8 w, lo8 w]

/-- `le16(w) = [lo8(w), hi8(w)]`. -/
def le16 (w : Word16) : List Byte := [lo8 w, hi8 w]

/-- The 16-bit word `(h << 8) | l`. -/
def word16 (h l : Byte) : Word16 := h ++ l

/-- `v[31:16]` of a 32-bit value. -/
def hi16 (v : Word32) : Word16 := v.extractLsb' 16 16

/-- `v[15:0]` of a 32-bit value. -/
def lo16 (v : Word32) : Word16 := v.extractLsb' 0 16

/-- The words of a big-endian byte string of even length. -/
def wordsOfBytes : List Byte → Option (List Word16)
  | [] => some []
  | [_] => none
  | h :: l :: rest => (wordsOfBytes rest).map (word16 h l :: ·)

/-! ### Command words (30_encoding.md rules R112, R113, R116) -/

/-- `encode_cmd` (R112, R116). -/
def encodeCmd : TconCmd → Word16
  | .sysRun => 0x0001
  | .standby => 0x0002
  | .sleep => 0x0003
  | .regRead => 0x0010
  | .regWrite => 0x0011
  | .memBurstReadTrigger => 0x0012
  | .memBurstReadStart => 0x0013
  | .memBurstWrite => 0x0014
  | .memBurstEnd => 0x0015
  | .loadImage => 0x0020
  | .loadImageArea => 0x0021
  | .loadImageEnd => 0x0022

/-- `encode_ucmd` (R113, R116). -/
def encodeUcmd : UserCmd → Word16
  | .displayArea => 0x0034
  | .displayBufArea => 0x0037
  | .vcom => 0x0039
  | .getDevInfo => 0x0302

/-- Every built-in command. -/
def allTconCmds : List TconCmd :=
  [.sysRun, .standby, .sleep, .regRead, .regWrite, .memBurstReadTrigger, .memBurstReadStart,
   .memBurstWrite, .memBurstEnd, .loadImage, .loadImageArea, .loadImageEnd]

/-- Every user command. -/
def allUserCmds : List UserCmd := [.displayArea, .displayBufArea, .vcom, .getDevInfo]

/-- `decode_cmd` (R116): the built-in command with this wire value, if there is one. -/
def decodeCmd (v : Word16) : Option TconCmd := allTconCmds.find? fun c => encodeCmd c == v

/-- `decode_ucmd` (R116): the user command with this wire value, if there is one. -/
def decodeUcmd (v : Word16) : Option UserCmd := allUserCmds.find? fun c => encodeUcmd c == v

/-! ### Frames (30_encoding.md rules R111, R117 to R120) -/

/-- The write-command preamble (R111). -/
def preambleWriteCommand : Word16 := 0x6000

/-- The write-data preamble (R111). -/
def preambleWriteData : Word16 := 0x0000

/-- The read-data preamble (R111). -/
def preambleReadData : Word16 := 0x1000

/-- Command frame (R117). -/
def cmdFrame (op : Word16) : List Byte := be16 preambleWriteCommand ++ be16 op

/-- Data frame of one word (R118). -/
def dataFrame (w : Word16) : List Byte := be16 preambleWriteData ++ be16 w

/-- Data chunk frame (R119). -/
def chunkFrame (ws : List Word16) : List Byte := be16 preambleWriteData ++ ws.flatMap be16

/-- Read frame for `n` words (R120): the preamble, two dummy bytes, two zero bytes per word. -/
def readFrame (n : Nat) : List Byte := be16 preambleReadData ++ [0, 0] ++ List.replicate (2 * n) 0

/-- The words a response carries (R120, 20_memory.md rule R79): word `i` is `(rx[4+2i] << 8) | rx[5+2i]`. -/
def readWords (n : Nat) (rx : List Byte) : List Word16 :=
  (List.range n).map fun i => word16 (rx.getD (4 + 2 * i) 0) (rx.getD (5 + 2 * i) 0)

/-- `CHUNK_WORDS` (00_scope.md rule R6). -/
def chunkWords (p : Params) : Nat := (p.busMaxBytes - 2) / 2

/-- `RD_MAX_WORDS` (00_scope.md rule R6). -/
def rdMaxWords (p : Params) : Nat := (p.busMaxBytes - 4) / 2

/-! ### Operand values (30_encoding.md rules R102, R105 to R108) -/

/-- PixelFormat of a FMT field (R106). -/
def pixelFormatOf (fmt : BitVec 4) : Option PixelFormat :=
  if fmt = 2 then some .bpp2
  else if fmt = 3 then some .bpp3
  else if fmt = 4 then some .bpp4
  else if fmt = 8 then some .bpp8
  else none

/-- DisplayMode of a mode operand (R107). -/
def displayModeOf (m : Word16) : Option DisplayMode :=
  if m = 0 then some .init
  else if m = 1 then some .directUpdate
  else if m = 2 then some .grayscale16Hq
  else if m = 3 then some .grayscale16Fast
  else if m = 4 then some .animation
  else none

/-- Bits per pixel of a format (R106). -/
def bitsPerPixel : PixelFormat → Nat
  | .bpp2 => 2
  | .bpp3 => 3
  | .bpp4 => 4
  | .bpp8 => 8

/-- Gray levels of a format, `2^bpp` (00_scope.md rule R18). -/
def grayLevels (f : PixelFormat) : Nat := 2 ^ bitsPerPixel f

/-- `some reason` when an operand's value is illegal, with the reason code of R105: 2 for a field constraint on a
value (display mode, pixel format), 3 for a wire opcode outside its closed set. -/
def operandDefect : Instr → Option Nat
  | .wrCmd imm => if (decodeCmd imm).isSome then none else some 3
  | .wrCmdArgs imm => if (decodeCmd imm).isSome then none else some 3
  | .wrUcmd imm => if (decodeUcmd imm).isSome then none else some 3
  | .wrUcmdArgs imm => if (decodeUcmd imm).isSome then none else some 3
  | .refresh m => if (displayModeOf m).isSome then none else some 2
  | .refreshArea m => if (displayModeOf m).isSome then none else some 2
  | .loadImage fmt => if (pixelFormatOf fmt).isSome then none else some 2
  | .wrData _ => none
  | .wrDataBatch => none
  | .rdData => none
  | .rdDataBatch => none
  | .rdReg _ => none
  | .wrReg _ => none
  | .reset => none
  | .init => none
  | .rdVcom => none
  | .wrVcom _ => none
  | .run => none
  | .standby => none
  | .sleep => none
  | .waitDisplayReady => none
  | .clear _ => none
  | .fillArea _ => none
  | .wireSysRun => none
  | .wireStandby => none
  | .wireSleep => none
  | .wireRegRead => none
  | .wireRegWrite => none
  | .wireMemBurstReadTrigger => none
  | .wireMemBurstReadStart => none
  | .wireMemBurstWrite => none
  | .wireMemBurstEnd => none
  | .wireLoadImage => none
  | .wireLoadImageArea => none
  | .wireLoadImageEnd => none
  | .wireDisplayArea => none
  | .wireDisplayBufArea => none
  | .wireVcom => none
  | .wireGetDevInfo => none
  | .preWriteCommand _ => none
  | .preWriteData _ => none
  | .preReadData _ => none

/-- The lengths a frame may have on the wire: R119 for a data chunk, R120 for a read. -/
def frameLengthOk (p : Params) : Instr → Bool
  | .preWriteData ws => 1 ≤ ws.length && ws.length ≤ chunkWords p
  | .preReadData n => 1 ≤ n && n ≤ rdMaxWords p
  | _ => true

/-! ### The operation word (30_encoding.md rules R101, R104, R105) -/

/-- OP, bits [7:0]. -/
def opField (w : Word32) : BitVec 8 := w.extractLsb' 0 8

/-- FMT, bits [11:8]. -/
def fmtField (w : Word32) : BitVec 4 := w.extractLsb' 8 4

/-- RSV, bits [15:12]. -/
def rsvField (w : Word32) : BitVec 4 := w.extractLsb' 12 4

/-- IMM16, bits [31:16]. -/
def immField (w : Word32) : Word16 := w.extractLsb' 16 16

/-- The format of each operation code of R104; `none` where OP is undefined (R109). -/
def formatOfOp (op : BitVec 8) : Option Format :=
  match op.toNat with
  | 0x01 => some .I
  | 0x02 => some .I
  | 0x03 => some .I
  | 0x04 => some .L
  | 0x05 => some .N
  | 0x06 => some .L
  | 0x07 => some .IL
  | 0x08 => some .IL
  | 0x09 => some .I
  | 0x0A => some .IR
  | 0x10 => some .N
  | 0x11 => some .N
  | 0x12 => some .N
  | 0x13 => some .I
  | 0x14 => some .N
  | 0x15 => some .N
  | 0x16 => some .N
  | 0x17 => some .N
  | 0x20 => some .B
  | 0x21 => some .AB
  | 0x22 => some .M
  | 0x23 => some .AM
  | 0x24 => some .AF
  | _ => none

/-- The bits the opcode table fixes for a format (its mask): RSV = 0 always; FMT = 0 but for AF; IMM16 = 0 for N, L
and AF; IMM16[15:8] = 0 for B and AB. The constraints on values (modes, pixel formats) are `operandDefect`. -/
def fixedBitsOk (f : Format) (w : Word32) : Bool :=
  rsvField w == 0 &&
  (match f with
   | .N | .L => fmtField w == 0 && immField w == 0
   | .I | .IL | .IR | .M | .AM => fmtField w == 0
   | .B | .AB => fmtField w == 0 && hi8 (immField w) == 0
   | .AF => immField w == 0)

/-- The operation an OP code names (R104), with its operand fields. -/
def operationOf (w : Word32) : Option Instr :=
  match (opField w).toNat with
  | 0x01 => some (.wrCmd (immField w))
  | 0x02 => some (.wrUcmd (immField w))
  | 0x03 => some (.wrData (immField w))
  | 0x04 => some .wrDataBatch
  | 0x05 => some .rdData
  | 0x06 => some .rdDataBatch
  | 0x07 => some (.wrCmdArgs (immField w))
  | 0x08 => some (.wrUcmdArgs (immField w))
  | 0x09 => some (.rdReg (immField w))
  | 0x0A => some (.wrReg (immField w))
  | 0x10 => some .reset
  | 0x11 => some .init
  | 0x12 => some .rdVcom
  | 0x13 => some (.wrVcom (immField w))
  | 0x14 => some .run
  | 0x15 => some .standby
  | 0x16 => some .sleep
  | 0x17 => some .waitDisplayReady
  | 0x20 => some (.clear (lo8 (immField w)))
  | 0x21 => some (.fillArea (lo8 (immField w)))
  | 0x22 => some (.refresh (immField w))
  | 0x23 => some (.refreshArea (immField w))
  | 0x24 => some (.loadImage (fmtField w))
  | _ => none

/-- The decoder of operation words: the first two checks of R105, in its order. -/
def decodeOpw (w : Word32) : Except DecodeError Instr :=
  match formatOfOp (opField w), operationOf w with
  | some f, some i => if fixedBitsOk f w then .ok i else .error .fieldConstraint
  | _, _ => .error .undefinedOp

/-! ### Wire words and frames -/

/-- The command word a 16-bit value is, as an instruction of the framer (R112, R113). -/
def wireCommandOf (v : Word16) : Option Instr :=
  match v.toNat with
  | 0x0001 => some .wireSysRun
  | 0x0002 => some .wireStandby
  | 0x0003 => some .wireSleep
  | 0x0010 => some .wireRegRead
  | 0x0011 => some .wireRegWrite
  | 0x0012 => some .wireMemBurstReadTrigger
  | 0x0013 => some .wireMemBurstReadStart
  | 0x0014 => some .wireMemBurstWrite
  | 0x0015 => some .wireMemBurstEnd
  | 0x0020 => some .wireLoadImage
  | 0x0021 => some .wireLoadImageArea
  | 0x0022 => some .wireLoadImageEnd
  | 0x0034 => some .wireDisplayArea
  | 0x0037 => some .wireDisplayBufArea
  | 0x0039 => some .wireVcom
  | 0x0302 => some .wireGetDevInfo
  | _ => none

/-- The frame a preamble and the bytes after it make (R117 to R120). -/
def frameOf (preamble : Word16) (rest : List Byte) : Option Instr :=
  if preamble = preambleWriteCommand then
    match wordsOfBytes rest with
    | some [op] => some (.preWriteCommand op)
    | _ => none
  else if preamble = preambleWriteData then
    match wordsOfBytes rest with
    | some (w :: ws) => some (.preWriteData (w :: ws))
    | _ => none
  else if preamble = preambleReadData then
    match wordsOfBytes rest with
    | some (d :: z :: zs) =>
      if (d :: z :: zs).all (· == 0) then some (.preReadData (zs.length + 1)) else none
    | _ => none
  else none

/-- The decoder of wire bytes: a bare command word, or a whole frame. -/
def decodeWire (bytes : List Byte) : Except DecodeError Instr :=
  match bytes with
  | h :: l :: rest =>
    match (if rest = [] then wireCommandOf (word16 h l) else none) <|> frameOf (word16 h l) rest with
    | some i => .ok i
    | none => .error .notAFrame
  | _ => .error .notAFrame

/-- The decoder. -/
def decode : Code → Except DecodeError Instr
  | .opw w => decodeOpw w
  | .wire bytes => decodeWire bytes

/-! ### The encoder -/

/-- `OPW = (IMM16 << 16) | (FMT << 8) | OP` with RSV = 0 (30_encoding.md rules R101, R126). -/
def opwWord (op : BitVec 8) (fmt : BitVec 4) (imm : Word16) : Word32 := imm ++ (0 : BitVec 4) ++ fmt ++ op

/-- The word of each instruction: R104 for the operations, R112, R113 and R117 to R120 for the framer's. -/
def encode : Instr → Code
  | .wrCmd imm => .opw (opwWord 0x01 0 imm)
  | .wrUcmd imm => .opw (opwWord 0x02 0 imm)
  | .wrData w => .opw (opwWord 0x03 0 w)
  | .wrDataBatch => .opw (opwWord 0x04 0 0)
  | .rdData => .opw (opwWord 0x05 0 0)
  | .rdDataBatch => .opw (opwWord 0x06 0 0)
  | .wrCmdArgs imm => .opw (opwWord 0x07 0 imm)
  | .wrUcmdArgs imm => .opw (opwWord 0x08 0 imm)
  | .rdReg addr => .opw (opwWord 0x09 0 addr)
  | .wrReg addr => .opw (opwWord 0x0A 0 addr)
  | .reset => .opw (opwWord 0x10 0 0)
  | .init => .opw (opwWord 0x11 0 0)
  | .rdVcom => .opw (opwWord 0x12 0 0)
  | .wrVcom v => .opw (opwWord 0x13 0 v)
  | .run => .opw (opwWord 0x14 0 0)
  | .standby => .opw (opwWord 0x15 0 0)
  | .sleep => .opw (opwWord 0x16 0 0)
  | .waitDisplayReady => .opw (opwWord 0x17 0 0)
  | .clear v => .opw (opwWord 0x20 0 (word16 0 v))
  | .fillArea v => .opw (opwWord 0x21 0 (word16 0 v))
  | .refresh m => .opw (opwWord 0x22 0 m)
  | .refreshArea m => .opw (opwWord 0x23 0 m)
  | .loadImage fmt => .opw (opwWord 0x24 fmt 0)
  | .wireSysRun => .wire (be16 0x0001)
  | .wireStandby => .wire (be16 0x0002)
  | .wireSleep => .wire (be16 0x0003)
  | .wireRegRead => .wire (be16 0x0010)
  | .wireRegWrite => .wire (be16 0x0011)
  | .wireMemBurstReadTrigger => .wire (be16 0x0012)
  | .wireMemBurstReadStart => .wire (be16 0x0013)
  | .wireMemBurstWrite => .wire (be16 0x0014)
  | .wireMemBurstEnd => .wire (be16 0x0015)
  | .wireLoadImage => .wire (be16 0x0020)
  | .wireLoadImageArea => .wire (be16 0x0021)
  | .wireLoadImageEnd => .wire (be16 0x0022)
  | .wireDisplayArea => .wire (be16 0x0034)
  | .wireDisplayBufArea => .wire (be16 0x0037)
  | .wireVcom => .wire (be16 0x0039)
  | .wireGetDevInfo => .wire (be16 0x0302)
  | .preWriteCommand op => .wire (cmdFrame op)
  | .preWriteData ws => .wire (chunkFrame ws)
  | .preReadData n => .wire (readFrame n)

/-! ### The opcode table's words -/

/-- The bytes of a 16-bit table word, first word first, big-endian as on the wire (30_encoding.md rule R110). A
preamble is the first word of a frame; the rest of the shortest frame it starts follows, all zero: one operand word
after a write preamble, the dummy word and one requested word after the read preamble (R117, R118, R120). -/
def wireLayout (w : Word16) : List Byte :=
  if w = preambleWriteCommand then be16 w ++ be16 0
  else if w = preambleWriteData then be16 w ++ be16 0
  else if w = preambleReadData then be16 w ++ be16 0 ++ be16 0
  else be16 w

/-- The instruction the decoder reads from a table word of `nbits` bits: 32 for an OPW row, 16 for a wire row. -/
def decodeTableWord (nbits w : Nat) : Option Instr :=
  if nbits = 32 then (decode (.opw (BitVec.ofNat 32 w))).toOption
  else if nbits = 16 then (decode (.wire (wireLayout (BitVec.ofNat 16 w)))).toOption
  else none

end Sys2Proof
end

