-- ==== Sys2Proof/Machine/State.lean ====
section
/-! DEFINITION. The state of the IT8951 interface engine (10_state.md), as plain data: host registers, latches, the
device-information file and its staging copy, XBUF, the sequencer, the lines, speed, time and the interface trace.
Beside them stand the model's own fields: the parameters, the agents' schedule and the device oracle. -/

namespace Sys2Proof.Machine

/-! ### Registers -/

/-- The host registers that are stored words (10_state.md rules R21, R30 to R33, R35, R37). -/
structure HostRegs where
  opw : Word32
  arg0 : Word16
  bufoff : Word32
  len : Word32
  areaX : Word16
  areaY : Word16
  areaW : Word16
  areaH : Word16
  result : Word16
  errCode : BitVec 8
  errInfo0 : Word32
  errInfo1 : Word32
  errInfo2 : Word32
  errInfo3 : Word32
  xcount : Word32
  timeoutMs : Word32
  drdyTimeoutMs : Word32
  vcomCfg : Word16
  deriving DecidableEq, Repr

/-- The fields of STATUS (rule R23) but BUS_FAST, which is a view of `State.speed` (rule R42). `csN` and `resetN` are
the line levels themselves (rule R41). -/
structure StatusBits where
  busy : Bool
  done : Bool
  infoValid : Bool
  collide : Bool
  csN : Bool
  resetN : Bool
  hrdyLast : Bool
  initPhase : BitVec 4
  deriving DecidableEq, Repr

/-- The operand latches `L[...]` (rule R36). -/
structure Latches where
  opw : Word32
  arg0 : Word16
  bufoff : Word32
  len : Word32
  ax : Word16
  ay : Word16
  aw : Word16
  ah : Word16
  tmo : Word32
  dtmo : Word32
  vcfg : Word16
  deriving DecidableEq, Repr

/-- The device-information file (rule R39), register by register. -/
structure InfoFile where
  panelW : Word16
  panelH : Word16
  imgBufAddr : Word32
  fwLen : BitVec 5
  lutLen : BitVec 5
  fwVer0 : Word32
  fwVer1 : Word32
  fwVer2 : Word32
  fwVer3 : Word32
  lutVer0 : Word32
  lutVer1 : Word32
  lutVer2 : Word32
  lutVer3 : Word32
  deriving DecidableEq, Repr

/-- The staging copy of the file (rule R40). -/
structure Staging where
  w : Word16
  h : Word16
  addr : Word32
  fw : List Byte
  lut : List Byte
  fwLen : BitVec 5
  lutLen : BitVec 5
  deriving DecidableEq, Repr

/-! ### Lines, speed and the interface trace -/

/-- The bus speed (rule R42). -/
inductive Speed where
  | cmd
  | data
  deriving DecidableEq, Repr

/-- The events of the interface trace (rule R43). -/
inductive Event where
  | sample (v : Bool)
  | sampleErr (code : Word32)
  | xfer (speed : Speed) (tx rx : List Byte)
  | xferErr (speed : Speed) (tx : List Byte) (code : Word32)
  | lineResetN (level : Bool)
  | tick
  deriving DecidableEq, Repr

/-! ### Errors -/

/-- Where an I/O error was reported (60_exceptions.md rule R282). -/
inductive IoKind where
  | hrdySample
  | exchange
  deriving DecidableEq, Repr

/-- Which deadline expired (60_exceptions.md rules R282, R292). -/
inductive TimeoutKind where
  | hrdyWait
  | displayReady
  deriving DecidableEq, Repr

/-- The errors an operation can end with, each with its information (60_exceptions.md rules R281, R282). -/
inductive Err where
  | io (code : Word32) (kind : IoKind)
  | timeout (budget : Word32) (kind : TimeoutKind) (elapsed : Nat)
  | protocol (got want : Nat)
  | invalidArea (x y w h : Nat)
  | invalidVcom (v : Word16)
  | dimensionMismatch (actual expected : Nat)
  | notInitialized
  | illegalOp (opw : Word32) (reason : Nat)
  | badLength (bufoff len : Word32)
  deriving DecidableEq, Repr

/-! ### The sequencer -/

/-- An area in panel pixels (00_scope.md rule R16), exact naturals (43_display.md rule R241). -/
structure Area where
  x : Nat
  y : Nat
  w : Nat
  h : Nat
  deriving DecidableEq, Repr

/-- Where the words of a bulk write come from: a list in hand, words of XBUF (20_memory.md rule R73), image bytes of
XBUF (43_display.md rule R248), or a fill (rule R247). XBUF is read in the micro-step of each chunk's exchange. -/
inductive WordSrc where
  | lit (ws : List Word16)
  | xbuf (base n : Nat)
  | image (base n : Nat)
  | fill (pc : Nat) (v : Byte)
  deriving DecidableEq, Repr

/-- The six phases of INIT (10_state.md rule R29, 42_device.md rule R202). -/
inductive InitPhase where
  | hardReset
  | settle
  | identify
  | address
  | packed
  | vcom
  deriving DecidableEq, Repr

/-- The micro-steps of the operations' pseudocode. -/
inductive Micro where
  /-- `WaitReady()` at its start: takes `t_wait`, then samples HRDY (40_framer.md rule R140). -/
  | waitReady
  /-- A further sample of the same wait. -/
  | resample
  /-- The exchange of `SendCmd` (rule R150). -/
  | xferCmd (op : Word16)
  /-- The exchange of `SendData` (rule R151). -/
  | xferData (w : Word16)
  /-- The opening of `SendDataBatch`: `SetSpeed(DATA)`, then chunk by chunk (rule R152). -/
  | openBatch (src : WordSrc)
  /-- The exchange of the chunk that begins at word `k` (rules R152, R153). -/
  | xferChunk (src : WordSrc) (k : Nat)
  /-- The close of `SendDataBatch`: `SetSpeed(CMD)` (rules R152, R155). -/
  | closeBatch
  /-- The exchange of `ReadData(n)` (rule R156). -/
  | xferRead (n : Nat)
  /-- `ResetPulse()` from its start: RESET_N low (rule R163). -/
  | pulseLow
  /-- The end of `ResetPulse()`: RESET_N high (rule R163). -/
  | pulseHigh
  /-- `Delay(ms)` at its start: takes `t` (rule R158). -/
  | delay (ms : Nat)
  /-- The hold of `Delay(ms)`. -/
  | hold (ms : Nat)
  /-- `INFO_VALID <- 0` of RESET (42_device.md rule R201). -/
  | clearInfoValid
  /-- The entry of an INIT phase (rules R203 to R209). -/
  | enterPhase (p : InitPhase)
  /-- `ParseDevInfo` (rule R205). -/
  | parseDevInfo
  /-- The comparison of INIT phase 6 (rule R209). -/
  | vcomSync
  /-- `VCOM_CFG <- v` after a VCOM write succeeded (rules R209, R213). -/
  | setVcomCfg (v : Word16)
  /-- `Commit()` of INIT (rule R210). -/
  | commit
  /-- `RESULT <- ` the word just read (41_transport.md rules R176, R180; 42_device.md rule R212). -/
  | setResult
  /-- The store of the words just read into XBUF (41_transport.md rule R177). -/
  | storeWords (base : Nat)
  /-- `t_op <- now` (42_device.md rule R218). -/
  | startPoll
  /-- The test of the LUTAFSR word just read (rule R218). -/
  | lutTest
  deriving DecidableEq, Repr

/-- The sequencer position (10_state.md rule R34). `run op todo` is `(op, k)`: the position is held as the
micro-steps still to run. `wire` holds a bare wire word or frame handed to the framer (log 8). -/
inductive Seq where
  | idle
  | decode
  | wire (bytes : List Byte)
  | run (op : Instr) (todo : List Micro)
  deriving DecidableEq, Repr

/-! ### The other agents' turns -/

/-- One host access of the host register space (20_memory.md rules R71, R84): a load or a store of `width` bytes. -/
structure HostAccess where
  store : Bool
  addr : Word32
  width : Nat
  data : Word32
  deriving DecidableEq, Repr

/-- One instruction of the host's program (30_encoding.md rules R127, R128; log 24). -/
inductive HostOp where
  /-- A load or a store. -/
  | access (a : HostAccess)
  /-- `WAITDONE`: the poll loop of `ISSUE` (R127). -/
  | waitDone
  /-- The store that ends a read-modify-write of `XPUT` (R128): the window word at XBUF offset `word`, as just loaded, with
  the bytes `bs` meant for `off` laid over it. -/
  | merge (word off : Nat) (bs : List Byte)
  /-- A load of `XGET` (R128): the window word at XBUF offset `word`, of which the host keeps the bytes among the `n` at
  `off`. -/
  | keep (word off n : Nat)
  deriving DecidableEq, Repr

/-- One entry of the agenda: which agent of 00_scope.md rule R8 moves. The host's turn is the next instruction of its
program, or an access given outright. -/
inductive Turn where
  | engine
  | clock
  | program
  | host (a : HostAccess)
  | engineReset
  deriving DecidableEq, Repr

/-! ### The state -/

/-- The state of the engine. The fields from `params` on are the model's own. -/
structure State where
  /-- Host registers (rule R21). -/
  regs : HostRegs
  /-- STATUS (rule R23) and the line levels (rule R41). -/
  stat : StatusBits
  /-- Operand latches (rule R36). -/
  lat : Latches
  /-- Device-information file (rule R39). -/
  info : InfoFile
  /-- Staging copy (rule R40). -/
  stg : Staging
  /-- The XBUF bytes written since reset, by offset, strictly rising (20_memory.md rule R72; log 6). -/
  xbuf : List Host.Cell
  /-- The further values of raced XBUF bytes, by offset, while an operation runs: those written or overwritten since its
  GO (20_memory.md rule R93; log 11). -/
  xbufRace : List (Nat × Byte)
  /-- Sequencer position (rule R34). -/
  seq : Seq
  /-- Bus speed (rule R42). -/
  speed : Speed
  /-- Milliseconds (rule R44). -/
  now : Nat
  /-- Start of the last WaitReady (rule R44). -/
  tWait : Nat
  /-- Start of the last WAIT_DISPLAY_READY (rule R44). -/
  tOp : Nat
  /-- Start of the last Delay (40_framer.md rule R158). -/
  tDelay : Nat
  /-- The words the last ReadData returned: the local of the pseudocode (rule R156). -/
  words : List Word16
  /-- Interface trace, oldest first (rule R43). -/
  trace : List Event
  /-- Parameters of the built engine (00_scope.md rule R6; log 1). -/
  params : Params
  /-- The agents' turns to come (log 4). -/
  agenda : List Turn
  /-- Micro-steps the Engine takes in one turn beyond the first (log 5). -/
  burst : Nat
  /-- Scripted HRDY draws (log 9). -/
  hrdyScript : List HrdyDraw
  /-- Number of HRDY draws made. -/
  hrdyNo : Nat
  /-- Scripted bus draws (log 9). -/
  busScript : List BusDraw
  /-- Number of bus draws made. -/
  busNo : Nat
  /-- Number of engine resets (log 6). -/
  epoch : Nat
  /-- Number of racing host accesses to XBUF (log 11). -/
  raceNo : Nat
  /-- What the last host load returned (log 10). -/
  hostData : Word32
  /-- The bytes `XGET` has read, oldest first (30_encoding.md rule R128; log 24). -/
  hostBytes : List Byte
  /-- The instructions of the host's program still to run (R127; log 24). -/
  hostProg : List HostOp
  deriving DecidableEq, Repr

/-! ### Stops -/

/-- Why the machine stops with a fault. -/
inductive Fault where
  /-- Raised by a host load of a device-information register while INFO_VALID = 0 (10_state.md rule R46; U1 says
  fault). Safe: the hardware returns an unspecified value. -/
  | deviceInfoUnset (offset : Nat)
  deriving DecidableEq, Repr

/-- Why a step has no meaning. -/
inductive Refusal where
  /-- An instruction that has no meaning in the model. Safe. -/
  | notModelled (mnemonic : String)
  /-- A host access that is not a 32-bit access at a multiple of 4 (20_memory.md rule R84; U2). Safe. -/
  | hostAccess (offset width : Nat)
  /-- Parameters outside the constraints of 00_scope.md rules R6 and R7 (U12). Safe. -/
  | badConfiguration
  /-- Bytes handed to the framer that are neither a command word nor a frame (log 8). Safe. -/
  | unknownWireWord
  /-- A bare frame outside the lengths of 30_encoding.md rules R119 and R120 (log 8). Safe. -/
  | frameLength
  deriving DecidableEq, Repr

/-! ### Reset -/

/-- The machine right after engine reset (70_reset_and_hazards.md rules R310, R311), for given parameters. What the
spec leaves unspecified (latches, staging, file, timestamps, `now`) is zero: DESIGN CHOICE, log 3. The agenda,
scripts and counters are the environment's, the program and what it has read the host's: none. -/
def State.afterReset (p : Params) : State where
  regs :=
    { opw := 0, arg0 := 0, bufoff := 0, len := 0, areaX := 0, areaY := 0, areaW := 0, areaH := 0,
      result := 0, errCode := 0, errInfo0 := 0, errInfo1 := 0, errInfo2 := 0, errInfo3 := 0,
      xcount := 0, timeoutMs := Config.timeoutMsReset, drdyTimeoutMs := 0, vcomCfg := p.vcomCfgReset }
  stat :=
    { busy := false, done := false, infoValid := false, collide := false, csN := true,
      resetN := true, hrdyLast := false, initPhase := 0 }
  lat :=
    { opw := 0, arg0 := 0, bufoff := 0, len := 0, ax := 0, ay := 0, aw := 0, ah := 0, tmo := 0,
      dtmo := 0, vcfg := 0 }
  info :=
    { panelW := 0, panelH := 0, imgBufAddr := 0, fwLen := 0, lutLen := 0, fwVer0 := 0, fwVer1 := 0,
      fwVer2 := 0, fwVer3 := 0, lutVer0 := 0, lutVer1 := 0, lutVer2 := 0, lutVer3 := 0 }
  stg :=
    { w := 0, h := 0, addr := 0, fw := List.replicate 16 0, lut := List.replicate 16 0, fwLen := 0,
      lutLen := 0 }
  xbuf := []
  xbufRace := []
  seq := .idle
  speed := .cmd
  now := 0
  tWait := 0
  tOp := 0
  tDelay := 0
  words := []
  trace := []
  params := p
  agenda := []
  burst := 65535
  hrdyScript := []
  hrdyNo := 0
  busScript := []
  busNo := 0
  epoch := 0
  raceNo := 0
  hostData := 0
  hostBytes := []
  hostProg := []

/-- The machine right after reset, with the reference parameters (log 2). -/
def State.reset : State := State.afterReset Config.reference

end Sys2Proof.Machine
end

