-- ==== Sys2Proof/Machine/Memory.lean ====
section
/-! DEFINITION. XBUF, the engine's one memory (20_memory.md rules R72, R73): a list of written bytes in one canonical
form, offsets strictly rising. An unlisted offset holds no value the model knows: the machine reads a free value
there (rule R315; log 6). -/

namespace Sys2Proof.Machine

/-- The byte written at an offset; `none` where nothing has been written since reset. -/
def Memory.lookup : List Host.Cell → Nat → Option Byte
  | [], _ => none
  | (k, v) :: rest, a => if k = a then some v else Memory.lookup rest a

/-- Writes one byte, keeping the offsets strictly rising. -/
def Memory.insert : List Host.Cell → Nat → Byte → List Host.Cell
  | [], a, v => [(a, v)]
  | (k, w) :: rest, a, v =>
    if a < k then (a, v) :: (k, w) :: rest
    else if a = k then (a, v) :: rest
    else (k, w) :: Memory.insert rest a v

/-- The canonical form: offsets strictly rising. (An unlisted offset reads as no value, so no entry can repeat it.) -/
abbrev Memory.wf (m : List Host.Cell) : Prop := m.Pairwise fun a b => a.1 < b.1

/-- Every listed offset is one of `XBUF[0 .. n-1]` (rule R72). -/
abbrev Memory.within (n : Nat) (m : List Host.Cell) : Prop := ∀ c ∈ m, c.1 < n

/-- `XBUF[a]`: the byte written there, or the free power-on value of this reset (rule R315; log 6). -/
def xbufByte (s : State) (a : Nat) : Byte :=
  (Memory.lookup s.xbuf a).getD (Config.xbufPowerOn s.epoch a)

/-- `XBUF[a] <- v`. There is no byte at or above `XBUF_BYTES` (rule R72). -/
def xbufStore (s : State) (a : Nat) (v : Byte) : State :=
  if a < s.params.xbufBytes then { s with xbuf := Memory.insert s.xbuf a v } else s

/-- `MemWrite`: a byte string stored from an offset up (00_scope.md rule R12). -/
def xbufStoreBytes (s : State) (a : Nat) : List Byte → State
  | [] => s
  | b :: bs => xbufStoreBytes (xbufStore s a b) (a + 1) bs

/-! ### Raced bytes (rule R93, U3; log 11) -/

/-- The values a byte has beside the one XBUF lists: none, unless it was raced on while the present operation runs. -/
def raceOthers (s : State) (a : Nat) : List Byte := (s.xbufRace.filter fun c => c.1 == a).map fun c => c.2

/-- One of a byte's values: `v` where it has no other, else the one the free number `n` picks. -/
def chooseByte (n : Nat) (v : Byte) : List Byte → Byte
  | [] => v
  | w :: ws => (v :: w :: ws).getD (n % (ws.length + 2)) v

/-- `XBUF[a]` as the running operation reads it: a raced byte is any of its values. -/
def engineByte (s : State) (a : Nat) : Byte :=
  chooseByte (Config.freeRaceEngine s.raceNo a) (xbufByte s a) (raceOthers s a)

/-- A racing `XBUF[a] <- v`: the byte is the new or the old one, as the free number `n` picks, and the other access may see
either. -/
def xbufRaceStore (n : Nat) (s : State) (a : Nat) (v : Byte) : State :=
  { xbufStore s a (chooseByte n v [xbufByte s a]) with xbufRace := (a, v) :: (a, xbufByte s a) :: s.xbufRace }

/-- `XBUF[a] <- v` by the running operation: a host load may still see the old byte, and a byte the host has raced on keeps
the host's value or takes `v`. -/
def engineStore (s : State) (a : Nat) (v : Byte) : State :=
  if raceOthers s a = [] then { xbufStore s a v with xbufRace := (a, xbufByte s a) :: s.xbufRace }
  else xbufRaceStore (Config.freeRaceEngine s.raceNo a) s a v

/-- `MemWrite` by the running operation. -/
def engineStoreBytes (s : State) (a : Nat) : List Byte → State
  | [] => s
  | b :: bs => engineStoreBytes (engineStore s a b) (a + 1) bs

/-! ### Words -/

/-- `XWord(b, i)` (rule R73): little-endian. -/
def xWord (s : State) (b i : Nat) : Word16 := word16 (engineByte s (b + 2 * i + 1)) (engineByte s (b + 2 * i))

/-- The 32-bit window word whose lowest XBUF byte is `a` (rule R72): little-endian. -/
def xbufWindowWord (s : State) (a : Nat) : Word32 :=
  xbufByte s (a + 3) ++ xbufByte s (a + 2) ++ xbufByte s (a + 1) ++ xbufByte s a

/-- The four bytes of a 32-bit word, lowest first (rule R72). -/
def le32 (v : Word32) : List Byte := le16 (lo16 v) ++ le16 (hi16 v)

/-- The 32-bit register holding bytes `4k .. 4k+3` of a byte string, byte `4k+j` in bits `[8j+7:8j]` (10_state.md
rule R39). -/
def packVer (bs : List Byte) (k : Nat) : Word32 :=
  bs.getD (4 * k + 3) 0 ++ bs.getD (4 * k + 2) 0 ++ bs.getD (4 * k + 1) 0 ++ bs.getD (4 * k) 0

end Sys2Proof.Machine
end

