-- ==== Sys2Proof/Machine/Operands.lean ====
section
/-! DEFINITION. Operands: the constants and constraints of 00_scope.md rules R6 and R7, the words of a bulk write
(40_framer.md rule R153, 43_display.md rules R247, R248), area arithmetic (R241 to R245), image lengths and flags
words (R246, R249), and the parsing of version strings (42_device.md rules R205, R206). -/

namespace Sys2Proof.Machine

/-! ### Constants and constraints -/

/-- `SETTLE_MS` (00_scope.md rule R6). -/
def settleMs : Nat := 100

/-- `VCOM_MAX` (R6). -/
def vcomMax : Nat := 5000

/-- `ID_WORDS` (R6). -/
def idWords : Nat := 20

/-- Device register addresses (20_memory.md rule R74). -/
def regI80cpcr : Word16 := 0x0004

/-- MCSR (R74): named by the source, used by no operation. -/
def regMcsr : Word16 := 0x0200

/-- LISAR, the low half of the image-buffer address (R74). -/
def regLisar : Word16 := 0x0208

/-- LISAR+2, the high half (R74). -/
def regLisarHigh : Word16 := 0x020A

/-- LUTAFSR (R74). -/
def regLutafsr : Word16 := 0x1224

/-- The constraints on the parameters: 00_scope.md rules R6 and R7, U12; and the host space of 20_memory.md rule R71
is 32 bits wide, which bounds the sizes (DEDUCED, log 1). -/
def paramsOk (p : Params) : Bool :=
  44 ≤ p.busMaxBytes && p.busMaxBytes % 2 == 0 && 40 ≤ p.xbufBytes && p.xbufBytes % 4 == 0 &&
    100 ≤ p.resetHoldMs && p.cmdHz < p.dataHz && 0x1000 + p.xbufBytes ≤ 2 ^ 32 && p.busMaxBytes < 2 ^ 32

/-! ### Words of a bulk write -/

/-- How many words a source holds. -/
def srcCount : WordSrc → Nat
  | .lit ws => ws.length
  | .xbuf _ n => n
  | .image _ n => ceilDiv n 2
  | .fill pc _ => ceilDiv pc 2

/-- Word `i` of a source: XWord (R73), the repacking of R248, the fill of R247. -/
def srcWord (s : State) : WordSrc → Nat → Word16
  | .lit ws, i => ws.getD i 0
  | .xbuf b _, i => xWord s b i
  | .image b n, i => if 2 * i + 1 < n then xWord s b i else word16 0 (engineByte s (b + 2 * i))
  | .fill pc v, i => if i < pc / 2 then word16 v v else word16 0 v

/-- All words of a source, in order. -/
def srcWords (s : State) (src : WordSrc) : List Word16 := (List.range (srcCount src)).map (srcWord s src)

/-- `m = min(CHUNK_WORDS, n - k)` (40_framer.md rule R152). -/
def chunkSize (p : Params) (src : WordSrc) (k : Nat) : Nat := min (chunkWords p) (srcCount src - k)

/-- The words of the chunk that begins at word `k` (R152, R153). -/
def chunkPayload (s : State) (src : WordSrc) (k : Nat) : List Word16 :=
  (List.range (chunkSize s.params src k)).map fun j => srcWord s src (k + j)

/-- `FillWords(pc, v)` (43_display.md rule R247). -/
def fillWords (pc : Nat) (v : Byte) : List Word16 :=
  List.replicate (pc / 2) (word16 v v) ++ (if pc % 2 = 1 then [word16 0 v] else [])

/-- `Repack(b, n)` (R248). -/
def repack (s : State) (b n : Nat) : List Word16 :=
  (List.range (n / 2)).map (xWord s b) ++ (if n % 2 = 1 then [word16 0 (engineByte s (b + n - 1))] else [])

/-! ### Areas -/

/-- `is_valid(a, W, H)` (R241), exact. -/
def areaValid (a : Area) (panelW panelH : Nat) : Bool :=
  0 < a.w && 0 < a.h && a.x + a.w ≤ panelW && a.y + a.h ≤ panelH

/-- `pixel_count(a)` (R242). -/
def pixelCount (a : Area) : Nat := a.w * a.h

/-- The latched area (R240). -/
def latchedArea (s : State) : Area := ⟨s.lat.ax.toNat, s.lat.ay.toNat, s.lat.aw.toNat, s.lat.ah.toNat⟩

/-- The full-panel area (R243). -/
def fullPanel (s : State) : Area := ⟨0, 0, s.info.panelW.toNat, s.info.panelH.toNat⟩

/-- `intersection(a, b)`, host-side (R244): `none` when the areas are disjoint or only touch. -/
def areaIntersection (a b : Area) : Option Area :=
  let x0 := max a.x b.x
  let y0 := max a.y b.y
  let x1 := min (a.x + a.w) (b.x + b.w)
  let y1 := min (a.y + a.h) (b.y + b.h)
  if x1 ≤ x0 ∨ y1 ≤ y0 then none else some ⟨x0, y0, x1 - x0, y1 - y0⟩

/-- `union(a, b)`, the bounding box, host-side (R245). -/
def areaUnion (a b : Area) : Area :=
  let x0 := min a.x b.x
  let y0 := min a.y b.y
  let x1 := max (a.x + a.w) (b.x + b.w)
  let y1 := max (a.y + a.h) (b.y + b.h)
  ⟨x0, y0, x1 - x0, y1 - y0⟩

/-- The argument word of a coordinate or size: 16 bits (10_state.md rule R30). -/
def areaWord (n : Nat) : Word16 := BitVec.ofNat 16 n

/-! ### Images -/

/-- `expected(bpp, pc)` (R246). -/
def expectedBytes (f : PixelFormat) (pc : Nat) : Nat :=
  match f with
  | .bpp8 => pc
  | .bpp4 => ceilDiv pc 2
  | .bpp3 => ceilDiv (3 * pc) 8
  | .bpp2 => ceilDiv pc 4

/-- `PF_CODE(bpp)` (00_scope.md rule R6). -/
def pfCode (p : Params) : PixelFormat → BitVec 4
  | .bpp2 => p.pfCode2
  | .bpp3 => p.pfCode3
  | .bpp4 => p.pfCode4
  | .bpp8 => p.pfCode8

/-- `packed_flags(endian, pf, rot)` (30_encoding.md rule R122). -/
def packedFlags (endian : BitVec 8) (pf rot : BitVec 4) : Word16 := endian ++ pf ++ rot

/-- `flags(bpp)` (43_display.md rules R249, R250). -/
def flagsWord (p : Params) (f : PixelFormat) : Word16 := packedFlags p.endianCodeLe (pfCode p f) p.rotCode0

/-! ### Version strings -/

/-- The bytes of version words, each word's low byte then its high byte (20_memory.md rule R81). -/
def versionBytes (ws : List Word16) : List Byte := ws.flatMap le16

/-- The index of the first zero byte, or the length (42_device.md rule R205). -/
def firstZero (bs : List Byte) : Nat := bs.findIdx (· == 0)

/-- `ParseDevInfo(ws)` (rule R205). -/
def parseDevInfo (ws : List Word16) : Staging where
  w := ws.getD 0 0
  h := ws.getD 1 0
  addr := ws.getD 3 0 ++ ws.getD 2 0
  fw := versionBytes ((List.range 8).map fun k => ws.getD (4 + k) 0)
  lut := versionBytes ((List.range 8).map fun k => ws.getD (12 + k) 0)
  fwLen := BitVec.ofNat 5 (firstZero (versionBytes ((List.range 8).map fun k => ws.getD (4 + k) 0)))
  lutLen := BitVec.ofNat 5 (firstZero (versionBytes ((List.range 8).map fun k => ws.getD (12 + k) 0)))

/-- The device-information file a staging copy commits to (rules R39, R210). -/
def infoOfStaging (t : Staging) : InfoFile where
  panelW := t.w
  panelH := t.h
  imgBufAddr := t.addr
  fwLen := t.fwLen
  lutLen := t.lutLen
  fwVer0 := packVer t.fw 0
  fwVer1 := packVer t.fw 1
  fwVer2 := packVer t.fw 2
  fwVer3 := packVer t.fw 3
  lutVer0 := packVer t.lut 0
  lutVer1 := packVer t.lut 1
  lutVer2 := packVer t.lut 2
  lutVer3 := packVer t.lut 3

end Sys2Proof.Machine
end

