-- ==== Sys2Proof/Machine/Flags.lean ====
section
/-! DEFINITION. The composed status words. The engine has no condition codes (10_state.md rule R47): its flags are the
fields of STATUS (R23), and the outcome of an operation is ERR_CODE with ERR_INFO0..3 (60_exceptions.md rules R281,
R282). -/

namespace Sys2Proof.Machine

/-- BUS_FAST mirrors the speed (10_state.md rules R23, R42). -/
def busFast (s : State) : Bool := s.speed == .data

/-- STATUS as the host reads it (R23). -/
def statusWord (s : State) : Word32 :=
  (0 : BitVec 20) ++ s.stat.initPhase ++ BitVec.ofBool s.stat.hrdyLast ++ BitVec.ofBool s.stat.resetN ++
    BitVec.ofBool s.stat.csN ++ BitVec.ofBool (busFast s) ++ BitVec.ofBool s.stat.collide ++
    BitVec.ofBool s.stat.infoValid ++ BitVec.ofBool s.stat.done ++ BitVec.ofBool s.stat.busy

/-- VER_LEN as the host reads it: FW_LEN in bits [4:0], LUT_LEN in bits [12:8] (R21, R39). -/
def verLenWord (i : InfoFile) : Word32 :=
  (0 : BitVec 19) ++ i.lutLen ++ (0 : BitVec 3) ++ i.fwLen

/-- The number of an INIT phase (R29). -/
def phaseNumber : InitPhase → BitVec 4
  | .hardReset => 1
  | .settle => 2
  | .identify => 3
  | .address => 4
  | .packed => 5
  | .vcom => 6

/-- The error codes of 60_exceptions.md rule R281. -/
def errCodeOf : Err → BitVec 8
  | .io _ _ => 1
  | .timeout _ _ _ => 2
  | .protocol _ _ => 3
  | .invalidArea _ _ _ _ => 4
  | .invalidVcom _ => 5
  | .dimensionMismatch _ _ => 6
  | .notInitialized => 7
  | .illegalOp _ _ => 8
  | .badLength _ _ => 9

/-- ERR_INFO0 of each error (R282). -/
def errInfo0Of : Err → Word32
  | .io code _ => code
  | .timeout budget _ _ => budget
  | .protocol got _ => BitVec.ofNat 32 got
  | .invalidArea x _ _ _ => BitVec.ofNat 32 x
  | .invalidVcom v => v.setWidth 32
  | .dimensionMismatch actual _ => BitVec.ofNat 32 actual
  | .notInitialized => 0
  | .illegalOp w _ => w
  | .badLength off _ => off

/-- ERR_INFO1 of each error (R282). -/
def errInfo1Of : Err → Word32
  | .io _ .hrdySample => 1
  | .io _ .exchange => 2
  | .timeout _ .hrdyWait _ => 0
  | .timeout _ .displayReady _ => 1
  | .protocol _ want => BitVec.ofNat 32 want
  | .invalidArea _ y _ _ => BitVec.ofNat 32 y
  | .invalidVcom _ => 0
  | .dimensionMismatch _ expected => BitVec.ofNat 32 expected
  | .notInitialized => 0
  | .illegalOp _ reason => BitVec.ofNat 32 reason
  | .badLength _ len => len

/-- ERR_INFO2 of each error (R282). -/
def errInfo2Of : Err → Word32
  | .timeout _ _ elapsed => BitVec.ofNat 32 elapsed
  | .invalidArea _ _ w _ => BitVec.ofNat 32 w
  | .io _ _ => 0
  | .protocol _ _ => 0
  | .invalidVcom _ => 0
  | .dimensionMismatch _ _ => 0
  | .notInitialized => 0
  | .illegalOp _ _ => 0
  | .badLength _ _ => 0

/-- ERR_INFO3 of each error (R282). -/
def errInfo3Of : Err → Word32
  | .invalidArea _ _ _ h => BitVec.ofNat 32 h
  | .io _ _ => 0
  | .timeout _ _ _ => 0
  | .protocol _ _ => 0
  | .invalidVcom _ => 0
  | .dimensionMismatch _ _ => 0
  | .notInitialized => 0
  | .illegalOp _ _ => 0
  | .badLength _ _ => 0

end Sys2Proof.Machine
end

