-- ==== Sys2Proof/Machine/Framer.lean ====
section
/-! DEFINITION. The procedures of 40_framer.md, 42_device.md and 43_display.md as the micro-steps they run, in order.
Each stands where the pseudocode calls it. -/

namespace Sys2Proof.Machine

/-- `SendCmd(op)` (40_framer.md rule R150). -/
def sendCmd (op : Word16) : List Micro := [.waitReady, .xferCmd op]

/-- `SendData(w)` (R151). -/
def sendData (w : Word16) : List Micro := [.waitReady, .xferData w]

/-- `SendDataBatch(ws)` (R152); an empty batch does nothing at all (R154). -/
def sendDataBatch (src : WordSrc) : List Micro := if srcCount src = 0 then [] else [.openBatch src]

/-- `ReadData(n)` (R156). -/
def readData (n : Nat) : List Micro := [.waitReady, .xferRead n]

/-- `SendCmdArgs(op, ws)` (R159). -/
def sendCmdArgs (op : Word16) (src : WordSrc) : List Micro := sendCmd op ++ sendDataBatch src

/-- `RegRead(a)` (R160). -/
def regRead (a : Word16) : List Micro := sendCmd (encodeCmd .regRead) ++ sendData a ++ readData 1

/-- `RegWrite(a, v)` (R161). -/
def regWrite (a v : Word16) : List Micro := sendCmd (encodeCmd .regWrite) ++ sendData a ++ sendData v

/-- `ResetPulse()` (R163); `pulseLow` goes on with the hold and the rising edge. -/
def resetPulse : List Micro := [.pulseLow]

/-- The rest of `ResetPulse()` once RESET_N is low (R163). -/
def resetPulseRest (p : Params) : List Micro := [.delay p.resetHoldMs, .pulseHigh]

/-- `VcomRead()` (42_device.md rule R212). -/
def vcomRead : List Micro := sendCmd (encodeUcmd .vcom) ++ sendData 0x0000 ++ readData 1

/-- The exchanges of `VcomWrite(v)` (R214), after its check. -/
def vcomWrite (v : Word16) : List Micro := sendCmd (encodeUcmd .vcom) ++ sendData 0x0001 ++ sendData v

/-- The writes of an image-buffer address: LISAR+2 with the high half, then LISAR with the low half (20_memory.md rule
R82, 42_device.md rule R207, 43_display.md rule R251). -/
def writeImgBufAddr (addr : Word32) : List Micro :=
  regWrite regLisarHigh (hi16 addr) ++ regWrite regLisar (lo16 addr)

/-- What INIT does after entering a phase, up to the entry of the next one (42_device.md rules R202 to R210). Phase 6
reads no S_ADDR, as the pseudocode of R209 has it, though 10_state.md rule R40 names phases 4 and 6 as its readers:
DEDUCED, log 27. -/
def phaseBody (s : State) : InitPhase → List Micro
  | .hardReset => resetPulse ++ [.enterPhase .settle]
  | .settle => [.delay settleMs, .enterPhase .identify]
  | .identify => sendCmd (encodeUcmd .getDevInfo) ++ readData idWords ++ [.parseDevInfo, .enterPhase .address]
  | .address => writeImgBufAddr s.stg.addr ++ [.enterPhase .packed]
  | .packed => regWrite regI80cpcr s.params.i80cpcrPacked ++ [.enterPhase .vcom]
  | .vcom => vcomRead ++ [.vcomSync, .commit]

/-- The five argument words of LoadImageArea and DisplayArea: one word and the area, or the area and one word. -/
def areaWords (a : Area) : List Word16 := [areaWord a.x, areaWord a.y, areaWord a.w, areaWord a.h]

/-- `LoadStart(fl, a)` (43_display.md rule R251). -/
def loadStart (addr : Word32) (fl : Word16) (a : Area) : List Micro :=
  writeImgBufAddr addr ++ sendCmdArgs (encodeCmd .loadImageArea) (.lit (fl :: areaWords a))

/-- `LoadEnd()` (R252). -/
def loadEnd : List Micro := sendCmd (encodeCmd .loadImageEnd)

/-- The body of FILL_AREA and CLEAR after their checks (R253, R254). -/
def fillBody (s : State) (a : Area) (v : Byte) : List Micro :=
  loadStart s.info.imgBufAddr (flagsWord s.params .bpp8) a ++ sendDataBatch (.fill (pixelCount a) v) ++ loadEnd

/-- The body of REFRESH_AREA and REFRESH after their checks (R255, R256). -/
def refreshBody (a : Area) (mode : Word16) : List Micro :=
  sendCmdArgs (encodeUcmd .displayArea) (.lit (areaWords a ++ [mode]))

/-- One poll of WAIT_DISPLAY_READY (42_device.md rule R218). -/
def lutPoll : List Micro := regRead regLutafsr ++ [.lutTest]

end Sys2Proof.Machine
end

