-- ==== Sys2Proof/Machine/Ops.lean ====
section
/-! DEFINITION. The named operations: the device oracle, ending an operation (60_exceptions.md rules R283, R284), the
accepted GO (10_state.md rules R22, R36), samples and exchanges (40_framer.md), one micro-step of the Engine, and a
turn of it. -/

namespace Sys2Proof.Machine

/-! ### The device oracle (00_scope.md rule R9; log 9) -/

/-- The HRDY draw `k` draws from now: the script's, or beyond it the free value of its number. -/
def hrdyAt (s : State) (k : Nat) : HrdyDraw :=
  (s.hrdyScript[s.hrdyNo + k]?).getD (Config.freeHrdy (s.hrdyNo + k))

/-- The bus draw `k` draws from now. -/
def busAt (s : State) (k : Nat) : BusDraw :=
  (s.busScript[s.busNo + k]?).getD (Config.freeBus (s.busNo + k))

/-- Records an event of the interface trace (10_state.md rule R43). -/
def record (s : State) (e : Event) : State := { s with trace := s.trace ++ [e] }

/-! ### Ending an operation: the error entry and the success end -/

/-- `raise E`: the failure end (60_exceptions.md rule R284), the analogue of taking an exception. The speed is
restored, ERR_CODE and ERR_INFO0..3 are written, BUSY falls, DONE rises; nothing is rolled back. No byte of XBUF is
raced on any more (20_memory.md rule R93; log 11). -/
def raise (e : Err) (s : State) : State :=
  { s with
    speed := .cmd
    regs :=
      { s.regs with
        errCode := errCodeOf e
        errInfo0 := errInfo0Of e
        errInfo1 := errInfo1Of e
        errInfo2 := errInfo2Of e
        errInfo3 := errInfo3Of e }
    stat := { s.stat with busy := false, done := true }
    xbufRace := []
    seq := .idle }

/-- The success end (R283). No byte of XBUF is raced on any more (log 11). -/
def succeed (s : State) : State :=
  { s with stat := { s.stat with busy := false, done := true }, xbufRace := [], seq := .idle }

/-- The operand latches an accepted GO fills (10_state.md rule R36). -/
def latchesOf (r : HostRegs) : Latches where
  opw := r.opw
  arg0 := r.arg0
  bufoff := r.bufoff
  len := r.len
  ax := r.areaX
  ay := r.areaY
  aw := r.areaW
  ah := r.areaH
  tmo := r.timeoutMs
  dtmo := r.drdyTimeoutMs
  vcfg := r.vcomCfg

/-- The accept actions of a GO (R22), the analogue of the return from an exception (60_exceptions.md rule R297): latch
the operands, BUSY, clear DONE, COLLIDE, the error registers and XCOUNT, and go to Decode. -/
def acceptGo (s : State) : State :=
  { s with
    lat := latchesOf s.regs
    stat := { s.stat with busy := true, done := false, collide := false }
    regs :=
      { s.regs with
        errCode := 0
        errInfo0 := 0
        errInfo1 := 0
        errInfo2 := 0
        errInfo3 := 0
        xcount := 0 }
    seq := .decode }

/-- A host write of CTRL (R22): GO is bit 0; a GO while BUSY is rejected and sets COLLIDE. -/
def writeCtrl (v : Word32) (s : State) : State :=
  if v.getLsbD 0 then
    if s.stat.busy then { s with stat := { s.stat with collide := true } } else acceptGo s
  else s

/-! ### Sequencer moves -/

/-- `seq <- (op, ...)` with the micro-steps still to run (10_state.md rule R34). -/
def goOn (op : Instr) (todo : List Micro) (s : State) : State := { s with seq := .run op todo }

/-! ### Lines, speed, time (40_framer.md rule R158) -/

/-- `DriveReset(l)`: sets RESET_N and its mirror, and records the edge. -/
def driveReset (l : Bool) (s : State) : State :=
  record { s with stat := { s.stat with resetN := l } } (.lineResetN l)

/-- `DriveCS(l)`, performed only inside an exchange (R145, R158). -/
def driveCs (l : Bool) (s : State) : State := { s with stat := { s.stat with csN := l } }

/-- `SetSpeed(s)`; STATUS.BUS_FAST is a view of it. -/
def setSpeed (sp : Speed) (s : State) : State := { s with speed := sp }

/-- A step of the Clock (10_state.md rule R44). -/
def tick (s : State) : State := record { s with now := s.now + 1 } .tick

/-! ### Samples and exchanges -/

/-- One HRDY sample of a wait and what follows it (40_framer.md rules R140 to R144): ready, an I/O error, the timeout,
or the yield before the next sample. -/
def sampleHrdy (op : Instr) (rest : List Micro) (s : State) : State :=
  match hrdyAt s 0 with
  | .ioerr code => raise (.io code .hrdySample) (record { s with hrdyNo := s.hrdyNo + 1 } (.sampleErr code))
  | .level v =>
    let s' := record { s with hrdyNo := s.hrdyNo + 1, stat := { s.stat with hrdyLast := v } } (.sample v)
    if v then goOn op rest s'
    else if s.lat.tmo.toNat ≤ s.now - s.tWait then raise (.timeout s.lat.tmo .hrdyWait (s.now - s.tWait)) s'
    else goOn op (.delay s.params.hrdyPollMs :: .resample :: rest) s'

/-- `Xfer(tx)`, one bus exchange at the current speed (R145 to R149): CS_N low for its duration; an I/O error ends the
operation; a response longer than `tx` is cut; XCOUNT counts the completed exchange; then `k` goes on. -/
def xfer (tx : List Byte) (k : List Byte → State → State) (s : State) : State :=
  let s' := driveCs true { driveCs false s with busNo := s.busNo + 1 }
  match busAt s 0 with
  | .ioerr code => raise (.io code .exchange) (record s' (.xferErr s.speed tx code))
  | .ok r =>
    k (r.take tx.length)
      (record { s' with regs := { s'.regs with xcount := s'.regs.xcount + 1 } }
        (.xfer s.speed tx (r.take tx.length)))

/-- After the exchange of a chunk: the next chunk with its own wait, or the close of the speed scope (R152, R155). -/
def afterChunk (p : Params) (src : WordSrc) (k : Nat) : List Micro :=
  if k + chunkSize p src k < srcCount src then [.waitReady, .xferChunk src (k + chunkSize p src k)]
  else [.closeBatch]

/-- The response of `ReadData(n)` (R147, R156): short gives PROTOCOL, else its words are returned. -/
def takeResponse (op : Instr) (n : Nat) (rest : List Micro) (rx : List Byte) (s : State) : State :=
  if rx.length < 4 + 2 * n then raise (.protocol ((max rx.length 4 - 4) / 2) n) s
  else goOn op rest { s with words := readWords n rx }

/-- The single word the last read returned. -/
def readWord (s : State) : Word16 := s.words.getD 0 0

/-- The entry of an INIT phase (42_device.md rules R203 to R209): INIT_PHASE, and for phase 1 also INFO_VALID <- 0. -/
def enterPhase (p : InitPhase) (s : State) : State :=
  { s with
    stat :=
      { s.stat with
        initPhase := phaseNumber p
        infoValid := if p = .hardReset then false else s.stat.infoValid } }

/-- `Commit()` (R210). -/
def commitInfo (s : State) : State :=
  { s with info := infoOfStaging s.stg, stat := { s.stat with initPhase := 7, infoValid := true } }

/-- The end of a poll of WAIT_DISPLAY_READY (R218). -/
def lutTest (op : Instr) (rest : List Micro) (s : State) : State :=
  if readWord s = 0 then goOn op rest s
  else if s.lat.dtmo ≠ 0 ∧ s.lat.dtmo.toNat ≤ s.now - s.tOp then
    raise (.timeout s.lat.dtmo .displayReady (s.now - s.tOp)) s
  else goOn op (.delay s.params.drdyPollMs :: (lutPoll ++ rest)) s

/-- The comparison of INIT phase 6 (R209): write only a differing VCOM, after the range check of R214. -/
def vcomSync (op : Instr) (rest : List Micro) (s : State) : State :=
  if readWord s = s.lat.vcfg then goOn op rest s
  else if vcomMax < s.lat.vcfg.toNat then raise (.invalidVcom s.lat.vcfg) s
  else goOn op (vcomWrite s.lat.vcfg ++ .setVcomCfg s.lat.vcfg :: rest) s

/-! ### One micro-step of the Engine -/

/-- The micro-step `m` of operation `op`, with `rest` to run after it. -/
def runMicro (op : Instr) (m : Micro) (rest : List Micro) (s : State) : State :=
  match m with
  | .waitReady => sampleHrdy op rest { s with tWait := s.now }
  | .resample => sampleHrdy op rest s
  | .xferCmd c => xfer (cmdFrame c) (fun _ => goOn op rest) s
  | .xferData w => xfer (dataFrame w) (fun _ => goOn op rest) s
  | .openBatch src => goOn op (.waitReady :: .xferChunk src 0 :: rest) (setSpeed .data s)
  | .xferChunk src k => xfer (chunkFrame (chunkPayload s src k)) (fun _ => goOn op (afterChunk s.params src k ++ rest)) s
  | .closeBatch => goOn op rest (setSpeed .cmd s)
  | .xferRead n => xfer (readFrame n) (takeResponse op n rest) s
  | .pulseLow => goOn op (resetPulseRest s.params ++ rest) (driveReset false s)
  | .pulseHigh => goOn op rest (driveReset true s)
  | .delay ms => goOn op (.hold ms :: rest) { s with tDelay := s.now }
  | .hold ms => if ms ≤ s.now - s.tDelay then goOn op rest s else s
  | .clearInfoValid => goOn op rest { s with stat := { s.stat with infoValid := false } }
  | .enterPhase p => goOn op (phaseBody s p ++ rest) (enterPhase p s)
  | .parseDevInfo => goOn op rest { s with stg := parseDevInfo s.words }
  | .vcomSync => vcomSync op rest s
  | .setVcomCfg v => goOn op rest { s with regs := { s.regs with vcomCfg := v } }
  | .commit => goOn op [] (commitInfo s)
  | .setResult => goOn op rest { s with regs := { s.regs with result := readWord s } }
  | .storeWords base => goOn op rest (engineStoreBytes s base (s.words.flatMap le16))
  | .startPoll => goOn op rest { s with tOp := s.now }
  | .lutTest => lutTest op rest s

/-- The Engine is held in a Delay (40_framer.md rule R158). -/
def held (s : State) : Bool :=
  match s.seq with
  | .run _ (.hold ms :: _) => s.now - s.tDelay < ms
  | _ => false

/-- The Engine has a micro-step to take: an operation is running and no Delay holds it. -/
def active (s : State) : Bool :=
  match s.seq with
  | .run _ _ => !held s
  | _ => false

/-- One micro-step of the running operation; the end of its list is `return` (R283). -/
def microStep (s : State) : State :=
  match s.seq with
  | .run _ [] => succeed s
  | .run op (m :: rest) => runMicro op m rest s
  | _ => s

/-- Up to `n` micro-steps in a row: the Engine stops where the operation ends or a Delay holds it. -/
def engineRun : Nat → State → State
  | 0, s => s
  | n + 1, s => if active s then engineRun n (microStep s) else s

/-! ### A turn of the Engine -/

/-- An operation's start: its checks, in the order of 60_exceptions.md rule R286, and the micro-steps after them. -/
abbrev Start := Except Err (List Micro)

/-- The micro-step at Decode (30_encoding.md rule R105) and the operation's checks, which no device access precedes: an
illegal operand value gives ILLEGAL_OP, a failed check its error, else the sequencer goes to the first micro-step. -/
def begin (i : Instr) (start : Start) (s : State) : State :=
  match operandDefect i with
  | some reason => raise (.illegalOp s.lat.opw reason) s
  | none =>
    match start with
    | .error e => raise e s
    | .ok todo => goOn i todo s

/-- A turn of the Engine on instruction `i`: from Decode (or the framer's `wire`) the start and up to `burst`
micro-steps more; where the operation is already running, one micro-step and up to `burst` more (log 5). -/
def engineTurn (i : Instr) (start : State → Start) (s : State) : Host.Outcome State Fault Refusal :=
  match s.seq with
  | .run _ _ => .next (engineRun (s.burst + 1) s)
  | _ => .next (engineRun s.burst (begin i (start s) s))

/-! ### Checks (60_exceptions.md rule R286) -/

/-- `CheckRange(nbytes)` (41_transport.md rule R171), exact; a zero-byte range always passes. -/
def checkRange (s : State) (nbytes : Nat) (k : Start) : Start :=
  if nbytes ≠ 0 ∧ s.params.xbufBytes < s.lat.bufoff.toNat + nbytes then .error (.badLength s.lat.bufoff s.lat.len)
  else k

/-- `RequireInit()` (43_display.md rule R240). -/
def requireInit (s : State) (k : Start) : Start := if s.stat.infoValid then k else .error .notInitialized

/-- `CheckArea(a)` (R241). -/
def checkArea (s : State) (a : Area) (k : Start) : Start :=
  if areaValid a s.info.panelW.toNat s.info.panelH.toNat then k else .error (.invalidArea a.x a.y a.w a.h)

/-- The range check of `VcomWrite(v)` (42_device.md rule R214). -/
def checkVcom (v : Word16) (k : Start) : Start := if vcomMax < v.toNat then .error (.invalidVcom v) else k

/-- The bound of RD_DATA_BATCH (41_transport.md rule R177). -/
def checkReadCount (s : State) (k : Start) : Start :=
  if rdMaxWords s.params < s.lat.len.toNat then .error (.badLength s.lat.bufoff s.lat.len) else k

/-- The length check of LOAD_IMAGE (43_display.md rule R257). -/
def checkImageLength (s : State) (expected : Nat) (k : Start) : Start :=
  if s.lat.len.toNat < expected then .error (.dimensionMismatch s.lat.len.toNat expected) else k

/-! ### Engine reset (70_reset_and_hazards.md rules R310 to R312) -/

/-- rst_n: every register at its reset value, the operation abandoned, the lines inactive, the trace empty. XBUF is
unspecified anew (log 6). DESIGN CHOICE where R310 and R311 are silent: the environment's schedule and oracle go on, `now`
goes on (log 3), and the host keeps what is its own, the word it loaded, the bytes it read and its program (log 10). -/
def engineReset (s : State) : State :=
  { State.afterReset s.params with
    now := s.now
    agenda := s.agenda
    burst := s.burst
    hrdyScript := s.hrdyScript
    hrdyNo := s.hrdyNo
    busScript := s.busScript
    busNo := s.busNo
    epoch := s.epoch + 1
    raceNo := s.raceNo
    hostData := s.hostData
    hostBytes := s.hostBytes
    hostProg := s.hostProg }

end Sys2Proof.Machine
end

