-- ==== Sys2Proof/Machine/Device.lean ====
section
/-! DEFINITION. The Device operations, OP 0x10 to 0x17 (42_device.md rules R201 to R218). None requires INFO_VALID
(R200). -/

namespace Sys2Proof.Machine

/-- RESET (R201). -/
def execReset (s : State) : Host.Outcome State Fault Refusal :=
  engineTurn .reset (fun _ => .ok (.clearInfoValid :: resetPulse)) s

/-- INIT (R202): its six phases follow one another from `phaseBody`, then the commit. -/
def execInit (s : State) : Host.Outcome State Fault Refusal :=
  engineTurn .init (fun _ => .ok [.enterPhase .hardReset]) s

/-- RD_VCOM (R212). -/
def execRdVcom (s : State) : Host.Outcome State Fault Refusal :=
  engineTurn .rdVcom (fun _ => .ok (vcomRead ++ [.setResult])) s

/-- WR_VCOM (R213): VCOM_CFG is written only after the device was. -/
def execWrVcom (v : Word16) (s : State) : Host.Outcome State Fault Refusal :=
  engineTurn (.wrVcom v) (fun _ => checkVcom v (.ok (vcomWrite v ++ [.setVcomCfg v]))) s

/-- RUN (R215). -/
def execRun (s : State) : Host.Outcome State Fault Refusal :=
  engineTurn .run (fun _ => .ok (sendCmd (encodeCmd .sysRun))) s

/-- STANDBY (R216). -/
def execStandby (s : State) : Host.Outcome State Fault Refusal :=
  engineTurn .standby (fun _ => .ok (sendCmd (encodeCmd .standby))) s

/-- SLEEP (R217). -/
def execSleep (s : State) : Host.Outcome State Fault Refusal :=
  engineTurn .sleep (fun _ => .ok (sendCmd (encodeCmd .sleep))) s

/-- WAIT_DISPLAY_READY (R218). -/
def execWaitDisplayReady (s : State) : Host.Outcome State Fault Refusal :=
  engineTurn .waitDisplayReady (fun _ => .ok (.startPoll :: lutPoll)) s

end Sys2Proof.Machine
end

