-- ==== Sys2Proof/Machine/Display.lean ====
section
/-! DEFINITION. The Display operations, OP 0x20 to 0x24 (43_display.md rules R253 to R257). Each checks INFO_VALID, then
its area, before any device access (R240). -/

namespace Sys2Proof.Machine

/-- CLEAR (R253): FILL_AREA of the full panel. -/
def execClear (v : Byte) (s : State) : Host.Outcome State Fault Refusal :=
  engineTurn (.clear v)
    (fun s => requireInit s (checkArea s (fullPanel s) (.ok (fillBody s (fullPanel s) v)))) s

/-- FILL_AREA (R254). -/
def execFillArea (v : Byte) (s : State) : Host.Outcome State Fault Refusal :=
  engineTurn (.fillArea v)
    (fun s => requireInit s (checkArea s (latchedArea s) (.ok (fillBody s (latchedArea s) v)))) s

/-- REFRESH (R255): REFRESH_AREA of the full panel. -/
def execRefresh (mode : Word16) (s : State) : Host.Outcome State Fault Refusal :=
  engineTurn (.refresh mode)
    (fun s => requireInit s (checkArea s (fullPanel s) (.ok (refreshBody (fullPanel s) mode)))) s

/-- REFRESH_AREA (R256). -/
def execRefreshArea (mode : Word16) (s : State) : Host.Outcome State Fault Refusal :=
  engineTurn (.refreshArea mode)
    (fun s => requireInit s (checkArea s (latchedArea s) (.ok (refreshBody (latchedArea s) mode)))) s

/-- The LEN image bytes at BUFOFF of XBUF as a source (R248). -/
def latchedImage (s : State) : WordSrc := .image s.lat.bufoff.toNat s.lat.len.toNat

/-- The micro-steps of LOAD_IMAGE after its checks (R257). -/
def loadImageBody (s : State) (f : PixelFormat) : List Micro :=
  loadStart s.info.imgBufAddr (flagsWord s.params f) (latchedArea s) ++ sendDataBatch (latchedImage s) ++ loadEnd

/-- The checks of LOAD_IMAGE in order, then its body (R240, R257). -/
def loadImageStart (s : State) (f : PixelFormat) : Start :=
  checkRange s s.lat.len.toNat
    (requireInit s
      (checkArea s (latchedArea s)
        (checkImageLength s (expectedBytes f (pixelCount (latchedArea s))) (.ok (loadImageBody s f)))))

/-- LOAD_IMAGE (R257); a FMT that is no pixel format never reaches the checks (R105, R106). -/
def execLoadImage (fmt : BitVec 4) (s : State) : Host.Outcome State Fault Refusal :=
  engineTurn (.loadImage fmt)
    (fun s =>
      match pixelFormatOf fmt with
      | some f => loadImageStart s f
      | none => .error (.illegalOp s.lat.opw 2)) s

end Sys2Proof.Machine
end

