-- ==== Sys2Proof/Machine/Transport.lean ====
section
/-! DEFINITION. The Transport operations, OP 0x01 to 0x0A (41_transport.md rules R172 to R181). Each meaning is a turn
of the Engine on its checks and its micro-steps. -/

namespace Sys2Proof.Machine

/-- WR_CMD (R172). -/
def execWrCmd (imm : Word16) (s : State) : Host.Outcome State Fault Refusal :=
  engineTurn (.wrCmd imm) (fun _ => .ok (sendCmd imm)) s

/-- WR_UCMD (R173). -/
def execWrUcmd (imm : Word16) (s : State) : Host.Outcome State Fault Refusal :=
  engineTurn (.wrUcmd imm) (fun _ => .ok (sendCmd imm)) s

/-- WR_DATA (R174). -/
def execWrData (w : Word16) (s : State) : Host.Outcome State Fault Refusal :=
  engineTurn (.wrData w) (fun _ => .ok (sendData w)) s

/-- The LEN words at BUFOFF of XBUF as a source (R171, R175). -/
def latchedWords (s : State) : WordSrc := .xbuf s.lat.bufoff.toNat s.lat.len.toNat

/-- WR_DATA_BATCH (R175). -/
def execWrDataBatch (s : State) : Host.Outcome State Fault Refusal :=
  engineTurn .wrDataBatch
    (fun s => checkRange s (2 * s.lat.len.toNat) (.ok (sendDataBatch (latchedWords s)))) s

/-- RD_DATA (R176). -/
def execRdData (s : State) : Host.Outcome State Fault Refusal :=
  engineTurn .rdData (fun _ => .ok (readData 1 ++ [.setResult])) s

/-- The micro-steps of RD_DATA_BATCH after its checks: nothing for zero words (R177). -/
def readBatch (s : State) : List Micro :=
  if s.lat.len.toNat = 0 then [] else readData s.lat.len.toNat ++ [.storeWords s.lat.bufoff.toNat]

/-- RD_DATA_BATCH (R177). -/
def execRdDataBatch (s : State) : Host.Outcome State Fault Refusal :=
  engineTurn .rdDataBatch
    (fun s => checkReadCount s (checkRange s (2 * s.lat.len.toNat) (.ok (readBatch s)))) s

/-- WR_CMD_ARGS (R178). -/
def execWrCmdArgs (imm : Word16) (s : State) : Host.Outcome State Fault Refusal :=
  engineTurn (.wrCmdArgs imm)
    (fun s => checkRange s (2 * s.lat.len.toNat) (.ok (sendCmdArgs imm (latchedWords s)))) s

/-- WR_UCMD_ARGS (R179). -/
def execWrUcmdArgs (imm : Word16) (s : State) : Host.Outcome State Fault Refusal :=
  engineTurn (.wrUcmdArgs imm)
    (fun s => checkRange s (2 * s.lat.len.toNat) (.ok (sendCmdArgs imm (latchedWords s)))) s

/-- RD_REG (R180). -/
def execRdReg (addr : Word16) (s : State) : Host.Outcome State Fault Refusal :=
  engineTurn (.rdReg addr) (fun _ => .ok (regRead addr ++ [.setResult])) s

/-- WR_REG (R181). -/
def execWrReg (addr : Word16) (s : State) : Host.Outcome State Fault Refusal :=
  engineTurn (.wrReg addr) (fun s => .ok (regWrite addr s.lat.arg0)) s

end Sys2Proof.Machine
end

