-- ==== Sys2Proof/Machine/Wire.lean ====
section
/-! DEFINITION. The framer's own instructions, one level below the operations (log 8): a wire command word
(30_encoding.md rules R112, R113) is sent as the framer sends every command, `SendCmd` (40_framer.md rule R150); a
preamble (R111) is the frame it starts (R117 to R120), sent behind its own HRDY wait at the current speed. What a
command does in the device is the device's (R114). -/

namespace Sys2Proof.Machine

/-- The framer sends one bare command word. -/
def wireCommand (i : Instr) (op : Word16) (s : State) : Host.Outcome State Fault Refusal :=
  engineTurn i (fun _ => .ok (sendCmd op)) s

/-- wire.SysRun (R112). -/
def execWireSysRun (s : State) : Host.Outcome State Fault Refusal :=
  wireCommand .wireSysRun (encodeCmd .sysRun) s

/-- wire.Standby (R112). -/
def execWireStandby (s : State) : Host.Outcome State Fault Refusal :=
  wireCommand .wireStandby (encodeCmd .standby) s

/-- wire.Sleep (R112). -/
def execWireSleep (s : State) : Host.Outcome State Fault Refusal :=
  wireCommand .wireSleep (encodeCmd .sleep) s

/-- wire.RegRead (R112). -/
def execWireRegRead (s : State) : Host.Outcome State Fault Refusal :=
  wireCommand .wireRegRead (encodeCmd .regRead) s

/-- wire.RegWrite (R112). -/
def execWireRegWrite (s : State) : Host.Outcome State Fault Refusal :=
  wireCommand .wireRegWrite (encodeCmd .regWrite) s

/-- wire.MemBurstReadTrigger (R112). -/
def execWireMemBurstReadTrigger (s : State) : Host.Outcome State Fault Refusal :=
  wireCommand .wireMemBurstReadTrigger (encodeCmd .memBurstReadTrigger) s

/-- wire.MemBurstReadStart (R112). -/
def execWireMemBurstReadStart (s : State) : Host.Outcome State Fault Refusal :=
  wireCommand .wireMemBurstReadStart (encodeCmd .memBurstReadStart) s

/-- wire.MemBurstWrite (R112). -/
def execWireMemBurstWrite (s : State) : Host.Outcome State Fault Refusal :=
  wireCommand .wireMemBurstWrite (encodeCmd .memBurstWrite) s

/-- wire.MemBurstEnd (R112). -/
def execWireMemBurstEnd (s : State) : Host.Outcome State Fault Refusal :=
  wireCommand .wireMemBurstEnd (encodeCmd .memBurstEnd) s

/-- wire.LoadImage (R112). -/
def execWireLoadImage (s : State) : Host.Outcome State Fault Refusal :=
  wireCommand .wireLoadImage (encodeCmd .loadImage) s

/-- wire.LoadImageArea (R112). -/
def execWireLoadImageArea (s : State) : Host.Outcome State Fault Refusal :=
  wireCommand .wireLoadImageArea (encodeCmd .loadImageArea) s

/-- wire.LoadImageEnd (R112). -/
def execWireLoadImageEnd (s : State) : Host.Outcome State Fault Refusal :=
  wireCommand .wireLoadImageEnd (encodeCmd .loadImageEnd) s

/-- wire.DisplayArea (R113). -/
def execWireDisplayArea (s : State) : Host.Outcome State Fault Refusal :=
  wireCommand .wireDisplayArea (encodeUcmd .displayArea) s

/-- wire.DisplayBufArea (R113). -/
def execWireDisplayBufArea (s : State) : Host.Outcome State Fault Refusal :=
  wireCommand .wireDisplayBufArea (encodeUcmd .displayBufArea) s

/-- wire.VCOM (R113). -/
def execWireVcom (s : State) : Host.Outcome State Fault Refusal :=
  wireCommand .wireVcom (encodeUcmd .vcom) s

/-- wire.GetDevInfo (R113). -/
def execWireGetDevInfo (s : State) : Host.Outcome State Fault Refusal :=
  wireCommand .wireGetDevInfo (encodeUcmd .getDevInfo) s

/-- preamble.write-command: a command frame of any opcode (R117). -/
def execPreWriteCommand (op : Word16) (s : State) : Host.Outcome State Fault Refusal :=
  engineTurn (.preWriteCommand op) (fun _ => .ok (sendCmd op)) s

/-- The one data frame of `ws`, at the current speed: a single word is `SendData`, more are one chunk (R118, R119). -/
def bareDataFrame (ws : List Word16) : List Micro :=
  match ws with
  | [w] => sendData w
  | _ => [.waitReady, .xferChunk (.lit ws) 0]

/-- preamble.write-data: a data frame or chunk (R118, R119). A length the wire does not admit is refused. -/
def execPreWriteData (ws : List Word16) (s : State) : Host.Outcome State Fault Refusal :=
  if frameLengthOk s.params (.preWriteData ws) then
    engineTurn (.preWriteData ws) (fun _ => .ok (bareDataFrame ws)) s
  else .refused .frameLength

/-- preamble.read-data: a read frame (R120). Its words are left where `ReadData` returns them (40_framer.md rule R156).
A length the wire does not admit is refused. -/
def execPreReadData (n : Nat) (s : State) : Host.Outcome State Fault Refusal :=
  if frameLengthOk s.params (.preReadData n) then
    engineTurn (.preReadData n) (fun _ => .ok (readData n)) s
  else .refused .frameLength

end Sys2Proof.Machine
end

