-- ==== Sys2Proof/Machine/Dispatch.lean ====
section
/-! DEFINITION. The dispatch: one arm per instruction, each one call of its meaning. -/

namespace Sys2Proof.Machine

def exec (i : Instr) (s : State) : Host.Outcome State Fault Refusal :=
  match i with
  | .wrCmd imm => Sys2Proof.Machine.execWrCmd imm s
  | .wrUcmd imm => Sys2Proof.Machine.execWrUcmd imm s
  | .wrData w => Sys2Proof.Machine.execWrData w s
  | .wrDataBatch => Sys2Proof.Machine.execWrDataBatch s
  | .rdData => Sys2Proof.Machine.execRdData s
  | .rdDataBatch => Sys2Proof.Machine.execRdDataBatch s
  | .wrCmdArgs imm => Sys2Proof.Machine.execWrCmdArgs imm s
  | .wrUcmdArgs imm => Sys2Proof.Machine.execWrUcmdArgs imm s
  | .rdReg addr => Sys2Proof.Machine.execRdReg addr s
  | .wrReg addr => Sys2Proof.Machine.execWrReg addr s
  | .reset => Sys2Proof.Machine.execReset s
  | .init => Sys2Proof.Machine.execInit s
  | .rdVcom => Sys2Proof.Machine.execRdVcom s
  | .wrVcom v => Sys2Proof.Machine.execWrVcom v s
  | .run => Sys2Proof.Machine.execRun s
  | .standby => Sys2Proof.Machine.execStandby s
  | .sleep => Sys2Proof.Machine.execSleep s
  | .waitDisplayReady => Sys2Proof.Machine.execWaitDisplayReady s
  | .clear v => Sys2Proof.Machine.execClear v s
  | .fillArea v => Sys2Proof.Machine.execFillArea v s
  | .refresh mode => Sys2Proof.Machine.execRefresh mode s
  | .refreshArea mode => Sys2Proof.Machine.execRefreshArea mode s
  | .loadImage fmt => Sys2Proof.Machine.execLoadImage fmt s
  | .wireSysRun => Sys2Proof.Machine.execWireSysRun s
  | .wireStandby => Sys2Proof.Machine.execWireStandby s
  | .wireSleep => Sys2Proof.Machine.execWireSleep s
  | .wireRegRead => Sys2Proof.Machine.execWireRegRead s
  | .wireRegWrite => Sys2Proof.Machine.execWireRegWrite s
  | .wireMemBurstReadTrigger => Sys2Proof.Machine.execWireMemBurstReadTrigger s
  | .wireMemBurstReadStart => Sys2Proof.Machine.execWireMemBurstReadStart s
  | .wireMemBurstWrite => Sys2Proof.Machine.execWireMemBurstWrite s
  | .wireMemBurstEnd => Sys2Proof.Machine.execWireMemBurstEnd s
  | .wireLoadImage => Sys2Proof.Machine.execWireLoadImage s
  | .wireLoadImageArea => Sys2Proof.Machine.execWireLoadImageArea s
  | .wireLoadImageEnd => Sys2Proof.Machine.execWireLoadImageEnd s
  | .wireDisplayArea => Sys2Proof.Machine.execWireDisplayArea s
  | .wireDisplayBufArea => Sys2Proof.Machine.execWireDisplayBufArea s
  | .wireVcom => Sys2Proof.Machine.execWireVcom s
  | .wireGetDevInfo => Sys2Proof.Machine.execWireGetDevInfo s
  | .preWriteCommand op => Sys2Proof.Machine.execPreWriteCommand op s
  | .preWriteData ws => Sys2Proof.Machine.execPreWriteData ws s
  | .preReadData n => Sys2Proof.Machine.execPreReadData n s

end Sys2Proof.Machine
end

