-- ==== Sys2Proof/Machine/HostPort.lean ====
section
/-! DEFINITION. The host's accesses: the register map of 10_state.md rule R21, the XBUF window of 20_memory.md rule R72,
the access rules R45, R46 and R84, and the race of R93 (log 11). -/

namespace Sys2Proof.Machine

/-- The offset of a host address from `ENGINE_BASE` (20_memory.md rule R71). -/
def hostOffset (s : State) (addr : Word32) : Nat := (addr - s.params.engineBase).toNat

/-- The offsets of the device-information registers (10_state.md rules R21, R46). -/
def isInfoOffset (off : Nat) : Bool := 0x060 ≤ off && off < 0x090

/-- The XBUF window (R21, R72). -/
def inWindow (s : State) (off : Nat) : Bool := 0x1000 ≤ off && off < 0x1000 + s.params.xbufBytes

/-- What a host register reads (R21, R45): 0 for CTRL, the `0` bit ranges and unmapped offsets. -/
def readReg (s : State) (off : Nat) : Word32 :=
  match off with
  | 0x000 => 0
  | 0x004 => statusWord s
  | 0x008 => s.regs.opw
  | 0x00C => s.regs.arg0.setWidth 32
  | 0x010 => s.regs.bufoff
  | 0x014 => s.regs.len
  | 0x018 => s.regs.areaX.setWidth 32
  | 0x01C => s.regs.areaY.setWidth 32
  | 0x020 => s.regs.areaW.setWidth 32
  | 0x024 => s.regs.areaH.setWidth 32
  | 0x028 => s.regs.result.setWidth 32
  | 0x02C => s.regs.errCode.setWidth 32
  | 0x030 => s.regs.errInfo0
  | 0x034 => s.regs.errInfo1
  | 0x038 => s.regs.errInfo2
  | 0x03C => s.regs.errInfo3
  | 0x040 => s.regs.xcount
  | 0x044 => s.regs.timeoutMs
  | 0x048 => s.regs.drdyTimeoutMs
  | 0x04C => s.regs.vcomCfg.setWidth 32
  | 0x050 => BitVec.ofNat 32 s.params.xbufBytes
  | 0x054 => BitVec.ofNat 32 s.params.busMaxBytes
  | 0x060 => s.info.panelW.setWidth 32
  | 0x064 => s.info.panelH.setWidth 32
  | 0x068 => s.info.imgBufAddr
  | 0x06C => verLenWord s.info
  | 0x070 => s.info.fwVer0
  | 0x074 => s.info.fwVer1
  | 0x078 => s.info.fwVer2
  | 0x07C => s.info.fwVer3
  | 0x080 => s.info.lutVer0
  | 0x084 => s.info.lutVer1
  | 0x088 => s.info.lutVer2
  | 0x08C => s.info.lutVer3
  | _ => 0

/-- A host write of VCOM_CFG: ignored while BUSY, never validated (R37). -/
def writeVcomCfg (v : Word32) (s : State) : State :=
  if s.stat.busy then s else { s with regs := { s.regs with vcomCfg := lo16 v } }

/-- A host write of a register (R21, R45): read-only registers, `0` bit ranges and unmapped offsets ignore it. -/
def writeReg (off : Nat) (v : Word32) (s : State) : State :=
  match off with
  | 0x000 => writeCtrl v s
  | 0x008 => { s with regs := { s.regs with opw := v } }
  | 0x00C => { s with regs := { s.regs with arg0 := lo16 v } }
  | 0x010 => { s with regs := { s.regs with bufoff := v } }
  | 0x014 => { s with regs := { s.regs with len := v } }
  | 0x018 => { s with regs := { s.regs with areaX := lo16 v } }
  | 0x01C => { s with regs := { s.regs with areaY := lo16 v } }
  | 0x020 => { s with regs := { s.regs with areaW := lo16 v } }
  | 0x024 => { s with regs := { s.regs with areaH := lo16 v } }
  | 0x044 => { s with regs := { s.regs with timeoutMs := v } }
  | 0x048 => { s with regs := { s.regs with drdyTimeoutMs := v } }
  | 0x04C => writeVcomCfg v s
  | _ => s

/-- The XBUF bytes an operation reads (`false`) or writes (`true`): 41_transport.md rule R171, `[lo, hi)`. -/
def xbufUse (l : Latches) : Instr → Option (Bool × Nat × Nat)
  | .wrCmd _ => none
  | .wrUcmd _ => none
  | .wrData _ => none
  | .wrDataBatch => some (false, l.bufoff.toNat, l.bufoff.toNat + 2 * l.len.toNat)
  | .rdData => none
  | .rdDataBatch => some (true, l.bufoff.toNat, l.bufoff.toNat + 2 * l.len.toNat)
  | .wrCmdArgs _ => some (false, l.bufoff.toNat, l.bufoff.toNat + 2 * l.len.toNat)
  | .wrUcmdArgs _ => some (false, l.bufoff.toNat, l.bufoff.toNat + 2 * l.len.toNat)
  | .rdReg _ => none
  | .wrReg _ => none
  | .reset => none
  | .init => none
  | .rdVcom => none
  | .wrVcom _ => none
  | .run => none
  | .standby => none
  | .sleep => none
  | .waitDisplayReady => none
  | .clear _ => none
  | .fillArea _ => none
  | .refresh _ => none
  | .refreshArea _ => none
  | .loadImage _ => some (false, l.bufoff.toNat, l.bufoff.toNat + l.len.toNat)
  | .wireSysRun => none
  | .wireStandby => none
  | .wireSleep => none
  | .wireRegRead => none
  | .wireRegWrite => none
  | .wireMemBurstReadTrigger => none
  | .wireMemBurstReadStart => none
  | .wireMemBurstWrite => none
  | .wireMemBurstEnd => none
  | .wireLoadImage => none
  | .wireLoadImageArea => none
  | .wireLoadImageEnd => none
  | .wireDisplayArea => none
  | .wireDisplayBufArea => none
  | .wireVcom => none
  | .wireGetDevInfo => none
  | .preWriteCommand _ => none
  | .preWriteData _ => none
  | .preReadData _ => none

/-- The micro-step that comes next, if any. -/
def todoHead : Seq → Option Micro
  | .run _ todo => todo.head?
  | .idle => none
  | .decode => none
  | .wire _ => none

/-- The bytes the next response holds for RD_DATA_BATCH (40_framer.md rule R156), low byte of each word first. DESIGN
CHOICE: they are the new values of rule R93 before the exchange, whether or not the operation gets that far; R93 does not
say what a new value is where nothing is stored (log 11). -/
def awaitedBytes (s : State) : List Byte :=
  match busAt s 0 with
  | .ok rx => if 4 + 2 * s.lat.len.toNat ≤ rx.length then (readWords s.lat.len.toNat rx).flatMap le16 else []
  | .ioerr _ => []

/-- The XBUF bytes in use while an operation is accepted and has not ended. -/
def busyUse (s : State) : Option (Bool × Nat × Nat) :=
  match s.seq with
  | .run op _ => xbufUse s.lat op
  | .decode =>
    (decodeOpw s.lat.opw).toOption.bind fun i => if (operandDefect i).isSome then none else xbufUse s.lat i
  | .idle => none
  | .wire _ => none

/-- Whether the running operation reads (`some false`) or writes (`some true`) the byte `XBUF[a]`. DESIGN CHOICE (log 11):
an empty range, and one outside XBUF, which ends the operation with BAD_LENGTH, is not in use; a range inside XBUF is, even
where another check ends the operation without an access, as LEN above RD_MAX_WORDS does RD_DATA_BATCH. -/
def byteUse (s : State) (a : Nat) : Option Bool :=
  match busyUse s with
  | some (writes, lo, hi) => if lo ≤ a ∧ a < hi ∧ hi ≤ s.params.xbufBytes then some writes else none
  | none => none

/-- The bytes RD_DATA_BATCH has still to store, from BUFOFF up (41_transport.md rule R177): of the words it has read, or of
the next response; none once they are stored, or where that response is short or an error. DESIGN CHOICE (log 11): the
next response counts before the exchange, also where a timeout, an error of a sample or LEN above RD_MAX_WORDS will end the
operation with nothing stored. -/
def incomingBytes (s : State) : List Byte :=
  match todoHead s.seq with
  | some (.storeWords _) => s.words.flatMap le16
  | none => if s.seq = .decode then awaitedBytes s else []
  | some _ => awaitedBytes s

/-- The values the host may load for `XBUF[a]` beside the one XBUF lists (20_memory.md rule R93): of a byte in use, those it
was raced to, and the one the operation is to store there. -/
def hostOthers (s : State) (a : Nat) : List Byte :=
  match byteUse s a with
  | some false => raceOthers s a
  | some true => raceOthers s a ++ (incomingBytes s)[a - s.lat.bufoff.toNat]?.toList
  | none => []

/-- `XBUF[a]` as the host loads it: a raced byte is any of its values. -/
def hostByte (s : State) (a : Nat) : Byte :=
  chooseByte (Config.freeRaceHost s.raceNo a) (xbufByte s a) (hostOthers s a)

/-- `XBUF[a] <- v` by the host: a store to a byte in use races. -/
def hostByteStore (s : State) (a : Nat) (v : Byte) : State :=
  if (byteUse s a).isSome then xbufRaceStore (Config.freeRaceHost s.raceNo a) s a v else xbufStore s a v

/-- The bytes of a window store, lowest first (20_memory.md rule R72). -/
def hostByteStores (s : State) (a : Nat) : List Byte → State
  | [] => s
  | b :: bs => hostByteStores (hostByteStore s a b) (a + 1) bs

/-- The window word at XBUF offset `a` as the host loads it (R72, R93). -/
def hostWindowWord (s : State) (a : Nat) : Word32 :=
  hostByte s (a + 3) ++ hostByte s (a + 2) ++ hostByte s (a + 1) ++ hostByte s a

/-- A host load of the window word at XBUF offset `a` races (R93). -/
def loadRaces (s : State) (a : Nat) : Bool := (List.range 4).any fun i => hostOthers s (a + i) != []

/-- A host store to the window word at XBUF offset `a` races (R93). -/
def storeRaces (s : State) (a : Nat) : Bool := (List.range 4).any fun i => (byteUse s (a + i)).isSome

/-- Counts a racing host access. -/
def countRace (races : Bool) (s : State) : State := if races then { s with raceNo := s.raceNo + 1 } else s

/-- A 32-bit host load at an aligned offset (R45, R46, R72, R93). -/
def hostLoad (off : Nat) (s : State) : Host.Outcome State Fault Refusal :=
  if inWindow s off then
    .next (countRace (loadRaces s (off - 0x1000)) { s with hostData := hostWindowWord s (off - 0x1000) })
  else if isInfoOffset off && !s.stat.infoValid then .fault (.deviceInfoUnset off)
  else .next { s with hostData := readReg s off }

/-- A 32-bit host store at an aligned offset (R22, R37, R45, R72, R93). -/
def hostStore (off : Nat) (v : Word32) (s : State) : Host.Outcome State Fault Refusal :=
  if inWindow s off then
    .next (countRace (storeRaces s (off - 0x1000)) (hostByteStores s (off - 0x1000) (le32 v)))
  else .next (writeReg off v s)

/-- One host access; a width other than 32 bits or a misaligned offset is refused (R84, U2). -/
def hostTurn (a : HostAccess) (s : State) : Host.Outcome State Fault Refusal :=
  if a.width = 4 ∧ hostOffset s a.addr % 4 = 0 then
    if a.store then hostStore (hostOffset s a.addr) a.data s else hostLoad (hostOffset s a.addr) s
  else .refused (.hostAccess (hostOffset s a.addr) a.width)

end Sys2Proof.Machine
end

