-- ==== Sys2Proof/Machine/HostSide.lean ====
section
/-! DEFINITION. The Host agent (00_scope.md rule R8): the pseudo-instructions of 30_encoding.md rules R125 to R128 as
programs of host instructions, and the host's turn on the next of them (log 24). -/

namespace Sys2Proof.Machine

/-! ### Accesses -/

/-- `store32(ENGINE_BASE + off, v)`. -/
def store32 (p : Params) (off : Nat) (v : Word32) : HostAccess :=
  { store := true, addr := p.engineBase + BitVec.ofNat 32 off, width := 4, data := v }

/-- `load32(ENGINE_BASE + off)`. -/
def load32 (p : Params) (off : Nat) : HostAccess :=
  { store := false, addr := p.engineBase + BitVec.ofNat 32 off, width := 4, data := 0 }

/-- The poll of STATUS in the loop of `ISSUE` and `WAITDONE` (R127, R128). -/
def pollStatus (p : Params) : HostAccess := load32 p 0x004

/-- The load of ERR_CODE that ends `ISSUE` (R127). -/
def loadErrCode (p : Params) : HostAccess := load32 p 0x02C

/-! ### The host's turn -/

/-- The host has seen BUSY = 0 in the word its last load returned (R127). -/
def sawDone (s : State) : Bool := !s.hostData.getLsbD 0

/-- The word `w` of the window at XBUF offset `word`, with the bytes `bs` meant for `off` laid over it (R128). -/
def mergedWord (w : Word32) (word off : Nat) (bs : List Byte) : Word32 :=
  let byte := fun i =>
    if off ≤ word + i ∧ word + i < off + bs.length then bs.getD (word + i - off) 0 else w.extractLsb' (8 * i) 8
  byte 3 ++ byte 2 ++ byte 1 ++ byte 0

/-- Of the word `w` of the window at XBUF offset `word`, the bytes among the `n` at `off`, lowest first (R128). -/
def keptBytes (w : Word32) (word off n : Nat) : List Byte :=
  ((List.range 4).filter fun i => off ≤ word + i && word + i < off + n).map fun i => w.extractLsb' (8 * i) 8

/-- One instruction of the host's program, taken from its front: `WAITDONE` is taken again until BUSY reads 0 (R127). -/
def runHostOp (op : HostOp) (s : State) : Host.Outcome State Fault Refusal :=
  match op with
  | .access a => hostTurn a s
  | .waitDone =>
    match hostTurn (pollStatus s.params) s with
    | .next t => .next (if sawDone t then t else { t with hostProg := .waitDone :: t.hostProg })
    | .fault r => .fault r
    | .refused r => .refused r
  | .merge word off bs => hostTurn (store32 s.params (0x1000 + word) (mergedWord s.hostData word off bs)) s
  | .keep word off n =>
    match hostTurn (load32 s.params (0x1000 + word)) s with
    | .next t => .next { t with hostBytes := t.hostBytes ++ keptBytes t.hostData word off n }
    | .fault r => .fault r
    | .refused r => .refused r

/-- A turn of the Host agent: the next instruction of its program, if there is one. -/
def hostStep (s : State) : Host.Outcome State Fault Refusal :=
  match s.hostProg with
  | [] => .next s
  | op :: rest => runHostOp op { s with hostProg := rest }

/-! ### The pseudo-instructions -/

/-- One line of host assembly (R125): the instruction and the operands its format sets. -/
structure HostLine where
  instr : Instr
  arg0 : Option Word16
  buf : Option Word32
  n : Option Word32
  area : Option (Word16 × Word16 × Word16 × Word16)
  deriving DecidableEq, Repr

/-- `SETAREA x, y, w, h` (R128). -/
def setArea (p : Params) (x y w h : Word16) : List HostOp :=
  [.access (store32 p 0x018 (x.setWidth 32)), .access (store32 p 0x01C (y.setWidth 32)),
   .access (store32 p 0x020 (w.setWidth 32)), .access (store32 p 0x024 (h.setWidth 32))]

/-- The operand stores of a line (R126, R127). -/
def operandStores (p : Params) (l : HostLine) : List HostOp :=
  (match l.area with
   | some (x, y, w, h) => setArea p x y w h
   | none => []) ++
  (l.buf.toList.map fun v => .access (store32 p 0x010 v)) ++
  (l.n.toList.map fun v => .access (store32 p 0x014 v)) ++
  (l.arg0.toList.map fun v => .access (store32 p 0x00C (v.setWidth 32)))

/-- The OPW a line assembles to (R126); `none` for an instruction that has none. -/
def assembleOpw (l : HostLine) : Option Word32 :=
  match encode l.instr with
  | .opw w => some w
  | .wire _ => none

/-- `ISSUE line` (R127): the operand stores, OPW, GO, the poll loop, and the load of ERR_CODE. -/
def issue (p : Params) (l : HostLine) : Option (List HostOp) :=
  (assembleOpw l).map fun w =>
    operandStores p l ++
      [.access (store32 p 0x008 w), .access (store32 p 0x000 1), .waitDone, .access (loadErrCode p)]

/-- The XBUF offsets of the window words that hold the `n` bytes at `off`. -/
def windowWords (off n : Nat) : List Nat :=
  if n = 0 then [] else (List.range ((off + n - 1) / 4 - off / 4 + 1)).map fun k => 4 * (off / 4 + k)

/-- `XPUT` on one window word (R128): a store, or for a partly covered word a load and a merged store. -/
def xputWord (p : Params) (off : Nat) (bs : List Byte) (word : Nat) : List HostOp :=
  if off ≤ word ∧ word + 4 ≤ off + bs.length then [.access (store32 p (0x1000 + word) (mergedWord 0 word off bs))]
  else [.access (load32 p (0x1000 + word)), .merge word off bs]

/-- `XPUT off, b0, b1, ...` (R128). -/
def xput (p : Params) (off : Nat) (bs : List Byte) : List HostOp :=
  (windowWords off bs.length).flatMap (xputWord p off bs)

/-- `XGET off, n` (R128): the bytes go to `hostBytes`. -/
def xget (off n : Nat) : List HostOp := (windowWords off n).map fun word => .keep word off n

end Sys2Proof.Machine
end

