-- ==== Sys2Proof/Machine/Engine.lean ====
section
/-! DEFINITION. The agents' turns: the Engine fetches its instruction (the OPW latch at Decode, 20_memory.md rule R95;
the bytes in hand at the framer), decodes and runs it; the Host, the Clock and engine reset take theirs (00_scope.md rule
R8; log 4). The end of a run (70_reset_and_hazards.md rule R328). -/

namespace Sys2Proof.Machine

/-- The reason code of an OPW the decoder rejects (30_encoding.md rule R105). -/
def illegalReason : DecodeError → Nat
  | .undefinedOp => 1
  | .fieldConstraint => 2
  | .notAFrame => 2

/-- The Engine's turn. At Decode an undecodable OPW ends the operation with ILLEGAL_OP in this very micro-step (R105,
R109). An idle or held Engine has no step to take. -/
def engineStep (s : State) : Host.Outcome State Fault Refusal :=
  match s.seq with
  | .idle => .next s
  | .decode =>
    match decode (.opw s.lat.opw) with
    | .ok i => exec i s
    | .error e => .next (raise (.illegalOp s.lat.opw (illegalReason e)) s)
  | .wire bytes =>
    match decode (.wire bytes) with
    | .ok i => exec i s
    | .error _ => .refused .unknownWireWord
  | .run op _ => if held s then .next s else exec op s

/-- Whose turn it is when the agenda is empty: the reference schedule of 95_test_vectors.md. The Host moves while the
Engine is idle, the Clock while a Delay holds it, else the Engine (log 4). -/
def scheduled (s : State) : Turn :=
  if s.seq = .idle then .program else if held s then .clock else .engine

/-- One agent's turn. -/
def takeTurn (t : Turn) (s : State) : Host.Outcome State Fault Refusal :=
  match t with
  | .engineReset => .next (engineReset s)
  | .clock => .next (tick s)
  | .program => hostStep s
  | .host a => hostTurn a s
  | .engine => engineStep s

/-- The turn the agenda brings, or the reference schedule. Parameters outside their constraints are refused (U12). -/
def turn (s : State) : Host.Outcome State Fault Refusal :=
  if paramsOk s.params then
    match s.agenda with
    | [] => takeTurn (scheduled s) s
    | t :: rest => takeTurn t { s with agenda := rest }
  else .refused .badConfiguration

/-! ### The end of a run (R328) -/

/-- The turn is an access of the host. -/
def isHostAccess : Turn → Bool
  | .host _ => true
  | .engine => false
  | .clock => false
  | .program => false
  | .engineReset => false

/-- The run of a host program has ended: the host has executed its last instruction, and BUSY = 0. -/
def runEnded (s : State) : Bool := s.hostProg.isEmpty && !s.agenda.any isHostAccess && !s.stat.busy

/-- What is observed of a run's end: the host registers, the device-information file among them, STATUS, XBUF and the
interface trace. -/
structure EndState where
  regs : HostRegs
  info : InfoFile
  status : Word32
  xbuf : List Host.Cell
  trace : List Event
  deriving DecidableEq, Repr

/-- The observable end state of a run; none while it has not ended. -/
def endState (s : State) : Option EndState :=
  if runEnded s then some ⟨s.regs, s.info, statusWord s, s.xbuf, s.trace⟩ else none

/-! ### Placing a word -/

/-- Places a table word where the next turn fetches: a 32-bit OPW is latched by an accepted GO; a 16-bit wire word is
handed to the framer. The agenda is cleared, so that the Engine moves next (log 13). -/
def placeWord (nbits w : Nat) (s : State) : State :=
  if nbits = 16 then
    { acceptGo s with seq := .wire (wireLayout (BitVec.ofNat 16 w)), agenda := [] }
  else
    { acceptGo { s with regs := { s.regs with opw := BitVec.ofNat 32 w } } with agenda := [] }

end Sys2Proof.Machine
end

