-- ==== Sys2Proof/Machine/Step.lean ====
section
/-! DEFINITION. One step of the machine, and where an instruction is placed for it. -/

namespace Sys2Proof.Machine

/-- One step: one agent's turn. -/
def step (s : State) : Host.Outcome State Fault Refusal := turn s

/-- `s` with the instruction word `w` of `nbits` bits where the next step fetches. -/
def State.withFetchWord (s : State) (nbits w : Nat) : State := placeWord nbits w s

end Sys2Proof.Machine
end

