-- ==== Sys2Proof/WellFormed.lean ====
section
/-! DEFINITION. Which instructions are well formed: every operand holds a value its encoding admits
(30_encoding.md rules R102, R105 to R108) and every frame a length the wire admits (R119, R120). -/

namespace Sys2Proof

/-- The well-formedness check, for the engine's parameters `p`. -/
def Instr.wellFormed (p : Params) (i : Instr) : Bool := (operandDefect i).isNone && frameLengthOk p i

end Sys2Proof
end

