-- ==== Sys2Proof/Safety.lean ====
section
/-! DEFINITION. What counts as a safe run, and the terms the statements use: the invariant of the engine, the gating of
every exchange by HRDY, what a run of answered exchanges leaves, and R102's constraint column. -/

namespace Sys2Proof.Machine

/-! ### Stops -/

/-- The outcome is a next state. -/
def answersNext (o : Host.Outcome State Fault Refusal) : Prop := ∃ t, o = .next t

/-! ### The invariant -/

/-- The micro-steps stand inside an open `SendDataBatch`: after any waiting comes a chunk or the close of the scope. -/
def inBatch : List Micro → Bool
  | .xferChunk _ _ :: _ => true
  | .closeBatch :: _ => true
  | .waitReady :: rest => inBatch rest
  | .resample :: rest => inBatch rest
  | .delay _ :: rest => inBatch rest
  | .hold _ :: rest => inBatch rest
  | _ => false

/-- The micro-steps stand inside a reset pulse: after the hold RESET_N goes high. -/
def inPulse : List Micro → Bool
  | .pulseHigh :: _ => true
  | .delay _ :: rest => inPulse rest
  | .hold _ :: rest => inPulse rest
  | _ => false

/-- No later phase of INIT is to be entered. -/
def noLaterPhase (todo : List Micro) : Bool :=
  todo.all fun m =>
    match m with
    | .enterPhase p => p == .hardReset
    | _ => true

/-- The micro-steps still to run; none when no operation runs. -/
def todoOf : Seq → List Micro
  | .run _ todo => todo
  | .idle => []
  | .decode => []
  | .wire _ => []

/-- A micro-step that can end the operation with an error, or brings one along that can. -/
def canFail : Micro → Bool
  | .waitReady => true
  | .resample => true
  | .xferCmd _ => true
  | .xferData _ => true
  | .openBatch _ => true
  | .xferChunk _ _ => true
  | .closeBatch => false
  | .xferRead _ => true
  | .pulseLow => false
  | .pulseHigh => false
  | .delay _ => false
  | .hold _ => false
  | .clearInfoValid => false
  | .enterPhase _ => false
  | .parseDevInfo => false
  | .vcomSync => true
  | .setVcomCfg _ => false
  | .commit => false
  | .setResult => false
  | .storeWords _ => false
  | .startPoll => false
  | .lutTest => true

/-- The phase INIT is in while these micro-steps are still to run: the one before the next entry, or the last. -/
def phaseOf : List Micro → BitVec 4
  | [] => 6
  | .enterPhase p :: _ => phaseNumber p - 1
  | _ :: rest => phaseOf rest

/-- The entry of a phase, if there is one, comes last. -/
def entersLast : List Micro → Bool
  | [] => true
  | .enterPhase _ :: rest => rest.isEmpty
  | _ :: rest => entersLast rest

/-- INIT past its start: INFO_VALID = 0, INIT_PHASE is the phase it is in, and it can fail only from phase 3 on
(42_device.md rules R202, R203, R211). -/
structure InitRuns (todo : List Micro) (s : State) : Prop where
  unset : s.stat.infoValid = false
  phase : s.stat.initPhase = phaseOf todo
  enters : entersLast todo = true
  fails : todo.any canFail = true → 3 ≤ s.stat.initPhase.toNat

/-- The invariant of the engine, clause by clause. -/
structure Inv (s : State) : Prop where
  /-- XBUF has its canonical form (20_memory.md rule R72). -/
  xbufWf : Memory.wf s.xbuf
  /-- XBUF lists only bytes that exist (R72). -/
  xbufWithin : Memory.within s.params.xbufBytes s.xbuf
  /-- Only while an operation runs is a byte of XBUF raced on (20_memory.md rule R93). -/
  raceScope : s.stat.busy = false → s.xbufRace = []
  /-- BUSY is 1 exactly while the sequencer is not Idle (10_state.md rules R24, R34). -/
  busyIff : s.stat.busy = true ↔ s.seq ≠ .idle
  /-- DONE is 1 only after the operation has ended (R25). -/
  doneIdle : s.stat.done = true → s.stat.busy = false
  /-- The speed is DATA only inside a `SendDataBatch` (R42, 40_framer.md rule R155). -/
  speedScope : s.speed = .data → inBatch (todoOf s.seq) = true
  /-- CS_N is inactive between exchanges (40_framer.md rule R145). -/
  csHigh : s.stat.csN = true
  /-- RESET_N is low only inside a reset pulse (40_framer.md rule R163). -/
  resetScope : s.stat.resetN = false → inPulse (todoOf s.seq) = true
  /-- ERR_CODE values 10 to 255 are never written (60_exceptions.md rule R281). -/
  errCodeRange : s.regs.errCode.toNat ≤ 9
  /-- The error registers are clear while an operation runs (10_state.md rules R22, R32). -/
  errClear : s.stat.busy = true →
    s.regs.errCode = 0 ∧ s.regs.errInfo0 = 0 ∧ s.regs.errInfo1 = 0 ∧ s.regs.errInfo2 = 0 ∧ s.regs.errInfo3 = 0
  /-- An error code stands only after an operation has ended (R25, R32). -/
  errDone : s.regs.errCode ≠ 0 → s.stat.done = true
  /-- INIT_PHASE values 8 to 15 are never written (R29). -/
  phaseRange : s.stat.initPhase.toNat ≤ 7
  /-- Initialized means that the last INIT completed (R26, R29). -/
  infoPhase : s.stat.infoValid = true → s.stat.initPhase = 7 ∧ noLaterPhase (todoOf s.seq) = true
  /-- While INIT runs, up to its commit, INFO_VALID = 0 and INIT_PHASE is the phase it is in (R26, R29, 42_device.md rules
  R203, R211). -/
  initRuns : ∀ todo, s.seq = .run .init todo → todo = [] ∨ todo = [.enterPhase .hardReset] ∨ InitRuns todo s
  /-- FW_LEN and LUT_LEN are 0 to 16 (R39), in the staging copy too (R40). -/
  lengths : s.info.fwLen.toNat ≤ 16 ∧ s.info.lutLen.toNat ≤ 16 ∧ s.stg.fwLen.toNat ≤ 16 ∧ s.stg.lutLen.toNat ≤ 16
  /-- No timestamp lies in the future (R44). -/
  times : s.tWait ≤ s.now ∧ s.tOp ≤ s.now ∧ s.tDelay ≤ s.now

/-! ### The gating of exchanges -/

/-- Every exchange of a trace comes directly after a ready sample, Clock steps apart; `ready` says whether one has just
been taken (40_framer.md rules R140, R150 to R156). -/
def gatedFrom : Bool → List Event → Bool
  | _, [] => true
  | _, .sample v :: es => gatedFrom v es
  | ready, .xfer _ _ _ :: es => ready && gatedFrom false es
  | ready, .xferErr _ _ _ :: es => ready && gatedFrom false es
  | ready, .tick :: es => gatedFrom ready es
  | _, .sampleErr _ :: es => gatedFrom false es
  | _, .lineResetN _ :: es => gatedFrom false es

/-- Whether a trace ends in a ready sample, Clock steps apart. -/
def readyAfter : Bool → List Event → Bool
  | ready, [] => ready
  | _, .sample v :: es => readyAfter v es
  | ready, .tick :: es => readyAfter ready es
  | _, .xfer _ _ _ :: es => readyAfter false es
  | _, .xferErr _ _ _ :: es => readyAfter false es
  | _, .sampleErr _ :: es => readyAfter false es
  | _, .lineResetN _ :: es => readyAfter false es

/-- Every exchange among the micro-steps to come stands directly behind a wait of its own. -/
def todoGated : Bool → List Micro → Bool
  | _, [] => true
  | _, .waitReady :: rest => todoGated true rest
  | _, .resample :: rest => todoGated true rest
  | ready, .xferCmd _ :: rest => ready && todoGated false rest
  | ready, .xferData _ :: rest => ready && todoGated false rest
  | ready, .xferChunk _ _ :: rest => ready && todoGated false rest
  | ready, .xferRead _ :: rest => ready && todoGated false rest
  | _, _ :: rest => todoGated false rest

/-- The gating invariant: of the trace, and of what is still to run. -/
def Gated (s : State) : Prop :=
  gatedFrom false s.trace = true ∧ todoGated (readyAfter false s.trace) (todoOf s.seq) = true

/-- A completed exchange in the trace. -/
def isXfer : Event → Bool
  | .xfer _ _ _ => true
  | _ => false

/-! ### Answered exchanges -/

/-- The next samples read ready and the next exchanges complete with these responses, one each. -/
def Answered (s : State) (rs : List (List Byte)) : Prop :=
  ∀ k, (h : k < rs.length) → hrdyAt s k = .level true ∧ busAt s k = .ok rs[k]

/-- A frame sent at a speed, with its response. -/
structure Answer where
  speed : Speed
  tx : List Byte
  rx : List Byte
  deriving DecidableEq, Repr

/-- The state after one wait whose first sample reads ready and one completed exchange (40_framer.md rules R140, R145):
the trace, XCOUNT, HRDY_LAST, `t_wait` and the oracle's counters; nothing else changes. -/
def afterExchange (s : State) (a : Answer) : State :=
  { s with
    tWait := s.now
    hrdyNo := s.hrdyNo + 1
    busNo := s.busNo + 1
    stat := { s.stat with hrdyLast := true, csN := true }
    regs := { s.regs with xcount := s.regs.xcount + 1 }
    trace := s.trace ++ [.sample true, .xfer a.speed a.tx (a.rx.take a.tx.length)] }

/-- The state after such exchanges in order. -/
def afterExchanges (s : State) (as : List Answer) : State := as.foldl afterExchange s

/-- Frames at CMD speed with their responses. -/
def atCmd (frames : List (List Byte)) (rs : List (List Byte)) : List Answer :=
  List.zipWith (fun tx rx => ⟨.cmd, tx, rx⟩) frames rs

/-- The chunks of a word list for chunk size `c` (40_framer.md rule R153): chunk `j` is `ws[j·c .. min((j+1)·c, n) - 1]`. -/
def chunkList (c : Nat) (ws : List Word16) : List (List Word16) :=
  (List.range (ceilDiv ws.length c)).map fun j => (ws.drop (j * c)).take c

/-- The exchanges of `SendDataBatch(ws)` with their responses, all at DATA speed (R146, R152). -/
def batchAnswers (c : Nat) (ws : List Word16) (rs : List (List Byte)) : List Answer :=
  List.zipWith (fun chunk rx => ⟨.data, chunkFrame chunk, rx⟩) (chunkList c ws) rs

/-- The frames of `RegRead(a)` (R121, R160). -/
def regReadFrames (a : Word16) : List (List Byte) := [cmdFrame 0x0010, dataFrame a, readFrame 1]

/-- The frames of `RegWrite(a, v)` (R121, R161). -/
def regWriteFrames (a v : Word16) : List (List Byte) := [cmdFrame 0x0011, dataFrame a, dataFrame v]

/-- The frames of a VCOM read (R121, 42_device.md rule R212). -/
def vcomReadFrames : List (List Byte) := [cmdFrame 0x0039, dataFrame 0, readFrame 1]

/-- The frames of a VCOM write (R121, R214). -/
def vcomWriteFrames (v : Word16) : List (List Byte) := [cmdFrame 0x0039, dataFrame 1, dataFrame v]

/-- The frames that program an image-buffer address: high half to 0x020A, then low half to 0x0208 (R207, R251). -/
def addrFrames (addr : Word32) : List (List Byte) :=
  regWriteFrames 0x020A (hi16 addr) ++ regWriteFrames 0x0208 (lo16 addr)

/-- The exchanges of `LoadStart(fl, a)` with their eight responses (43_display.md rule R251). -/
def loadStartAnswers (addr : Word32) (args : List Word16) (rs : List (List Byte)) : List Answer :=
  atCmd (addrFrames addr ++ [cmdFrame 0x0021]) (rs.take 7) ++ [⟨.data, chunkFrame args, rs.getD 7 []⟩]

/-- The exchanges of an image load (R253, R254, R257): the start, the pixel words `ws`, the end. -/
def imageLoadAnswers (c : Nat) (addr : Word32) (args ws : List Word16) (rs : List (List Byte)) : List Answer :=
  loadStartAnswers addr args (rs.take 8) ++
    batchAnswers c ws ((rs.drop 8).take (ceilDiv ws.length c)) ++
    atCmd [cmdFrame 0x0022] (rs.drop (8 + ceilDiv ws.length c))

/-- The wire words a host operation sends as its one command frame (R172, R173, R215 to R217). -/
def commandOf : Instr → Option Word16
  | .wrCmd imm => (decodeCmd imm).map encodeCmd
  | .wrUcmd imm => (decodeUcmd imm).map encodeUcmd
  | .wrData _ => none
  | .wrDataBatch => none
  | .rdData => none
  | .rdDataBatch => none
  | .wrCmdArgs _ => none
  | .wrUcmdArgs _ => none
  | .rdReg _ => none
  | .wrReg _ => none
  | .reset => none
  | .init => none
  | .rdVcom => none
  | .wrVcom _ => none
  | .run => some 0x0001
  | .standby => some 0x0002
  | .sleep => some 0x0003
  | .waitDisplayReady => none
  | .clear _ => none
  | .fillArea _ => none
  | .refresh _ => none
  | .refreshArea _ => none
  | .loadImage _ => none
  | .wireSysRun => none
  | .wireStandby => none
  | .wireSleep => none
  | .wireRegRead => none
  | .wireRegWrite => none
  | .wireMemBurstReadTrigger => none
  | .wireMemBurstReadStart => none
  | .wireMemBurstWrite => none
  | .wireMemBurstEnd => none
  | .wireLoadImage => none
  | .wireLoadImageArea => none
  | .wireLoadImageEnd => none
  | .wireDisplayArea => none
  | .wireDisplayBufArea => none
  | .wireVcom => none
  | .wireGetDevInfo => none
  | .preWriteCommand _ => none
  | .preWriteData _ => none
  | .preReadData _ => none

/-- The command word of an operation that sends a command with the words of XBUF behind it (R178, R179). -/
def argsCommandOf : Instr → Option Word16
  | .wrCmd _ => none
  | .wrUcmd _ => none
  | .wrData _ => none
  | .wrDataBatch => none
  | .rdData => none
  | .rdDataBatch => none
  | .wrCmdArgs imm => (decodeCmd imm).map encodeCmd
  | .wrUcmdArgs imm => (decodeUcmd imm).map encodeUcmd
  | .rdReg _ => none
  | .wrReg _ => none
  | .reset => none
  | .init => none
  | .rdVcom => none
  | .wrVcom _ => none
  | .run => none
  | .standby => none
  | .sleep => none
  | .waitDisplayReady => none
  | .clear _ => none
  | .fillArea _ => none
  | .refresh _ => none
  | .refreshArea _ => none
  | .loadImage _ => none
  | .wireSysRun => none
  | .wireStandby => none
  | .wireSleep => none
  | .wireRegRead => none
  | .wireRegWrite => none
  | .wireMemBurstReadTrigger => none
  | .wireMemBurstReadStart => none
  | .wireMemBurstWrite => none
  | .wireMemBurstEnd => none
  | .wireLoadImage => none
  | .wireLoadImageArea => none
  | .wireLoadImageEnd => none
  | .wireDisplayArea => none
  | .wireDisplayBufArea => none
  | .wireVcom => none
  | .wireGetDevInfo => none
  | .preWriteCommand _ => none
  | .preWriteData _ => none
  | .preReadData _ => none

/-- The command word of a framer instruction that sends one command frame (R112, R113, R117). -/
def wireOpcode : Instr → Option Word16
  | .wrCmd _ => none
  | .wrUcmd _ => none
  | .wrData _ => none
  | .wrDataBatch => none
  | .rdData => none
  | .rdDataBatch => none
  | .wrCmdArgs _ => none
  | .wrUcmdArgs _ => none
  | .rdReg _ => none
  | .wrReg _ => none
  | .reset => none
  | .init => none
  | .rdVcom => none
  | .wrVcom _ => none
  | .run => none
  | .standby => none
  | .sleep => none
  | .waitDisplayReady => none
  | .clear _ => none
  | .fillArea _ => none
  | .refresh _ => none
  | .refreshArea _ => none
  | .loadImage _ => none
  | .wireSysRun => some 0x0001
  | .wireStandby => some 0x0002
  | .wireSleep => some 0x0003
  | .wireRegRead => some 0x0010
  | .wireRegWrite => some 0x0011
  | .wireMemBurstReadTrigger => some 0x0012
  | .wireMemBurstReadStart => some 0x0013
  | .wireMemBurstWrite => some 0x0014
  | .wireMemBurstEnd => some 0x0015
  | .wireLoadImage => some 0x0020
  | .wireLoadImageArea => some 0x0021
  | .wireLoadImageEnd => some 0x0022
  | .wireDisplayArea => some 0x0034
  | .wireDisplayBufArea => some 0x0037
  | .wireVcom => some 0x0039
  | .wireGetDevInfo => some 0x0302
  | .preWriteCommand op => some op
  | .preWriteData _ => none
  | .preReadData _ => none

/-! ### R102's constraint column -/

/-- `FormatOK` (30_encoding.md rules R102, R105): the whole constraint of a format, values included. -/
def formatOk (f : Format) (w : Word32) : Bool :=
  rsvField w == 0 &&
  (match f with
   | .N | .L => fmtField w == 0 && immField w == 0
   | .I | .IL | .IR => fmtField w == 0
   | .B | .AB => fmtField w == 0 && decide ((immField w).toNat < 256)
   | .M | .AM => fmtField w == 0 && decide ((immField w).toNat ≤ 4)
   | .AF => [2, 3, 4, 8].contains (fmtField w).toNat && immField w == 0)

/-- The same state with the running operation under another name. -/
def relabel (op : Instr) (s : State) : State :=
  { s with
    seq :=
      match s.seq with
      | .run _ todo => .run op todo
      | .idle => .idle
      | .decode => .decode
      | .wire bytes => .wire bytes }

/-! ### What an operation may write -/

/-- No operation is running: an instruction given now starts at its beginning (10_state.md rule R34: Idle, Decode, or
the framer's `wire`). -/
def AtStart (s : State) : Prop := ∀ op todo, s.seq ≠ .run op todo

/-- RD_DATA, RD_REG and RD_VCOM write RESULT (10_state.md rule R31). -/
def writesResult (i : Instr) : Bool :=
  i == .rdData || i == .rdVcom ||
    (match i with
     | .rdReg _ => true
     | _ => false)

/-- WR_VCOM and INIT write VCOM_CFG (10_state.md rule R37). -/
def writesVcomCfg (i : Instr) : Bool :=
  i == .init ||
    (match i with
     | .wrVcom _ => true
     | _ => false)

/-- The micro-steps an operation may hold, by what they write: the XBUF store is RD_DATA_BATCH's (20_memory.md rule
R72), RESULT and VCOM_CFG have their writers, and INIT's bookkeeping is INIT's alone (42_device.md rule R200). -/
def mayHold (i : Instr) (m : Micro) : Bool :=
  match m with
  | .storeWords _ => i == .rdDataBatch
  | .setResult => writesResult i
  | .setVcomCfg _ => writesVcomCfg i
  | .enterPhase _ => i == .init
  | .parseDevInfo => i == .init
  | .vcomSync => i == .init
  | .commit => i == .init
  | .clearInfoValid => i == .reset
  | .waitReady => true
  | .resample => true
  | .xferCmd _ => true
  | .xferData _ => true
  | .openBatch _ => true
  | .xferChunk _ _ => true
  | .closeBatch => true
  | .xferRead _ => true
  | .pulseLow => true
  | .pulseHigh => true
  | .delay _ => true
  | .hold _ => true
  | .startPoll => true
  | .lutTest => true

/-- A running operation holds only micro-steps it may hold. -/
def Owned (s : State) : Prop := ∀ op todo, s.seq = .run op todo → todo.all (mayHold op) = true

/-- A micro-step that writes a result of the operation: RESULT, XBUF, VCOM_CFG, the device-information file. None of
them can fail. -/
def isWrite : Micro → Bool
  | .waitReady => false
  | .resample => false
  | .xferCmd _ => false
  | .xferData _ => false
  | .openBatch _ => false
  | .xferChunk _ _ => false
  | .closeBatch => false
  | .xferRead _ => false
  | .pulseLow => false
  | .pulseHigh => false
  | .delay _ => false
  | .hold _ => false
  | .clearInfoValid => false
  | .enterPhase _ => false
  | .parseDevInfo => false
  | .vcomSync => false
  | .setVcomCfg _ => true
  | .commit => true
  | .setResult => true
  | .storeWords _ => true
  | .startPoll => false
  | .lutTest => false

/-- The results are written last: after the first such write come only such writes (60_exceptions.md rule R284). An
entry of an INIT phase brings its own writes along, so it stands last; the VCOM comparison may bring one. -/
def writesLast : List Micro → Bool
  | [] => true
  | m :: rest =>
    match m with
    | .waitReady => writesLast rest
    | .resample => writesLast rest
    | .xferCmd _ => writesLast rest
    | .xferData _ => writesLast rest
    | .openBatch _ => writesLast rest
    | .xferChunk _ _ => writesLast rest
    | .closeBatch => writesLast rest
    | .xferRead _ => writesLast rest
    | .pulseLow => writesLast rest
    | .pulseHigh => writesLast rest
    | .delay _ => writesLast rest
    | .hold _ => writesLast rest
    | .clearInfoValid => writesLast rest
    | .enterPhase _ => rest.isEmpty
    | .parseDevInfo => writesLast rest
    | .vcomSync => rest.all isWrite
    | .setVcomCfg _ => rest.all isWrite
    | .commit => rest.all isWrite
    | .setResult => rest.all isWrite
    | .storeWords _ => rest.all isWrite
    | .startPoll => writesLast rest
    | .lutTest => writesLast rest

/-- Instruction `i` is the one that runs, or nothing runs yet. -/
def RunsOrStarts (i : Instr) (s : State) : Prop := ∀ op todo, s.seq = .run op todo → op = i

/-- Other values in the registers a host may write while an operation runs (10_state.md rule R24). -/
def withOperands (r : HostRegs) (s : State) : State :=
  { s with
    regs :=
      { s.regs with
        opw := r.opw
        arg0 := r.arg0
        bufoff := r.bufoff
        len := r.len
        areaX := r.areaX
        areaY := r.areaY
        areaW := r.areaW
        areaH := r.areaH
        timeoutMs := r.timeoutMs
        drdyTimeoutMs := r.drdyTimeoutMs } }

/-- An outcome with its next state changed. -/
def mapNext (f : State → State) : Host.Outcome State Fault Refusal → Host.Outcome State Fault Refusal
  | .next t => .next (f t)
  | .fault r => .fault r
  | .refused r => .refused r

/-- The reason an operation word is illegal (30_encoding.md rule R105), check by check; `none` when it is legal. -/
def illegalReasonOf (w : Word32) : Option Nat :=
  match formatOfOp (opField w) with
  | none => some 1
  | some f =>
    if formatOk f w = false then some 2
    else if (opField w = 0x01 ∨ opField w = 0x07) ∧ decodeCmd (immField w) = none then some 3
    else if (opField w = 0x02 ∨ opField w = 0x08) ∧ decodeUcmd (immField w) = none then some 3
    else none

/-- An instruction given now starts, at CMD speed; the next `rs.length` waits and exchanges are answered with `rs`; the
Engine's turn holds `steps` micro-steps. -/
def Served (s : State) (rs : List (List Byte)) (steps : Nat) : Prop :=
  AtStart s ∧ s.speed = .cmd ∧ steps ≤ s.burst ∧ Answered s rs

/-- The words `[w0, w1, ...]` at an XBUF offset (20_memory.md rule R73). -/
def xWords (s : State) (b n : Nat) : List Word16 := (List.range n).map (xWord s b)

/-- The single word of a response (40_framer.md rule R156). -/
def wordOf (rx : List Byte) : Word16 := word16 (rx.getD 4 0) (rx.getD 5 0)

/-! ### The Host's path to the engine -/

/-- A host access that reaches the engine: 32 bits at a multiple of 4, at offset `off` (20_memory.md rules R71, R84). -/
def Reaches32 (a : HostAccess) (off : Nat) (s : State) : Prop := a.width = 4 ∧ hostOffset s a.addr = off ∧ off % 4 = 0

/-- The agenda's next turn is this access of the host, and `u` is the state it leaves. -/
def HostMoves (a : HostAccess) (s u : State) : Prop := ∃ rest, s.agenda = .host a :: rest ∧ u = { s with agenda := rest }

/-- The Host's program is free to run to its end under the reference schedule: the Engine is idle, and no agenda. -/
def HostRuns (s : State) : Prop := paramsOk s.params = true ∧ s.agenda = [] ∧ s.seq = .idle

/-! ### The device-information file, byte by byte -/

/-- Byte `n` of the version string whose first word is word `first` of the identification response `rx`: each word is sent
high byte first, and its low byte is the earlier byte of the string (20_memory.md rules R79, R81). -/
def versionByte (rx : List Byte) (first n : Nat) : Byte := rx.getD (4 + 2 * (first + n / 2) + (1 - n % 2)) 0

/-- `len` is the index of the first zero byte of the 16 bytes `byte`, or 16 (42_device.md rule R205). -/
def CutsAtZero (byte : Nat → Byte) (len : Nat) : Prop :=
  len ≤ 16 ∧ (∀ j, j < len → byte j ≠ 0) ∧ (len < 16 → byte len = 0)

/-- What a committed identification response `rx` leaves for the host to read (10_state.md rule R39, 42_device.md rules
R205, R210): the panel size, the image-buffer address, the lengths and the sixteen bytes of either version string, byte
`4k+j` in bits `[8j+7:8j]` of register `k`, INIT_PHASE 7 and INFO_VALID 1. -/
structure Committed (rx : List Byte) (t : State) : Prop where
  panelW : readReg t 0x060 = (word16 (rx.getD 4 0) (rx.getD 5 0)).setWidth 32
  panelH : readReg t 0x064 = (word16 (rx.getD 6 0) (rx.getD 7 0)).setWidth 32
  address : readReg t 0x068 = word16 (rx.getD 10 0) (rx.getD 11 0) ++ word16 (rx.getD 8 0) (rx.getD 9 0)
  lengths : ∃ fw lut, CutsAtZero (versionByte rx 4) fw ∧ CutsAtZero (versionByte rx 12) lut ∧
    (readReg t 0x06C).toNat = lut * 256 + fw
  firmware : ∀ k j, k < 4 → j < 4 →
    (readReg t (0x070 + 4 * k)).extractLsb' (8 * j) 8 = versionByte rx 4 (4 * k + j)
  lut : ∀ k j, k < 4 → j < 4 →
    (readReg t (0x080 + 4 * k)).extractLsb' (8 * j) 8 = versionByte rx 12 (4 * k + j)
  phase : t.stat.initPhase = 7
  valid : t.stat.infoValid = true

/-! ### INIT, by the frames it sends -/

/-- The frames of INIT from its identification query to its VCOM read (42_device.md rules R204, R207 to R209), for
image-buffer address `addr` and packed-mode value `packed`. -/
def initFrames (addr : Word32) (packed : Word16) : List (List Byte) :=
  [cmdFrame 0x0302, readFrame 20] ++ addrFrames addr ++ regWriteFrames 0x0004 packed ++ vcomReadFrames

/-- INIT has completed its fourteen exchanges: the staging copy holds the identification, and the last read the device's
VCOM. -/
def afterInitExchanges (s : State) (rs : List (List Byte)) : State :=
  { afterExchanges s
      (atCmd (initFrames (parseDevInfo (readWords 20 (rs.getD 1 []))).addr s.params.i80cpcrPacked) rs) with
    stg := parseDevInfo (readWords 20 (rs.getD 1 []))
    words := readWords 1 (rs.getD 13 []) }

end Sys2Proof.Machine
end

