-- ==== Sys2Proof/Certificates/Slice0/Obligations.lean ====
section
/-! DEFINITION. The statements for the provers. -/

open Sys2Proof Sys2Proof.Machine

/-! ### Encoding -/

/-- Decoding the encoding of a well-formed instruction gives it back, for every instruction and every operand
(30_encoding.md rules R101, R102, R104, R117 to R120). -/
def Obligations.DecodeEncodeWellFormed : Prop :=
  ∀ (p : Params) (i : Instr), i.wellFormed p = true → decode (encode i) = .ok i

/-- The other direction: what decodes is exactly the encoding of what it decodes to, so no bit is dropped (R101, R102,
R109). -/
def Obligations.EncodeDecode : Prop :=
  ∀ (c : Code) (i : Instr), decode c = .ok i → encode i = c

/-- The wire values of the twelve built-in and the four user commands; the two sets are disjoint, and each decoder
inverts its encoder and knows only its own set (R112, R113, R115, R116). -/
def Obligations.CommandCodes : Prop :=
  allTconCmds.map encodeCmd =
    [0x0001, 0x0002, 0x0003, 0x0010, 0x0011, 0x0012, 0x0013, 0x0014, 0x0015, 0x0020, 0x0021, 0x0022] ∧
  allUserCmds.map encodeUcmd = [0x0034, 0x0037, 0x0039, 0x0302] ∧
  (∀ c, c ∈ allTconCmds) ∧ (∀ u, u ∈ allUserCmds) ∧
  (∀ c u, encodeCmd c ≠ encodeUcmd u) ∧
  (∀ c v, decodeCmd v = some c ↔ encodeCmd c = v) ∧
  (∀ u v, decodeUcmd v = some u ↔ encodeUcmd u = v) ∧
  (∀ v, decodeCmd v = none ↔ ∀ c, encodeCmd c ≠ v) ∧
  (∀ v, decodeUcmd v = none ↔ ∀ u, encodeUcmd u ≠ v)

/-- Some words of the spec's examples decode to the instructions they stand for (R126, R172, R181, R213, R254, R257,
R111, R112). -/
def Obligations.SampleWordsDecode : Prop :=
  decode (.opw 0x00010001) = .ok (.wrCmd 0x0001) ∧
  decode (.opw 0x0208000A) = .ok (.wrReg 0x0208) ∧
  decode (.opw 0x13880013) = .ok (.wrVcom 5000) ∧
  decode (.opw 0x00AA0021) = .ok (.fillArea 0xAA) ∧
  decode (.opw 0x00000424) = .ok (.loadImage 4) ∧
  decode (.opw 0x00000000) = .error .undefinedOp ∧
  decode (.wire [0x03, 0x02]) = .ok .wireGetDevInfo ∧
  decode (.wire [0x60, 0x00, 0x00, 0x34]) = .ok (.preWriteCommand 0x0034) ∧
  decode (.wire [0x00, 0x00, 0x12, 0x24]) = .ok (.preWriteData [0x1224]) ∧
  decode (.wire [0x10, 0x00, 0x00, 0x00, 0x00, 0x00]) = .ok (.preReadData 1)

/-- At Decode an illegal operation word ends the operation with ILLEGAL_OP, the word and the reason, before any device
access; a legal one runs its instruction, whose operands are then all legal (R105). -/
def Obligations.IllegalWordsEndAtDecode : Prop :=
  ∀ s : State, s.seq = .decode →
    (∀ r, illegalReasonOf s.lat.opw = some r → engineStep s = .next (raise (.illegalOp s.lat.opw r) s)) ∧
    (illegalReasonOf s.lat.opw = none →
      ∃ i, decode (.opw s.lat.opw) = .ok i ∧ operandDefect i = none ∧ engineStep s = exec i s)

/-- The length of every frame, and the bound of the bus (R124). -/
def Obligations.FrameLengths : Prop :=
  ∀ (p : Params) (w : Word16) (ws : List Word16) (n : Nat), paramsOk p = true →
    (cmdFrame w).length = 4 ∧ (dataFrame w).length = 4 ∧ 4 ≤ p.busMaxBytes ∧ (chunkFrame ws).length = 2 + 2 * ws.length ∧
    (readFrame n).length = 4 + 2 * n ∧
    (ws.length ≤ chunkWords p → (chunkFrame ws).length ≤ p.busMaxBytes) ∧
    (n ≤ rdMaxWords p → (readFrame n).length ≤ p.busMaxBytes) ∧
    21 ≤ chunkWords p ∧ 20 ≤ rdMaxWords p

/-- The load-image flags word: its three fields, the codes the engine always sends, and the words of the default codes
(R122). -/
def Obligations.FlagsWord : Prop :=
  (∀ (endian : BitVec 8) (pf rot : BitVec 4),
    (packedFlags endian pf rot).toNat = endian.toNat * 256 + pf.toNat * 16 + rot.toNat) ∧
  (∀ (p : Params) (f : PixelFormat), flagsWord p f = packedFlags p.endianCodeLe (pfCode p f) p.rotCode0) ∧
  flagsWord Config.reference .bpp2 = 0x0000 ∧ flagsWord Config.reference .bpp3 = 0x0010 ∧
  flagsWord Config.reference .bpp4 = 0x0020 ∧ flagsWord Config.reference .bpp8 = 0x0030

/-! ### Bulk words and images -/

/-- The words the engine streams are FillWords of a fill and Repack of an image (43_display.md rules R247, R248), and
their number is half the pixels or bytes, rounded up. A word of XBUF is little-endian, of the bytes XBUF holds where none
of them is raced on (20_memory.md rules R73, R93). -/
def Obligations.BulkWords : Prop :=
  ∀ (s : State) (pc b n : Nat) (v : Byte),
    srcWords s (.fill pc v) = fillWords pc v ∧ (fillWords pc v).length = ceilDiv pc 2 ∧
    srcWords s (.image b n) = repack s b n ∧ (repack s b n).length = ceilDiv n 2 ∧
    (s.xbufRace = [] →
      (∀ i, xWord s b i = word16 (xbufByte s (b + 2 * i + 1)) (xbufByte s (b + 2 * i))) ∧
      (n % 2 = 1 → (repack s b n).getLast? = some (word16 0 (xbufByte s (b + n - 1)))))

/-- The expected byte length of an image is the exact number of bits, rounded up to bytes (R246), with the spec's
examples. -/
def Obligations.ExpectedBytes : Prop :=
  (∀ (f : PixelFormat) (pc : Nat), expectedBytes f pc = ceilDiv (bitsPerPixel f * pc) 8) ∧
  (∀ pc, expectedBytes .bpp8 pc = pc ∧ expectedBytes .bpp4 pc = ceilDiv pc 2 ∧
    expectedBytes .bpp3 pc = ceilDiv (3 * pc) 8 ∧ expectedBytes .bpp2 pc = ceilDiv pc 4) ∧
  expectedBytes .bpp8 100 = 100 ∧ expectedBytes .bpp4 3 = 2 ∧ expectedBytes .bpp3 3 = 2 ∧
  expectedBytes .bpp3 8 = 3 ∧ expectedBytes .bpp2 5 = 2

/-- The chunks of a batch: their number, their sizes, and that their payloads joined are the words in list order
(40_framer.md rule R153). -/
def Obligations.ChunkArithmetic : Prop :=
  ∀ (c : Nat) (ws : List Word16), 0 < c → ws ≠ [] →
    (chunkList c ws).length = ceilDiv ws.length c ∧
    (chunkList c ws).flatten = ws ∧
    ((chunkList c ws).flatMap fun chunk => (chunkFrame chunk).drop 2) = ws.flatMap be16 ∧
    (∀ j chunk, (chunkList c ws)[j]? = some chunk → j + 1 < ceilDiv ws.length c → chunk.length = c) ∧
    (∀ chunk, (chunkList c ws).getLast? = some chunk →
      chunk.length = ws.length - c * (ceilDiv ws.length c - 1) ∧ 1 ≤ chunk.length ∧ chunk.length ≤ c)

/-- The host's area functions, by their points: an intersection holds exactly the common points, and is none exactly
when there are none; a union is the bounding box; with the spec's examples (43_display.md rules R244, R245). -/
def Obligations.AreaFunctions : Prop :=
  (∀ (a b c : Area) (x y : Nat), areaIntersection a b = some c →
    (c.x ≤ x ∧ x < c.x + c.w ∧ c.y ≤ y ∧ y < c.y + c.h ↔
      (a.x ≤ x ∧ x < a.x + a.w ∧ a.y ≤ y ∧ y < a.y + a.h) ∧
      (b.x ≤ x ∧ x < b.x + b.w ∧ b.y ≤ y ∧ y < b.y + b.h))) ∧
  (∀ a b : Area, areaIntersection a b = none ↔
    ∀ x y, ¬((a.x ≤ x ∧ x < a.x + a.w ∧ a.y ≤ y ∧ y < a.y + a.h) ∧
      (b.x ≤ x ∧ x < b.x + b.w ∧ b.y ≤ y ∧ y < b.y + b.h))) ∧
  (∀ a b : Area, (areaUnion a b).x = min a.x b.x ∧ (areaUnion a b).y = min a.y b.y ∧
    (areaUnion a b).x + (areaUnion a b).w = max (a.x + a.w) (b.x + b.w) ∧
    (areaUnion a b).y + (areaUnion a b).h = max (a.y + a.h) (b.y + b.h)) ∧
  areaIntersection ⟨0, 0, 100, 100⟩ ⟨50, 50, 100, 100⟩ = some ⟨50, 50, 50, 50⟩ ∧
  areaIntersection ⟨0, 0, 100, 100⟩ ⟨200, 200, 100, 100⟩ = none ∧
  areaUnion ⟨0, 0, 100, 100⟩ ⟨50, 50, 100, 100⟩ = ⟨0, 0, 150, 150⟩

/-- The identification: ParseDevInfo takes one micro-step, cannot fail, writes the staging copy alone, and this is what
it puts there (42_device.md rule R205). -/
def Obligations.ParseIdentification : Prop :=
  (∀ (op : Instr) (rest : List Micro) (s : State),
    runMicro op .parseDevInfo rest s = { s with stg := parseDevInfo s.words, seq := .run op rest }) ∧
  ∀ ws : List Word16, ws.length = 20 →
    (parseDevInfo ws).w = ws.getD 0 0 ∧ (parseDevInfo ws).h = ws.getD 1 0 ∧
    (parseDevInfo ws).addr.toNat = (ws.getD 3 0).toNat * 65536 + (ws.getD 2 0).toNat ∧
    (parseDevInfo ws).fw.length = 16 ∧ (parseDevInfo ws).lut.length = 16 ∧
    (∀ k, k < 8 →
      (parseDevInfo ws).fw[2 * k]? = some (lo8 (ws.getD (4 + k) 0)) ∧
      (parseDevInfo ws).fw[2 * k + 1]? = some (hi8 (ws.getD (4 + k) 0)) ∧
      (parseDevInfo ws).lut[2 * k]? = some (lo8 (ws.getD (12 + k) 0)) ∧
      (parseDevInfo ws).lut[2 * k + 1]? = some (hi8 (ws.getD (12 + k) 0))) ∧
    (∀ (bs : List Byte) (len : BitVec 5),
      (bs = (parseDevInfo ws).fw ∧ len = (parseDevInfo ws).fwLen) ∨
        (bs = (parseDevInfo ws).lut ∧ len = (parseDevInfo ws).lutLen) →
      len.toNat ≤ 16 ∧ (∀ j, j < len.toNat → bs.getD j 0 ≠ 0) ∧ (len.toNat < 16 → bs.getD len.toNat 1 = 0))

/-! ### Registers and the host -/

/-- The fields of STATUS and of VER_LEN at their bit positions, every other bit 0 (10_state.md rules R21, R23). -/
def Obligations.StatusBitPositions : Prop :=
  ∀ s : State,
    (statusWord s).getLsbD 0 = s.stat.busy ∧ (statusWord s).getLsbD 1 = s.stat.done ∧
    (statusWord s).getLsbD 2 = s.stat.infoValid ∧ (statusWord s).getLsbD 3 = s.stat.collide ∧
    (statusWord s).getLsbD 4 = decide (s.speed = .data) ∧ (statusWord s).getLsbD 5 = s.stat.csN ∧
    (statusWord s).getLsbD 6 = s.stat.resetN ∧ (statusWord s).getLsbD 7 = s.stat.hrdyLast ∧
    (statusWord s).extractLsb' 8 4 = s.stat.initPhase ∧ (statusWord s).toNat < 2 ^ 12 ∧
    (verLenWord s.info).toNat = s.info.lutLen.toNat * 256 + s.info.fwLen.toNat

/-- What the host reads after engine reset, from whatever state, and in the machine right after reset (70_reset_and_hazards.md
rule R310). -/
def Obligations.ResetRegisters : Prop :=
  ∀ t : State, ((∃ s, t = engineReset s) ∨ ∃ p, t = State.afterReset p) →
    (∀ off ∈ [0x000, 0x008, 0x00C, 0x010, 0x014, 0x018, 0x01C, 0x020, 0x024, 0x028, 0x02C, 0x030, 0x034, 0x038,
      0x03C, 0x040, 0x048], readReg t off = 0) ∧
    readReg t 0x004 = 0x00000060 ∧ readReg t 0x044 = 5000 ∧
    readReg t 0x04C = t.params.vcomCfgReset.setWidth 32 ∧
    readReg t 0x050 = BitVec.ofNat 32 t.params.xbufBytes ∧
    readReg t 0x054 = BitVec.ofNat 32 t.params.busMaxBytes ∧
    t.speed = .cmd ∧ t.seq = .idle ∧ t.stat.csN = true ∧ t.stat.resetN = true ∧ t.trace = []

/-- An engine reset wins at once over whatever runs: the operation is abandoned without a further device access, DONE
and ERR_CODE are 0, and no byte of XBUF is known any more (R311, R312, R315, 60_exceptions.md rule R304). The parameters
stay. The model's choices: that `now` goes on (log 3), that the agenda goes on with its next turn (log 4), and that the
list of written XBUF bytes is empty (log 6). -/
def Obligations.EngineResetAbandons : Prop :=
  ∀ (s : State) (rest : List Turn), paramsOk s.params = true → s.agenda = .engineReset :: rest →
    ∃ t, step s = .next t ∧ t.seq = .idle ∧ t.speed = .cmd ∧ t.stat.busy = false ∧ t.stat.done = false ∧
      t.stat.infoValid = false ∧ t.regs.errCode = 0 ∧ t.stat.csN = true ∧ t.stat.resetN = true ∧ t.trace = [] ∧
      t.xbuf = [] ∧ t.hrdyNo = s.hrdyNo ∧ t.busNo = s.busNo ∧ t.params = s.params ∧ t.agenda = rest ∧ t.now = s.now

/-- A host write of CTRL: a GO while BUSY = 0 is accepted (latches, BUSY, DONE, COLLIDE, error registers, XCOUNT, Decode)
and changes nothing else; a GO while BUSY = 1 sets COLLIDE and changes nothing else; a write with GO = 0 has no effect
(10_state.md rules R22, R36); and the host's 32-bit store to CTRL is that write. -/
def Obligations.GoIsAcceptedOrRejected : Prop :=
  ∀ (s : State) (v : Word32),
    (v.getLsbD 0 = false → writeReg 0x000 v s = s) ∧
    (v.getLsbD 0 = true → s.stat.busy = true →
      writeReg 0x000 v s = { s with stat := { s.stat with collide := true } }) ∧
    (v.getLsbD 0 = true → s.stat.busy = false →
      writeReg 0x000 v s =
        { s with
          lat :=
            { opw := s.regs.opw, arg0 := s.regs.arg0, bufoff := s.regs.bufoff, len := s.regs.len,
              ax := s.regs.areaX, ay := s.regs.areaY, aw := s.regs.areaW, ah := s.regs.areaH,
              tmo := s.regs.timeoutMs, dtmo := s.regs.drdyTimeoutMs, vcfg := s.regs.vcomCfg }
          stat := { s.stat with busy := true, done := false, collide := false }
          regs :=
            { s.regs with
              errCode := 0, errInfo0 := 0, errInfo1 := 0, errInfo2 := 0, errInfo3 := 0, xcount := 0 }
          seq := .decode }) ∧
    readReg s 0x000 = 0 ∧
    (∀ a : HostAccess, Reaches32 a 0x000 s → a.store = true → a.data = v → hostTurn a s = .next (writeReg 0x000 v s))

/-- Host accesses to registers. An aligned 32-bit store outside the XBUF window is a register write and nothing else;
such a load gives the host what the register reads and changes nothing else; the step of the machine in which the host
moves is that access, at the state the agenda leaves (log 4). A write to a read-write register sets that register and
changes nothing else, no latch, no other register, not the sequencer and not XBUF, and is read back in the register's
bits; a write to a read-only register or an unmapped offset changes nothing and an unmapped offset reads 0; VCOM_CFG
ignores writes while BUSY = 1 (00_scope.md rule R8, 10_state.md rules R21, R24, R36, R37, R45). That the loaded word is
kept in `hostData` is the model's form (log 10). -/
def Obligations.HostRegisterAccess : Prop :=
  ∀ (s : State) (v : Word32),
    writeReg 0x008 v s = { s with regs := { s.regs with opw := v } } ∧
    writeReg 0x00C v s = { s with regs := { s.regs with arg0 := lo16 v } } ∧
    writeReg 0x010 v s = { s with regs := { s.regs with bufoff := v } } ∧
    writeReg 0x014 v s = { s with regs := { s.regs with len := v } } ∧
    writeReg 0x018 v s = { s with regs := { s.regs with areaX := lo16 v } } ∧
    writeReg 0x01C v s = { s with regs := { s.regs with areaY := lo16 v } } ∧
    writeReg 0x020 v s = { s with regs := { s.regs with areaW := lo16 v } } ∧
    writeReg 0x024 v s = { s with regs := { s.regs with areaH := lo16 v } } ∧
    writeReg 0x044 v s = { s with regs := { s.regs with timeoutMs := v } } ∧
    writeReg 0x048 v s = { s with regs := { s.regs with drdyTimeoutMs := v } } ∧
    (s.stat.busy = false → writeReg 0x04C v s = { s with regs := { s.regs with vcomCfg := lo16 v } }) ∧
    (∀ off ∈ [0x008, 0x010, 0x014, 0x044, 0x048], readReg (writeReg off v s) off = v) ∧
    (∀ off ∈ [0x00C, 0x018, 0x01C, 0x020, 0x024], readReg (writeReg off v s) off = (lo16 v).setWidth 32) ∧
    (s.stat.busy = false → readReg (writeReg 0x04C v s) 0x04C = (lo16 v).setWidth 32) ∧
    (s.stat.busy = true → writeReg 0x04C v s = s) ∧
    (∀ off, off ∉ [0x000, 0x008, 0x00C, 0x010, 0x014, 0x018, 0x01C, 0x020, 0x024, 0x044, 0x048, 0x04C] →
      writeReg off v s = s) ∧
    (∀ off off', off ≠ 0x000 → off ≠ off' → readReg (writeReg off v s) off' = readReg s off') ∧
    (∀ (a : HostAccess) (off : Nat), Reaches32 a off s → inWindow s off = false →
      (a.store = true → hostTurn a s = .next (writeReg off a.data s)) ∧
      (a.store = false → (0x060 ≤ off ∧ off < 0x090 → s.stat.infoValid = true) →
        hostTurn a s = .next { s with hostData := readReg s off }) ∧
      (a.store = false → (0x058 ≤ off ∧ off < 0x060) ∨ 0x090 ≤ off → hostTurn a s = .next { s with hostData := 0 })) ∧
    (∀ (a : HostAccess) (u : State), paramsOk s.params = true → HostMoves a s u → step s = hostTurn a u)

/-- The XBUF window. Where no byte of the word is in use by the running operation, a host store puts the word's four bytes,
lowest first, at its offset, leaves every other byte and everything else as it was, and a host load returns them
(20_memory.md rules R72, R87, R88). A store to bytes in use runs too: each such byte becomes the new or keeps the old
value, and whoever reads it while the operation runs may get either; a load of bytes the operation writes gets any of
their values (R93; log 11). The bytes in use are those of 41_transport.md rule R171. -/
def Obligations.HostWindow : Prop :=
  ∀ (s : State) (a : Nat) (v : Word32), a % 4 = 0 → a + 4 ≤ s.params.xbufBytes →
    (storeRaces s a = false →
      ∃ t, hostStore (0x1000 + a) v s = .next t ∧
        (∀ i, i < 4 → xbufByte t (a + i) = v.extractLsb' (8 * i) 8) ∧
        (∀ b, b < a ∨ a + 4 ≤ b → xbufByte t b = xbufByte s b) ∧
        t = { s with xbuf := t.xbuf } ∧
        hostLoad (0x1000 + a) t = .next { t with hostData := v }) ∧
    (loadRaces s a = false → hostLoad (0x1000 + a) s = .next { s with hostData := xbufWindowWord s a }) ∧
    (storeRaces s a = true →
      ∃ t, hostStore (0x1000 + a) v s = .next t ∧
        (∀ i, i < 4 → byteUse s (a + i) = none → xbufByte t (a + i) = v.extractLsb' (8 * i) 8) ∧
        (∀ i, i < 4 → byteUse s (a + i) ≠ none →
          (xbufByte t (a + i) = v.extractLsb' (8 * i) 8 ∨ xbufByte t (a + i) = xbufByte s (a + i)) ∧
          v.extractLsb' (8 * i) 8 ∈ raceOthers t (a + i) ∧ xbufByte s (a + i) ∈ raceOthers t (a + i)) ∧
        (∀ b, b < a ∨ a + 4 ≤ b → xbufByte t b = xbufByte s b ∧ raceOthers t b = raceOthers s b) ∧
        t = { s with xbuf := t.xbuf, xbufRace := t.xbufRace, raceNo := s.raceNo + 1 }) ∧
    (loadRaces s a = true →
      ∃ w : Word32, hostLoad (0x1000 + a) s = .next { s with hostData := w, raceNo := s.raceNo + 1 } ∧
        ∀ i, i < 4 → w.extractLsb' (8 * i) 8 ∈ xbufByte s (a + i) :: hostOthers s (a + i)) ∧
    (∀ b, engineByte s b ∈ xbufByte s b :: raceOthers s b) ∧
    (∀ b use, byteUse s b = some use ↔
      ∃ op lo n, ((∃ todo, s.seq = .run op todo) ∨
          s.seq = .decode ∧ decode (.opw s.lat.opw) = .ok op ∧ operandDefect op = none) ∧
        lo = s.lat.bufoff.toNat ∧ lo ≤ b ∧ b < lo + n ∧ lo + n ≤ s.params.xbufBytes ∧
        (use = true ∧ op = .rdDataBatch ∧ n = 2 * s.lat.len.toNat ∨
          use = false ∧ (op = .wrDataBatch ∨ (∃ c, op = .wrCmdArgs c) ∨ (∃ c, op = .wrUcmdArgs c)) ∧
            n = 2 * s.lat.len.toNat ∨
          use = false ∧ (∃ fmt, op = .loadImage fmt) ∧ n = s.lat.len.toNat))

/-- Where a host access stops: a width other than 32 bits or a misaligned offset is refused (20_memory.md rule R84), and a
load of a device-information register while INFO_VALID = 0 faults (10_state.md rule R46). Every 32-bit access at a
multiple of 4 is the load or the store at its offset, in the XBUF window too, and no other load and no store stops. That an access to XBUF bytes in use does not stop is the model's choice of the two that R93 and U3 leave it
(log 11). -/
def Obligations.HostStops : Prop :=
  ∀ (s : State) (a : HostAccess),
    (a.width ≠ 4 ∨ hostOffset s a.addr % 4 ≠ 0 →
      hostTurn a s = .refused (.hostAccess (hostOffset s a.addr) a.width)) ∧
    (∀ off, 0x060 ≤ off → off < 0x090 → s.stat.infoValid = false → hostLoad off s = .fault (.deviceInfoUnset off)) ∧
    (∀ off, 0x060 ≤ off → off < 0x090 → s.stat.infoValid = true →
      hostLoad off s = .next { s with hostData := readReg s off }) ∧
    (∀ off, off < 0x060 ∨ 0x090 ≤ off → answersNext (hostLoad off s)) ∧
    (∀ off v, answersNext (hostStore off v s)) ∧
    (∀ off, Reaches32 a off s →
      hostTurn a s = (if a.store then hostStore off a.data s else hostLoad off s) ∧
      (a.store = true ∨ off < 0x060 ∨ 0x090 ≤ off ∨ s.stat.infoValid = true → answersNext (hostTurn a s)))

/-- Host writes to the operand registers and the deadlines do not reach a running operation: such a write changes those
registers alone, and whatever they hold, an instruction does the same, and leaves them as they are (10_state.md rules R24,
R30). -/
def Obligations.OperandWritesWhileBusy : Prop :=
  (∀ off ∈ [0x008, 0x00C, 0x010, 0x014, 0x018, 0x01C, 0x020, 0x024, 0x044, 0x048],
    ∀ (v : Word32) (s : State), writeReg off v s = withOperands (writeReg off v s).regs s) ∧
  (∀ (i : Instr) (r : HostRegs) (s : State), exec i (withOperands r s) = mapNext (withOperands r) (exec i s))

/-- The Clock adds one millisecond and records a Tick; nothing else changes (10_state.md rules R43, R44). Whose step it is,
is the model's schedule (log 4; log 19): the agenda's next turn, and with an empty agenda the Clock's while a Delay holds
the Engine and the Host's while the Engine is idle. Once the run has ended, its host program done and BUSY = 0, an empty
agenda brings no further step: the end state of 70_reset_and_hazards.md rule R328 stays. -/
def Obligations.ClockTicks : Prop :=
  ∀ s : State, paramsOk s.params = true →
    (∀ rest, s.agenda = .clock :: rest →
      step s = .next { s with agenda := rest, now := s.now + 1, trace := s.trace ++ [.tick] }) ∧
    (s.agenda = [] → held s = true → step s = .next { s with now := s.now + 1, trace := s.trace ++ [.tick] }) ∧
    (s.agenda = [] → s.seq = .idle → step s = hostStep s) ∧
    (∀ rest, s.agenda = .program :: rest → step s = hostStep { s with agenda := rest }) ∧
    (runEnded s = true → s.agenda = [] → (s.stat.busy = true ↔ s.seq ≠ .idle) →
      step s = .next s ∧ endState s = some ⟨s.regs, s.info, statusWord s, s.xbuf, s.trace⟩) ∧
    (s.stat.busy = true ∨ s.hostProg ≠ [] → endState s = none)

/-- A step of the Engine runs the instruction that its OPW latch, the bytes at the framer, or the sequencer holds: it is
`exec` of that instruction, at the state the agenda leaves; and the step at an illegal operation word, one that does not
decode included, is the ILLEGAL_OP end (10_state.md rule R34, 20_memory.md rule R95, 30_encoding.md rule R105; log 4). -/
def Obligations.StepRunsDecoded : Prop :=
  ∀ s u : State, paramsOk s.params = true →
    ((s.agenda = [] ∧ u = s) ∨ ∃ rest, s.agenda = .engine :: rest ∧ u = { s with agenda := rest }) →
    (∀ i, s.seq = .decode → decode (.opw s.lat.opw) = .ok i → step s = exec i u) ∧
    (∀ r, s.seq = .decode → illegalReasonOf s.lat.opw = some r →
      step s = .next (raise (.illegalOp s.lat.opw r) u)) ∧
    (∀ i bytes, s.seq = .wire bytes → decode (.wire bytes) = .ok i → step s = exec i u) ∧
    (∀ op todo, s.seq = .run op todo → held s = false → step s = exec op u)

/-! ### Ending an operation -/

/-- The success end: an operation whose micro-steps are done clears BUSY, sets DONE and goes to Idle, and nothing else
(60_exceptions.md rule R283), but that no byte of XBUF is raced on any more (log 11). -/
def Obligations.SuccessEnd : Prop :=
  ∀ (s : State) (op : Instr), s.seq = .run op [] → frameLengthOk s.params op = true →
    exec op s = .next { s with stat := { s.stat with busy := false, done := true }, xbufRace := [], seq := .idle }

/-- The failure end: `raise` restores CMD speed, clears BUSY, sets DONE, goes to Idle and writes the error registers;
everything else stays (60_exceptions.md rule R284), but that no byte of XBUF is raced on any more (log 11), and the host
reads the code and information of the error table (R281, R282). -/
def Obligations.FailureEnd : Prop :=
  ∀ (e : Err) (s : State),
    raise e s =
      { s with
        speed := .cmd
        regs :=
          { s.regs with
            errCode := errCodeOf e, errInfo0 := errInfo0Of e, errInfo1 := errInfo1Of e,
            errInfo2 := errInfo2Of e, errInfo3 := errInfo3Of e }
        stat := { s.stat with busy := false, done := true }
        xbufRace := []
        seq := .idle } ∧
    [0x02C, 0x030, 0x034, 0x038, 0x03C].map (readReg (raise e s)) =
      match e with
      | .io code .hrdySample => [1, code, 1, 0, 0]
      | .io code .exchange => [1, code, 2, 0, 0]
      | .timeout budget .hrdyWait elapsed => [2, budget, 0, BitVec.ofNat 32 elapsed, 0]
      | .timeout budget .displayReady elapsed => [2, budget, 1, BitVec.ofNat 32 elapsed, 0]
      | .protocol got want => [3, BitVec.ofNat 32 got, BitVec.ofNat 32 want, 0, 0]
      | .invalidArea x y w h => [4, BitVec.ofNat 32 x, BitVec.ofNat 32 y, BitVec.ofNat 32 w, BitVec.ofNat 32 h]
      | .invalidVcom v => [5, v.setWidth 32, 0, 0, 0]
      | .dimensionMismatch actual expected => [6, BitVec.ofNat 32 actual, BitVec.ofNat 32 expected, 0, 0]
      | .notInitialized => [7, 0, 0, 0, 0]
      | .illegalOp w reason => [8, w, BitVec.ofNat 32 reason, 0, 0]
      | .badLength off len => [9, off, len, 0, 0]

/-! ### What each instruction does when the device answers -/

/-- WR_CMD, WR_UCMD, RUN, STANDBY and SLEEP send their one command frame at CMD speed and succeed; XCOUNT, HRDY_LAST, the
trace and `t_wait` aside, nothing else changes (41_transport.md rules R172, R173, 42_device.md rules R215 to R217). -/
def Obligations.CommandsComplete : Prop :=
  ∀ (i : Instr) (c : Word16) (s : State) (rx : List Byte), commandOf i = some c → Served s [rx] 3 →
    exec i s = .next (succeed (afterExchange s ⟨.cmd, cmdFrame c, rx⟩))

/-- A bare command word or command frame handed to the framer is sent as one command frame (30_encoding.md rules R112,
R113, R117; log 8). -/
def Obligations.WireCommandsComplete : Prop :=
  ∀ (i : Instr) (c : Word16) (s : State) (rx : List Byte), wireOpcode i = some c → Served s [rx] 3 →
    exec i s = .next (succeed (afterExchange s ⟨.cmd, cmdFrame c, rx⟩))

/-- WR_DATA sends its word as one data frame (41_transport.md rule R174). -/
def Obligations.WrDataCompletes : Prop :=
  ∀ (w : Word16) (s : State) (rx : List Byte), Served s [rx] 3 →
    exec (.wrData w) s = .next (succeed (afterExchange s ⟨.cmd, dataFrame w, rx⟩))

/-- A bare data frame or read frame of a length the wire admits is sent as it stands; a read leaves its words where
ReadData returns them; another length is refused (30_encoding.md rules R118 to R120; log 8). -/
def Obligations.WireDataFramesComplete : Prop :=
  (∀ (ws : List Word16) (s : State) (rx : List Byte), 1 ≤ ws.length → ws.length ≤ chunkWords s.params →
    Served s [rx] 4 →
    exec (.preWriteData ws) s = .next (succeed (afterExchange s ⟨.cmd, chunkFrame ws, rx⟩))) ∧
  (∀ (n : Nat) (s : State) (rx : List Byte), 1 ≤ n → n ≤ rdMaxWords s.params → Served s [rx] 3 →
    4 + 2 * n ≤ rx.length →
    exec (.preReadData n) s =
      .next (succeed { afterExchange s ⟨.cmd, readFrame n, rx⟩ with words := readWords n rx })) ∧
  (∀ (ws : List Word16) (s : State), ws = [] ∨ chunkWords s.params < ws.length →
    exec (.preWriteData ws) s = .refused .frameLength) ∧
  (∀ (n : Nat) (s : State), n = 0 ∨ rdMaxWords s.params < n → exec (.preReadData n) s = .refused .frameLength)

/-- RD_DATA sends one read frame for one word and puts the word of the response into RESULT (41_transport.md rule
R176). -/
def Obligations.RdDataCompletes : Prop :=
  ∀ (s : State) (rx : List Byte), Served s [rx] 4 → 6 ≤ rx.length →
    ∃ t, exec .rdData s = .next t ∧ t.regs.result = wordOf rx ∧
      t = succeed
        { afterExchange s ⟨.cmd, readFrame 1, rx⟩ with
          words := [wordOf rx]
          regs := { (afterExchange s ⟨.cmd, readFrame 1, rx⟩).regs with result := wordOf rx } }

/-- RD_REG sends the register-read command, the address and a read frame, and puts the word into RESULT (R180). -/
def Obligations.RdRegCompletes : Prop :=
  ∀ (a : Word16) (s : State) (r1 r2 r3 : List Byte), Served s [r1, r2, r3] 8 → 6 ≤ r3.length →
    exec (.rdReg a) s =
      .next (succeed
        { afterExchanges s (atCmd (regReadFrames a) [r1, r2, r3]) with
          words := [wordOf r3]
          regs :=
            { (afterExchanges s (atCmd (regReadFrames a) [r1, r2, r3])).regs with result := wordOf r3 } })

/-- WR_REG sends the register-write command, the address and the latched ARG0, each in its own frame at CMD speed
(R181). -/
def Obligations.WrRegCompletes : Prop :=
  ∀ (a : Word16) (s : State) (r1 r2 r3 : List Byte), Served s [r1, r2, r3] 7 →
    exec (.wrReg a) s =
      .next (succeed (afterExchanges s (atCmd (regWriteFrames a s.lat.arg0) [r1, r2, r3])))

/-- WR_DATA_BATCH sends the LEN words at BUFOFF, little-endian from XBUF, in chunks at DATA speed, each behind its own
wait, and is back at CMD speed at the end; with LEN = 0 it does nothing and succeeds, whatever BUFOFF is (R171, R175,
40_framer.md rules R152 to R154). -/
def Obligations.WrDataBatchCompletes : Prop :=
  ∀ (s : State) (rs : List (List Byte)), paramsOk s.params = true →
    s.lat.len.toNat = 0 ∨ s.lat.bufoff.toNat + 2 * s.lat.len.toNat ≤ s.params.xbufBytes →
    rs.length = ceilDiv s.lat.len.toNat (chunkWords s.params) → Served s rs (2 * rs.length + 3) →
    exec .wrDataBatch s =
      .next (succeed (afterExchanges s
        (batchAnswers (chunkWords s.params) (xWords s s.lat.bufoff.toNat s.lat.len.toNat) rs)))

/-- WR_CMD_ARGS and WR_UCMD_ARGS send their command frame, then the LEN words at BUFOFF as such a batch; with LEN = 0 the
command frame alone (R178, R179, 40_framer.md rule R159). -/
def Obligations.CmdArgsComplete : Prop :=
  ∀ (i : Instr) (c : Word16) (s : State) (r : List Byte) (rs : List (List Byte)), paramsOk s.params = true →
    argsCommandOf i = some c →
    s.lat.len.toNat = 0 ∨ s.lat.bufoff.toNat + 2 * s.lat.len.toNat ≤ s.params.xbufBytes →
    rs.length = ceilDiv s.lat.len.toNat (chunkWords s.params) → Served s (r :: rs) (2 * rs.length + 5) →
    exec i s =
      .next (succeed (afterExchanges s
        (⟨.cmd, cmdFrame c, r⟩ ::
          batchAnswers (chunkWords s.params) (xWords s s.lat.bufoff.toNat s.lat.len.toNat) rs)))

/-- RD_DATA_BATCH reads LEN words in one exchange and stores word i little-endian at BUFOFF + 2i; every other byte of
XBUF, and all else but the exchange's own marks, stays; a byte the host has raced on may keep its value instead
(20_memory.md rule R93; log 11); with LEN = 0 it does nothing and succeeds (R177, 20_memory.md rule R73). -/
def Obligations.RdDataBatchCompletes : Prop :=
  ∀ (s : State) (rx : List Byte), s.lat.len.toNat ≤ rdMaxWords s.params →
    (s.lat.len.toNat = 0 → AtStart s → 1 ≤ s.burst → exec .rdDataBatch s = .next (succeed s)) ∧
    (1 ≤ s.lat.len.toNat → s.lat.bufoff.toNat + 2 * s.lat.len.toNat ≤ s.params.xbufBytes → Served s [rx] 4 →
      4 + 2 * s.lat.len.toNat ≤ rx.length →
      ∃ t, exec .rdDataBatch s = .next t ∧
        (∀ i, i < s.lat.len.toNat →
          (xbufByte t (s.lat.bufoff.toNat + 2 * i) = rx.getD (5 + 2 * i) 0 ∨
            raceOthers s (s.lat.bufoff.toNat + 2 * i) ≠ [] ∧
              xbufByte t (s.lat.bufoff.toNat + 2 * i) = xbufByte s (s.lat.bufoff.toNat + 2 * i)) ∧
          (xbufByte t (s.lat.bufoff.toNat + 2 * i + 1) = rx.getD (4 + 2 * i) 0 ∨
            raceOthers s (s.lat.bufoff.toNat + 2 * i + 1) ≠ [] ∧
              xbufByte t (s.lat.bufoff.toNat + 2 * i + 1) = xbufByte s (s.lat.bufoff.toNat + 2 * i + 1)) ∧
          (s.xbufRace = [] → xWord t s.lat.bufoff.toNat i = (readWords s.lat.len.toNat rx).getD i 0)) ∧
        (∀ a, a < s.lat.bufoff.toNat ∨ s.lat.bufoff.toNat + 2 * s.lat.len.toNat ≤ a → xbufByte t a = xbufByte s a) ∧
        t = succeed
          { afterExchange s ⟨.cmd, readFrame s.lat.len.toNat, rx⟩ with
            words := readWords s.lat.len.toNat rx
            xbuf := t.xbuf })

/-- RD_VCOM sends the VCOM command, selector 0 and a read frame, and puts the word into RESULT, not into VCOM_CFG
(42_device.md rule R212). -/
def Obligations.RdVcomCompletes : Prop :=
  ∀ (s : State) (r1 r2 r3 : List Byte), Served s [r1, r2, r3] 8 → 6 ≤ r3.length →
    exec .rdVcom s =
      .next (succeed
        { afterExchanges s (atCmd vcomReadFrames [r1, r2, r3]) with
          words := [wordOf r3]
          regs := { (afterExchanges s (atCmd vcomReadFrames [r1, r2, r3])).regs with result := wordOf r3 } })

/-- WR_VCOM of a value up to 5000 sends the VCOM command, selector 1 and the value, and then VCOM_CFG holds the value; a
larger value ends with INVALID_VCOM before any device access (42_device.md rules R213, R214). -/
def Obligations.WrVcomCompletes : Prop :=
  ∀ (v : Word16) (s : State) (r1 r2 r3 : List Byte),
    (v.toNat ≤ 5000 → Served s [r1, r2, r3] 8 →
      exec (.wrVcom v) s =
        .next (succeed
          { afterExchanges s (atCmd (vcomWriteFrames v) [r1, r2, r3]) with
            regs := { (afterExchanges s (atCmd (vcomWriteFrames v) [r1, r2, r3])).regs with vcomCfg := v } })) ∧
    (5000 < v.toNat → AtStart s → exec (.wrVcom v) s = .next (raise (.invalidVcom v) s))

/-- RESET clears INFO_VALID, drives RESET_N low and is held; once RESET_HOLD_MS have passed it drives RESET_N high and
succeeds, with no sample and no exchange (42_device.md rule R201, 40_framer.md rule R163). -/
def Obligations.ResetCompletes : Prop :=
  (∀ s : State, AtStart s → paramsOk s.params = true → 3 ≤ s.burst →
    exec .reset s =
      .next
        { s with
          stat := { s.stat with infoValid := false, resetN := false }
          trace := s.trace ++ [.lineResetN false]
          tDelay := s.now
          seq := .run .reset [.hold s.params.resetHoldMs, .pulseHigh] }) ∧
  (∀ (s : State) (ms : Nat), s.seq = .run .reset [.hold ms, .pulseHigh] → ms ≤ s.now - s.tDelay → 2 ≤ s.burst →
    exec .reset s =
      .next (succeed
        { s with stat := { s.stat with resetN := true }, trace := s.trace ++ [.lineResetN true] }))

/-- RESET from Decode to its end, step by step under the reference schedule (log 4): the trace gains the falling edge, exactly
RESET_HOLD_MS Ticks and the rising edge; XCOUNT and the device oracle are untouched, INFO_VALID is 0 and the operation
has succeeded (R201, R163), and no byte of XBUF is raced on any more (log 11). -/
def Obligations.ResetRuns : Prop :=
  ∀ s : State, s.seq = .decode → decode (.opw s.lat.opw) = .ok .reset → s.agenda = [] → paramsOk s.params = true →
    3 ≤ s.burst →
    Host.Core.run Sys2Proof.core (s.params.resetHoldMs + 2) s =
      .next
        { s with
          stat := { s.stat with infoValid := false, resetN := true, busy := false, done := true }
          trace :=
            s.trace ++ .lineResetN false :: (List.replicate s.params.resetHoldMs .tick ++ [.lineResetN true])
          now := s.now + s.params.resetHoldMs
          tDelay := s.now
          xbufRace := []
          seq := .idle }

/-- INIT enters phase 1: INIT_PHASE 1, INFO_VALID 0 and RESET_N low, then the hold; after the hold RESET_N goes high,
phase 2 begins and is held for SETTLE_MS; no sample and no exchange so far (42_device.md rules R202, R203). -/
def Obligations.InitStarts : Prop :=
  (∀ s : State, AtStart s → paramsOk s.params = true → 3 ≤ s.burst →
    exec .init s =
      .next
        { s with
          stat := { s.stat with initPhase := 1, infoValid := false, resetN := false }
          trace := s.trace ++ [.lineResetN false]
          tDelay := s.now
          seq := .run .init [.hold s.params.resetHoldMs, .pulseHigh, .enterPhase .settle] }) ∧
  (∀ (s : State) (ms : Nat), s.seq = .run .init [.hold ms, .pulseHigh, .enterPhase .settle] →
    ms ≤ s.now - s.tDelay → 3 ≤ s.burst →
    exec .init s =
      .next
        { s with
          stat := { s.stat with initPhase := 2, resetN := true }
          trace := s.trace ++ [.lineResetN true]
          tDelay := s.now
          seq := .run .init [.hold 100, .enterPhase .identify] })

/-- INIT from the end of the settle delay, with the device's VCOM equal to the configured target: fourteen exchanges, the
identification parsed and committed, register by register and byte by byte, INIT_PHASE 7, INFO_VALID 1, success; VCOM_CFG,
RESULT and XBUF stay (R202, R204 to R210, 10_state.md rule R39). -/
def Obligations.InitCompletes : Prop :=
  ∀ (s : State) (rs : List (List Byte)), s.seq = .run .init [.hold 100, .enterPhase .identify] →
    100 ≤ s.now - s.tDelay → s.speed = .cmd → 64 ≤ s.burst → rs.length = 14 → Answered s rs →
    44 ≤ (rs.getD 1 []).length → 6 ≤ (rs.getD 13 []).length → wordOf (rs.getD 13 []) = s.lat.vcfg →
    ∃ t, exec .init s = .next t ∧ t = succeed (commitInfo (afterInitExchanges s rs)) ∧ Committed (rs.getD 1 []) t ∧
      t.regs.vcomCfg = s.regs.vcomCfg ∧ t.regs.result = s.regs.result ∧ t.xbuf = s.xbuf

/-- INIT from the end of the settle delay, with a differing VCOM: a legal target is written to the device (three more
exchanges) and to VCOM_CFG before the commit of the identification, register by register and byte by byte; an illegal
target ends INIT in phase 6 with INVALID_VCOM, before any write exchange and with INFO_VALID as it stood (R209, R210,
R211, R214, 10_state.md rule R39). -/
def Obligations.InitSynchronizesVcom : Prop :=
  ∀ (s : State) (rs : List (List Byte)), s.seq = .run .init [.hold 100, .enterPhase .identify] →
    100 ≤ s.now - s.tDelay → s.speed = .cmd → 64 ≤ s.burst → rs.length = 14 → Answered s rs →
    44 ≤ (rs.getD 1 []).length → 6 ≤ (rs.getD 13 []).length → wordOf (rs.getD 13 []) ≠ s.lat.vcfg →
    (∀ r1 r2 r3 : List Byte, s.lat.vcfg.toNat ≤ 5000 → Answered s (rs ++ [r1, r2, r3]) →
      ∃ t u : State, u = afterExchanges (afterInitExchanges s rs) (atCmd (vcomWriteFrames s.lat.vcfg) [r1, r2, r3]) ∧
        exec .init s = .next t ∧
        t = succeed (commitInfo { u with regs := { u.regs with vcomCfg := s.lat.vcfg } }) ∧
        Committed (rs.getD 1 []) t ∧ t.regs.vcomCfg = s.lat.vcfg) ∧
    (5000 < s.lat.vcfg.toNat →
      ∃ u : State, u = afterInitExchanges s rs ∧
        exec .init s =
          .next (raise (.invalidVcom s.lat.vcfg) { u with stat := { u.stat with initPhase := 6 } }))

/-- WAIT_DISPLAY_READY polls LUTAFSR: a zero ends it with success after three exchanges; a non-zero value holds it for
DRDY_POLL_MS before the next poll, or with DRDY_POLL_MS = 0 goes on to the next poll with no time passing, so that any
number of non-zero polls and then a zero one succeed in one turn long enough; once a deadline has passed, a non-zero
value ends it with TIMEOUT of the second kind, and a zero still succeeds (42_device.md rule R218, 40_framer.md rule
R158). -/
def Obligations.WaitDisplayReadyCompletes : Prop :=
  (∀ (s : State) (r1 r2 r3 : List Byte), Served s [r1, r2, r3] 9 → 6 ≤ r3.length →
    ∃ u : State, u = { afterExchanges { s with tOp := s.now } (atCmd (regReadFrames 0x1224) [r1, r2, r3]) with
               words := [wordOf r3] } ∧
      (wordOf r3 = 0 → exec .waitDisplayReady s = .next (succeed u)) ∧
      (wordOf r3 ≠ 0 → 0 < s.params.drdyPollMs →
        exec .waitDisplayReady s =
          .next
            { u with
              tDelay := s.now
              seq := .run .waitDisplayReady (.hold s.params.drdyPollMs :: lutPoll) })) ∧
  (∀ (s : State) (ms : Nat) (r1 r2 r3 : List Byte), s.seq = .run .waitDisplayReady (.hold ms :: lutPoll) →
    ms ≤ s.now - s.tDelay → s.speed = .cmd → 9 ≤ s.burst → Answered s [r1, r2, r3] → 6 ≤ r3.length →
    ∃ u : State, u = { afterExchanges s (atCmd (regReadFrames 0x1224) [r1, r2, r3]) with words := [wordOf r3] } ∧
      (wordOf r3 = 0 → exec .waitDisplayReady s = .next (succeed u)) ∧
      (wordOf r3 ≠ 0 → s.lat.dtmo ≠ 0 → s.lat.dtmo.toNat ≤ s.now - s.tOp →
        exec .waitDisplayReady s =
          .next (raise (.timeout s.lat.dtmo .displayReady (s.now - s.tOp)) u)) ∧
      (wordOf r3 ≠ 0 → s.lat.dtmo = 0 ∨ s.now - s.tOp < s.lat.dtmo.toNat → 0 < s.params.drdyPollMs →
        exec .waitDisplayReady s =
          .next
            { u with
              tDelay := s.now
              seq := .run .waitDisplayReady (.hold s.params.drdyPollMs :: lutPoll) })) ∧
  (∀ (s : State) (ps : List (List Byte × List Byte × List Byte)) (rs : List (List Byte)) (r1 r2 r3 : List Byte),
    s.params.drdyPollMs = 0 → rs = ps.flatMap (fun p => [p.1, p.2.1, p.2.2]) ++ [r1, r2, r3] →
    Served s rs (9 * (ps.length + 1)) → (∀ p ∈ ps, 6 ≤ p.2.2.length ∧ wordOf p.2.2 ≠ 0) → 6 ≤ r3.length →
    wordOf r3 = 0 →
    exec .waitDisplayReady s =
      .next (succeed
        { afterExchanges { s with tOp := s.now }
            (atCmd (List.replicate (ps.length + 1) (regReadFrames 0x1224)).flatten rs) with
          words := [wordOf r3]
          tDelay := if ps = [] then s.tDelay else s.now })) ∧
  (∀ s : State, s.seq = .run .waitDisplayReady [.lutTest] → s.params.drdyPollMs = 0 → readWord s ≠ 0 →
    s.lat.dtmo = 0 ∨ s.now - s.tOp < s.lat.dtmo.toNat →
    engineRun 3 s = { s with tDelay := s.now, seq := .run .waitDisplayReady lutPoll })

/-- FILL_AREA and CLEAR on a valid area: the load start with the 8-bpp flags word and the area, the fill words in chunks
at DATA speed, the load end; nothing but XCOUNT and the exchanges' marks changes (43_display.md rules R251 to R254). -/
def Obligations.FillsComplete : Prop :=
  ∀ (i : Instr) (v : Byte) (a : Area) (s : State) (rs : List (List Byte)), paramsOk s.params = true →
    (i = .fillArea v ∧ a = latchedArea s) ∨ (i = .clear v ∧ a = fullPanel s) →
    s.stat.infoValid = true → areaValid a s.info.panelW.toNat s.info.panelH.toNat = true →
    rs.length = 9 + ceilDiv (ceilDiv (a.w * a.h) 2) (chunkWords s.params) → Served s rs (2 * rs.length + 16) →
    exec i s =
      .next (succeed (afterExchanges s
        (imageLoadAnswers (chunkWords s.params) s.info.imgBufAddr
          [flagsWord s.params .bpp8, areaWord a.x, areaWord a.y, areaWord a.w, areaWord a.h]
          (fillWords (a.w * a.h) v) rs)))

/-- LOAD_IMAGE on a valid area with enough bytes: the load start with the format's flags word and the area, all LEN bytes
of XBUF repacked in chunks at DATA speed, the load end (R248 to R252, R257). -/
def Obligations.LoadImageCompletes : Prop :=
  ∀ (fmt : BitVec 4) (f : PixelFormat) (s : State) (rs : List (List Byte)), paramsOk s.params = true →
    pixelFormatOf fmt = some f → s.lat.bufoff.toNat + s.lat.len.toNat ≤ s.params.xbufBytes →
    s.stat.infoValid = true → areaValid (latchedArea s) s.info.panelW.toNat s.info.panelH.toNat = true →
    expectedBytes f (pixelCount (latchedArea s)) ≤ s.lat.len.toNat →
    rs.length = 9 + ceilDiv (ceilDiv s.lat.len.toNat 2) (chunkWords s.params) → Served s rs (2 * rs.length + 16) →
    exec (.loadImage fmt) s =
      .next (succeed (afterExchanges s
        (imageLoadAnswers (chunkWords s.params) s.info.imgBufAddr
          [flagsWord s.params f, s.lat.ax, s.lat.ay, s.lat.aw, s.lat.ah]
          (repack s s.lat.bufoff.toNat s.lat.len.toNat) rs)))

/-- REFRESH_AREA and REFRESH on a valid area with a legal mode: the display-area command, then the area and the mode
verbatim as one chunk at DATA speed; they end without waiting for the waveform (R255, R256, R258). -/
def Obligations.RefreshesComplete : Prop :=
  ∀ (i : Instr) (m : Word16) (a : Area) (s : State) (r1 r2 : List Byte), paramsOk s.params = true →
    (i = .refreshArea m ∧ a = latchedArea s) ∨ (i = .refresh m ∧ a = fullPanel s) → m.toNat ≤ 4 →
    s.stat.infoValid = true → areaValid a s.info.panelW.toNat s.info.panelH.toNat = true → Served s [r1, r2] 9 →
    exec i s =
      .next (succeed (afterExchanges s
        [⟨.cmd, cmdFrame 0x0034, r1⟩,
         ⟨.data, chunkFrame [areaWord a.x, areaWord a.y, areaWord a.w, areaWord a.h, m], r2⟩]))

/-! ### Errors -/

/-- Every display operation checks, in this order and before any device access: its XBUF range and INFO_VALID, then its
area, then its buffer length; the first failing check is the error (43_display.md rules R240, R241, R257, 60_exceptions.md
rule R286). -/
def Obligations.DisplayChecks : Prop :=
  ∀ (i : Instr) (a : Area) (s : State), AtStart s → operandDefect i = none →
    ((∃ v, i = .fillArea v) ∧ a = latchedArea s) ∨ ((∃ m, i = .refreshArea m) ∧ a = latchedArea s) ∨
      ((∃ v, i = .clear v) ∧ a = fullPanel s) ∨ ((∃ m, i = .refresh m) ∧ a = fullPanel s) ∨
      ((∃ fmt, i = .loadImage fmt) ∧ a = latchedArea s) →
    ((∃ fmt, i = .loadImage fmt) → s.lat.len.toNat ≠ 0 →
      s.params.xbufBytes < s.lat.bufoff.toNat + s.lat.len.toNat →
      exec i s = .next (raise (.badLength s.lat.bufoff s.lat.len) s)) ∧
    (((∃ fmt, i = .loadImage fmt) →
        s.lat.len.toNat = 0 ∨ s.lat.bufoff.toNat + s.lat.len.toNat ≤ s.params.xbufBytes) →
      (s.stat.infoValid = false → exec i s = .next (raise .notInitialized s)) ∧
      (s.stat.infoValid = true →
        (¬ (0 < a.w ∧ 0 < a.h ∧ a.x + a.w ≤ s.info.panelW.toNat ∧ a.y + a.h ≤ s.info.panelH.toNat) →
          exec i s = .next (raise (.invalidArea a.x a.y a.w a.h) s)) ∧
        (0 < a.w ∧ 0 < a.h ∧ a.x + a.w ≤ s.info.panelW.toNat ∧ a.y + a.h ≤ s.info.panelH.toNat →
          ∀ fmt f, i = .loadImage fmt → pixelFormatOf fmt = some f →
            s.lat.len.toNat < expectedBytes f (a.w * a.h) →
            exec i s = .next (raise (.dimensionMismatch s.lat.len.toNat (expectedBytes f (a.w * a.h))) s))))

/-- The batch operations check their XBUF range exactly, before any device access, and RD_DATA_BATCH its count first
(41_transport.md rules R171, R177). -/
def Obligations.BatchRangeChecks : Prop :=
  ∀ (i : Instr) (s : State), AtStart s → operandDefect i = none →
    (i = .wrDataBatch ∨ i = .rdDataBatch ∨ (∃ c, i = .wrCmdArgs c) ∨ (∃ c, i = .wrUcmdArgs c) →
      s.lat.len.toNat ≠ 0 → s.params.xbufBytes < s.lat.bufoff.toNat + 2 * s.lat.len.toNat →
      exec i s = .next (raise (.badLength s.lat.bufoff s.lat.len) s)) ∧
    (i = .rdDataBatch → rdMaxWords s.params < s.lat.len.toNat →
      exec i s = .next (raise (.badLength s.lat.bufoff s.lat.len) s))

/-- The device-access errors, each at the micro-step where it occurs: an I/O error of a sample leaves HRDY_LAST; a low
sample past the deadline times out, one before it yields, and a ready sample wins over the deadline; an I/O error of an
exchange does not count it; a short response is counted and gives PROTOCOL with the whole words received (40_framer.md
rules R140, R141, R143, R144, R148, R149, R156). -/
def Obligations.DeviceErrors : Prop :=
  ∀ (op : Instr) (m : Micro) (rest : List Micro) (s : State), s.seq = .run op (m :: rest) →
    (m = .waitReady ∨ m = .resample →
      ∃ u : State, u = { s with tWait := (if m = .waitReady then s.now else s.tWait), hrdyNo := s.hrdyNo + 1 } ∧
        (∀ code, hrdyAt s 0 = .ioerr code →
          microStep s = raise (.io code .hrdySample) { u with trace := s.trace ++ [.sampleErr code] }) ∧
        (hrdyAt s 0 = .level true →
          microStep s =
            { u with seq := .run op rest, stat := { s.stat with hrdyLast := true },
                     trace := s.trace ++ [.sample true] }) ∧
        (hrdyAt s 0 = .level false → s.lat.tmo.toNat ≤ s.now - u.tWait →
          microStep s =
            raise (.timeout s.lat.tmo .hrdyWait (s.now - u.tWait))
              { u with stat := { s.stat with hrdyLast := false }, trace := s.trace ++ [.sample false] }) ∧
        (hrdyAt s 0 = .level false → s.now - u.tWait < s.lat.tmo.toNat →
          microStep s =
            { u with seq := .run op (.delay s.params.hrdyPollMs :: .resample :: rest),
                     stat := { s.stat with hrdyLast := false }, trace := s.trace ++ [.sample false] })) ∧
    (∀ tx code, (∃ c, m = .xferCmd c ∧ tx = cmdFrame c) ∨ (∃ w, m = .xferData w ∧ tx = dataFrame w) ∨
        (∃ src k, m = .xferChunk src k ∧ tx = chunkFrame (chunkPayload s src k)) ∨
        (∃ n, m = .xferRead n ∧ tx = readFrame n) →
      busAt s 0 = .ioerr code →
      microStep s =
        raise (.io code .exchange)
          { s with busNo := s.busNo + 1, stat := { s.stat with csN := true },
                   trace := s.trace ++ [.xferErr s.speed tx code] }) ∧
    (∀ n rx, m = .xferRead n → busAt s 0 = .ok rx → rx.length < 4 + 2 * n →
      microStep s =
        raise (.protocol ((max rx.length 4 - 4) / 2) n)
          { s with busNo := s.busNo + 1, stat := { s.stat with csN := true },
                   regs := { s.regs with xcount := s.regs.xcount + 1 },
                   trace := s.trace ++ [.xfer s.speed (readFrame n) rx] })

/-- An HRDY that stays low ends any wait with TIMEOUT under the reference schedule (log 4): not before the deadline, less
than one poll interval after it, with the budget and the measured time recorded and the guarded exchange not sent
(40_framer.md rules R141, R143). The low samples asked for are those the wait takes: one each poll interval, up to the
first at or past the deadline. With HRDY_POLL_MS = 0 no Delay lets that schedule's Clock move, so a wait before its
deadline goes on through a whole turn of the Engine, unchanged but for its samples; and with any poll interval the first
low sample at or past the deadline, in whatever schedule, ends it. -/
def Obligations.NeverReadyTimesOut : Prop :=
  (∀ (s : State) (op : Instr) (rest : List Micro), s.seq = .run op (.waitReady :: rest) → s.agenda = [] →
    frameLengthOk s.params op = true → paramsOk s.params = true → 0 < s.params.hrdyPollMs →
    (∀ k, k * s.params.hrdyPollMs < s.lat.tmo.toNat + s.params.hrdyPollMs → hrdyAt s k = .level false) →
    ∃ (n e : Nat) (t : State), Host.Core.run Sys2Proof.core n s = .next t ∧
      s.lat.tmo.toNat ≤ e ∧ e < s.lat.tmo.toNat + s.params.hrdyPollMs ∧ t.now = s.now + e ∧
      t.seq = .idle ∧ t.stat.busy = false ∧ t.stat.done = true ∧ t.speed = .cmd ∧
      t.regs.errCode = 2 ∧ t.regs.errInfo0 = s.lat.tmo ∧ t.regs.errInfo1 = 0 ∧
      t.regs.errInfo2 = BitVec.ofNat 32 e ∧ t.regs.errInfo3 = 0 ∧
      t.regs.xcount = s.regs.xcount ∧ t.busNo = s.busNo ∧ t.regs.result = s.regs.result ∧ t.xbuf = s.xbuf) ∧
  (∀ (s : State) (op : Instr) (rest : List Micro), s.seq = .run op (.resample :: rest) →
    frameLengthOk s.params op = true → s.params.hrdyPollMs = 0 → s.now - s.tWait < s.lat.tmo.toNat →
    (∀ k, k ≤ s.burst → hrdyAt s k = .level false) →
    ∃ t, exec op s = .next t ∧
      t.seq ∈ [.run op (.resample :: rest), .run op (.delay 0 :: .resample :: rest),
        .run op (.hold 0 :: .resample :: rest)] ∧
      t.now = s.now ∧ t.tWait = s.tWait ∧ t.regs = s.regs ∧ t.busNo = s.busNo ∧ t.xbuf = s.xbuf ∧
      t.stat = { s.stat with hrdyLast := false }) ∧
  (∀ (s : State) (op : Instr) (rest : List Micro), frameLengthOk s.params op = true → hrdyAt s 0 = .level false →
    (s.seq = .run op (.resample :: rest) → s.lat.tmo.toNat ≤ s.now - s.tWait →
      exec op s =
        .next (raise (.timeout s.lat.tmo .hrdyWait (s.now - s.tWait))
          { s with
            hrdyNo := s.hrdyNo + 1
            stat := { s.stat with hrdyLast := false }
            trace := s.trace ++ [.sample false] })) ∧
    (s.seq = .run op (.waitReady :: rest) → s.lat.tmo = 0 →
      exec op s =
        .next (raise (.timeout 0 .hrdyWait 0)
          { s with
            tWait := s.now
            hrdyNo := s.hrdyNo + 1
            stat := { s.stat with hrdyLast := false }
            trace := s.trace ++ [.sample false] })))

/-! ### The whole machine -/

/-- Every step of every agent keeps the invariant of the engine: BUSY and the sequencer agree, CMD speed outside a bulk
write, CS_N inactive between exchanges, RESET_N low only in a reset pulse, the error registers' rules, INIT_PHASE and
INFO_VALID, both while INIT runs too, the version lengths, and XBUF's form (10_state.md rules R24, R25, R26, R29, R32,
R34, R42, 20_memory.md rule R72, 40_framer.md rules R145, R155, R163, 42_device.md rule R211, 60_exceptions.md rule
R281). -/
def Obligations.InvariantKept : Prop :=
  ∀ s t : State, Machine.Inv s → step s = .next t → Machine.Inv t

/-- The invariant holds right after reset, for all parameters. Its clauses on lengths and times hold by the zeros the model
chooses where the spec leaves a reset value unspecified (log 3). -/
def Obligations.InvariantAtReset : Prop :=
  Machine.Inv State.reset ∧ ∀ p : Params, Machine.Inv (State.afterReset p)

/-- Every step keeps the gating: in the trace, every exchange stands directly behind a ready sample of its own, Clock
steps apart (40_framer.md rules R140, R150 to R156). -/
def Obligations.ExchangesStayGated : Prop :=
  ∀ s t : State, Gated s → step s = .next t → Gated t

/-- The gating holds right after reset. -/
def Obligations.GatedAtReset : Prop :=
  Gated State.reset ∧ ∀ p : Params, Gated (State.afterReset p)

/-- XCOUNT counts the completed exchanges: over any part of an operation it grows, modulo 2^32, by the number of
completed exchanges the trace gains, failed ones and short ones told apart (40_framer.md rule R149, 10_state.md rule
R33). -/
def Obligations.XcountCountsExchanges : Prop :=
  ∀ (i : Instr) (s t : State), exec i s = .next t →
    ∃ es, t.trace = s.trace ++ es ∧ t.regs.xcount = s.regs.xcount + BitVec.ofNat 32 (es.countP isXfer)

/-- What no instruction writes: the operand registers, the deadlines, the latches, COLLIDE, `now`, the parameters, the
schedule, the scripts and what is the host's (10_state.md rules R24, R30, R36, 60_exceptions.md rule R288). -/
def Obligations.OperationsLeave : Prop :=
  ∀ (i : Instr) (s t : State), exec i s = .next t →
    t.regs.opw = s.regs.opw ∧ t.regs.arg0 = s.regs.arg0 ∧ t.regs.bufoff = s.regs.bufoff ∧ t.regs.len = s.regs.len ∧
    t.regs.areaX = s.regs.areaX ∧ t.regs.areaY = s.regs.areaY ∧ t.regs.areaW = s.regs.areaW ∧
    t.regs.areaH = s.regs.areaH ∧ t.regs.timeoutMs = s.regs.timeoutMs ∧
    t.regs.drdyTimeoutMs = s.regs.drdyTimeoutMs ∧ t.lat = s.lat ∧ t.stat.collide = s.stat.collide ∧
    t.now = s.now ∧ t.params = s.params ∧ t.agenda = s.agenda ∧ t.burst = s.burst ∧ t.hrdyScript = s.hrdyScript ∧
    t.busScript = s.busScript ∧ t.epoch = s.epoch ∧ t.raceNo = s.raceNo ∧ t.hostData = s.hostData ∧
    t.hostBytes = s.hostBytes ∧ t.hostProg = s.hostProg

/-- Each result has its writers only, in whatever turn of the operation: RESULT, XBUF, VCOM_CFG, INIT_PHASE, the
device-information file and its staging copy, INFO_VALID; and the operation still holds only what it may
(10_state.md rules R26, R29, R31, R37, R39, 20_memory.md rule R72, 42_device.md rule R200). -/
def Obligations.OperationsWriteOnlyTheirOwn : Prop :=
  ∀ (i : Instr) (s t : State), Owned s → RunsOrStarts i s → exec i s = .next t →
    Owned t ∧ RunsOrStarts i t ∧
    (i ∉ [.rdData, .rdVcom] → (∀ a, i ≠ .rdReg a) → t.regs.result = s.regs.result) ∧
    (i ≠ .rdDataBatch → t.xbuf = s.xbuf ∧ ∀ a, xbufByte t a = xbufByte s a) ∧
    (i ≠ .init → (∀ v, i ≠ .wrVcom v) → t.regs.vcomCfg = s.regs.vcomCfg) ∧
    (i ≠ .init → t.stat.initPhase = s.stat.initPhase ∧ t.info = s.info ∧ t.stg = s.stg) ∧
    (i ∉ [.init, .reset] → t.stat.infoValid = s.stat.infoValid) ∧
    (i ∉ [.init, .rdData, .rdVcom, .rdDataBatch] → (∀ a, i ≠ .rdReg a) → (∀ v, i ≠ .wrVcom v) →
      t.regs = { s.regs with
        errCode := t.regs.errCode, errInfo0 := t.regs.errInfo0, errInfo1 := t.regs.errInfo1,
        errInfo2 := t.regs.errInfo2, errInfo3 := t.regs.errInfo3, xcount := t.regs.xcount })

/-- An operation writes RESULT, XBUF, VCOM_CFG and the device-information file only once nothing is left that could fail:
a turn that ends with something else still to do, or with an error, leaves all four as they were; and an error end
leaves CMD speed, BUSY 0, DONE 1 and Idle; a failed INIT leaves INFO_VALID 0 and INIT_PHASE the failing phase, 3 to 6
(60_exceptions.md rule R284, 10_state.md rule R31, 42_device.md rule R211). -/
def Obligations.FailedOperationsWriteNothing : Prop :=
  ∀ (i : Instr) (s t : State), writesLast (todoOf s.seq) = true → s.regs.errCode = 0 → exec i s = .next t →
    writesLast (todoOf t.seq) = true ∧
    ((todoOf t.seq).all isWrite = false ∨ t.regs.errCode ≠ 0 →
      t.regs.result = s.regs.result ∧ t.xbuf = s.xbuf ∧ t.regs.vcomCfg = s.regs.vcomCfg ∧ t.info = s.info) ∧
    (t.regs.errCode ≠ 0 → t.speed = .cmd ∧ t.stat.busy = false ∧ t.stat.done = true ∧ t.seq = .idle) ∧
    (∀ todo, i = .init → s.seq = .run .init todo → Machine.Inv s → t.regs.errCode ≠ 0 →
      t.stat.infoValid = false ∧ 3 ≤ t.stat.initPhase.toNat ∧ t.stat.initPhase.toNat ≤ 6 ∧
      (s.burst = 0 → t.stat.initPhase = s.stat.initPhase ∧ s.stat.initPhase = phaseOf todo))

/-- Memory keeps its canonical form through every step, and only bytes that exist are listed (20_memory.md rule R72). -/
def Obligations.MemoryFormKept : Prop :=
  ∀ s t : State, Memory.wf s.xbuf → Memory.within s.params.xbufBytes s.xbuf → step s = .next t →
    Memory.wf t.xbuf ∧ Memory.within t.params.xbufBytes t.xbuf

/-- CLEAR is FILL_AREA of the full panel and REFRESH is REFRESH_AREA of the full panel: with the full panel latched the
two do the same, but for the name the sequencer holds (30_encoding.md rule R129). -/
def Obligations.FullPanelForms : Prop :=
  ∀ s : State, AtStart s → s.stat.infoValid = true → latchedArea s = fullPanel s →
    (∀ v, mapNext (relabel (.clear v)) (exec (.fillArea v) s) = exec (.clear v) s) ∧
    (∀ m, mapNext (relabel (.refresh m)) (exec (.refreshArea m) s) = exec (.refresh m) s)

/-! ### The Host's programs -/

/-- The Host's programs. `WAITDONE` loads STATUS and stays while BUSY reads 1. `ISSUE` stores the operands its line sets,
OPW and GO, so that the Engine is at Decode with them latched; once the Engine is idle, it leaves the loop and loads
ERR_CODE. `XPUT` puts its bytes where it says and leaves every other byte, the rest of a partly covered word included;
`XGET` reads `n` bytes back (30_encoding.md rules R126 to R128; log 24). -/
def Obligations.HostProgramsRun : Prop :=
  (∀ (s : State) (rest : List HostOp), paramsOk s.params = true → s.hostProg = .waitDone :: rest →
    hostStep s =
      .next { s with hostData := statusWord s, hostProg := if s.stat.busy then s.hostProg else rest }) ∧
  (∀ (s : State) (l : HostLine) (prog rest : List HostOp), HostRuns s → s.stat.busy = false →
    issue s.params l = some prog → s.hostProg = prog ++ rest →
    ∃ n t, Host.Core.run Sys2Proof.core n s = .next t ∧ t.seq = .decode ∧ t.stat.busy = true ∧
      encode l.instr = .opw t.lat.opw ∧
      t.lat.arg0 = l.arg0.getD s.regs.arg0 ∧ t.lat.bufoff = l.buf.getD s.regs.bufoff ∧
      t.lat.len = l.n.getD s.regs.len ∧
      (t.lat.ax, t.lat.ay, t.lat.aw, t.lat.ah) =
        l.area.getD (s.regs.areaX, s.regs.areaY, s.regs.areaW, s.regs.areaH) ∧
      t.lat.tmo = s.regs.timeoutMs ∧ t.lat.dtmo = s.regs.drdyTimeoutMs ∧ t.lat.vcfg = s.regs.vcomCfg ∧
      t.hostProg = .waitDone :: .access (load32 s.params 0x02C) :: rest ∧ t.xbuf = s.xbuf ∧ t.trace = s.trace) ∧
  (∀ (s : State) (rest : List HostOp), HostRuns s → s.stat.busy = false →
    s.hostProg = .waitDone :: .access (load32 s.params 0x02C) :: rest →
    Host.Core.run Sys2Proof.core 2 s =
      .next { s with hostData := s.regs.errCode.setWidth 32, hostProg := rest }) ∧
  (∀ (s : State) (off : Nat) (bs : List Byte) (rest : List HostOp), HostRuns s →
    off + bs.length ≤ s.params.xbufBytes → s.hostProg = xput s.params off bs ++ rest →
    ∃ n t, Host.Core.run Sys2Proof.core n s = .next t ∧
      (∀ i, off ≤ i → i < off + bs.length → xbufByte t i = bs.getD (i - off) 0) ∧
      (∀ i, i < off ∨ off + bs.length ≤ i → xbufByte t i = xbufByte s i) ∧
      t = { s with xbuf := t.xbuf, hostData := t.hostData, hostProg := rest }) ∧
  (∀ (s : State) (off n : Nat) (rest : List HostOp), HostRuns s → off + n ≤ s.params.xbufBytes →
    s.hostProg = xget off n ++ rest →
    ∃ k t, Host.Core.run Sys2Proof.core k s = .next t ∧
      t = { s with
        hostBytes := s.hostBytes ++ (List.range n).map fun i => xbufByte s (off + i)
        hostData := t.hostData
        hostProg := rest })
end

