-- ==== Sys2Proof/Laws/State.lean ====
section
/-! SUPPORT. One lemma per field per update: what each named update of the state does to each field. -/

namespace Sys2Proof.Machine

/-! ### goOn -/

@[simp] theorem goOn_regs (op : Instr) (todo : List Micro) (s : State) : (goOn op todo s).regs = s.regs := rfl
@[simp] theorem goOn_stat (op : Instr) (todo : List Micro) (s : State) : (goOn op todo s).stat = s.stat := rfl
@[simp] theorem goOn_lat (op : Instr) (todo : List Micro) (s : State) : (goOn op todo s).lat = s.lat := rfl
@[simp] theorem goOn_info (op : Instr) (todo : List Micro) (s : State) : (goOn op todo s).info = s.info := rfl
@[simp] theorem goOn_stg (op : Instr) (todo : List Micro) (s : State) : (goOn op todo s).stg = s.stg := rfl
@[simp] theorem goOn_xbuf (op : Instr) (todo : List Micro) (s : State) : (goOn op todo s).xbuf = s.xbuf := rfl
@[simp] theorem goOn_xbufRace (op : Instr) (todo : List Micro) (s : State) : (goOn op todo s).xbufRace = s.xbufRace := rfl
@[simp] theorem goOn_seq (op : Instr) (todo : List Micro) (s : State) : (goOn op todo s).seq = .run op todo := rfl
@[simp] theorem goOn_speed (op : Instr) (todo : List Micro) (s : State) : (goOn op todo s).speed = s.speed := rfl
@[simp] theorem goOn_now (op : Instr) (todo : List Micro) (s : State) : (goOn op todo s).now = s.now := rfl
@[simp] theorem goOn_tWait (op : Instr) (todo : List Micro) (s : State) : (goOn op todo s).tWait = s.tWait := rfl
@[simp] theorem goOn_tOp (op : Instr) (todo : List Micro) (s : State) : (goOn op todo s).tOp = s.tOp := rfl
@[simp] theorem goOn_tDelay (op : Instr) (todo : List Micro) (s : State) : (goOn op todo s).tDelay = s.tDelay := rfl
@[simp] theorem goOn_words (op : Instr) (todo : List Micro) (s : State) : (goOn op todo s).words = s.words := rfl
@[simp] theorem goOn_trace (op : Instr) (todo : List Micro) (s : State) : (goOn op todo s).trace = s.trace := rfl
@[simp] theorem goOn_params (op : Instr) (todo : List Micro) (s : State) : (goOn op todo s).params = s.params := rfl
@[simp] theorem goOn_agenda (op : Instr) (todo : List Micro) (s : State) : (goOn op todo s).agenda = s.agenda := rfl
@[simp] theorem goOn_burst (op : Instr) (todo : List Micro) (s : State) : (goOn op todo s).burst = s.burst := rfl
@[simp] theorem goOn_hrdyScript (op : Instr) (todo : List Micro) (s : State) : (goOn op todo s).hrdyScript = s.hrdyScript := rfl
@[simp] theorem goOn_hrdyNo (op : Instr) (todo : List Micro) (s : State) : (goOn op todo s).hrdyNo = s.hrdyNo := rfl
@[simp] theorem goOn_busScript (op : Instr) (todo : List Micro) (s : State) : (goOn op todo s).busScript = s.busScript := rfl
@[simp] theorem goOn_busNo (op : Instr) (todo : List Micro) (s : State) : (goOn op todo s).busNo = s.busNo := rfl
@[simp] theorem goOn_epoch (op : Instr) (todo : List Micro) (s : State) : (goOn op todo s).epoch = s.epoch := rfl
@[simp] theorem goOn_raceNo (op : Instr) (todo : List Micro) (s : State) : (goOn op todo s).raceNo = s.raceNo := rfl
@[simp] theorem goOn_hostData (op : Instr) (todo : List Micro) (s : State) : (goOn op todo s).hostData = s.hostData := rfl
@[simp] theorem goOn_hostBytes (op : Instr) (todo : List Micro) (s : State) : (goOn op todo s).hostBytes = s.hostBytes := rfl
@[simp] theorem goOn_hostProg (op : Instr) (todo : List Micro) (s : State) : (goOn op todo s).hostProg = s.hostProg := rfl

/-! ### record -/

@[simp] theorem record_regs (e : Event) (s : State) : (record s e).regs = s.regs := rfl
@[simp] theorem record_stat (e : Event) (s : State) : (record s e).stat = s.stat := rfl
@[simp] theorem record_lat (e : Event) (s : State) : (record s e).lat = s.lat := rfl
@[simp] theorem record_info (e : Event) (s : State) : (record s e).info = s.info := rfl
@[simp] theorem record_stg (e : Event) (s : State) : (record s e).stg = s.stg := rfl
@[simp] theorem record_xbuf (e : Event) (s : State) : (record s e).xbuf = s.xbuf := rfl
@[simp] theorem record_xbufRace (e : Event) (s : State) : (record s e).xbufRace = s.xbufRace := rfl
@[simp] theorem record_seq (e : Event) (s : State) : (record s e).seq = s.seq := rfl
@[simp] theorem record_speed (e : Event) (s : State) : (record s e).speed = s.speed := rfl
@[simp] theorem record_now (e : Event) (s : State) : (record s e).now = s.now := rfl
@[simp] theorem record_tWait (e : Event) (s : State) : (record s e).tWait = s.tWait := rfl
@[simp] theorem record_tOp (e : Event) (s : State) : (record s e).tOp = s.tOp := rfl
@[simp] theorem record_tDelay (e : Event) (s : State) : (record s e).tDelay = s.tDelay := rfl
@[simp] theorem record_words (e : Event) (s : State) : (record s e).words = s.words := rfl
@[simp] theorem record_trace (e : Event) (s : State) : (record s e).trace = s.trace ++ [e] := rfl
@[simp] theorem record_params (e : Event) (s : State) : (record s e).params = s.params := rfl
@[simp] theorem record_agenda (e : Event) (s : State) : (record s e).agenda = s.agenda := rfl
@[simp] theorem record_burst (e : Event) (s : State) : (record s e).burst = s.burst := rfl
@[simp] theorem record_hrdyScript (e : Event) (s : State) : (record s e).hrdyScript = s.hrdyScript := rfl
@[simp] theorem record_hrdyNo (e : Event) (s : State) : (record s e).hrdyNo = s.hrdyNo := rfl
@[simp] theorem record_busScript (e : Event) (s : State) : (record s e).busScript = s.busScript := rfl
@[simp] theorem record_busNo (e : Event) (s : State) : (record s e).busNo = s.busNo := rfl
@[simp] theorem record_epoch (e : Event) (s : State) : (record s e).epoch = s.epoch := rfl
@[simp] theorem record_raceNo (e : Event) (s : State) : (record s e).raceNo = s.raceNo := rfl
@[simp] theorem record_hostData (e : Event) (s : State) : (record s e).hostData = s.hostData := rfl
@[simp] theorem record_hostBytes (e : Event) (s : State) : (record s e).hostBytes = s.hostBytes := rfl
@[simp] theorem record_hostProg (e : Event) (s : State) : (record s e).hostProg = s.hostProg := rfl

/-! ### raise -/

@[simp] theorem raise_regs (e : Err) (s : State) : (raise e s).regs = { s.regs with errCode := errCodeOf e, errInfo0 := errInfo0Of e, errInfo1 := errInfo1Of e, errInfo2 := errInfo2Of e, errInfo3 := errInfo3Of e } := rfl
@[simp] theorem raise_stat (e : Err) (s : State) : (raise e s).stat = { s.stat with busy := false, done := true } := rfl
@[simp] theorem raise_lat (e : Err) (s : State) : (raise e s).lat = s.lat := rfl
@[simp] theorem raise_info (e : Err) (s : State) : (raise e s).info = s.info := rfl
@[simp] theorem raise_stg (e : Err) (s : State) : (raise e s).stg = s.stg := rfl
@[simp] theorem raise_xbuf (e : Err) (s : State) : (raise e s).xbuf = s.xbuf := rfl
@[simp] theorem raise_xbufRace (e : Err) (s : State) : (raise e s).xbufRace = [] := rfl
@[simp] theorem raise_seq (e : Err) (s : State) : (raise e s).seq = .idle := rfl
@[simp] theorem raise_speed (e : Err) (s : State) : (raise e s).speed = .cmd := rfl
@[simp] theorem raise_now (e : Err) (s : State) : (raise e s).now = s.now := rfl
@[simp] theorem raise_tWait (e : Err) (s : State) : (raise e s).tWait = s.tWait := rfl
@[simp] theorem raise_tOp (e : Err) (s : State) : (raise e s).tOp = s.tOp := rfl
@[simp] theorem raise_tDelay (e : Err) (s : State) : (raise e s).tDelay = s.tDelay := rfl
@[simp] theorem raise_words (e : Err) (s : State) : (raise e s).words = s.words := rfl
@[simp] theorem raise_trace (e : Err) (s : State) : (raise e s).trace = s.trace := rfl
@[simp] theorem raise_params (e : Err) (s : State) : (raise e s).params = s.params := rfl
@[simp] theorem raise_agenda (e : Err) (s : State) : (raise e s).agenda = s.agenda := rfl
@[simp] theorem raise_burst (e : Err) (s : State) : (raise e s).burst = s.burst := rfl
@[simp] theorem raise_hrdyScript (e : Err) (s : State) : (raise e s).hrdyScript = s.hrdyScript := rfl
@[simp] theorem raise_hrdyNo (e : Err) (s : State) : (raise e s).hrdyNo = s.hrdyNo := rfl
@[simp] theorem raise_busScript (e : Err) (s : State) : (raise e s).busScript = s.busScript := rfl
@[simp] theorem raise_busNo (e : Err) (s : State) : (raise e s).busNo = s.busNo := rfl
@[simp] theorem raise_epoch (e : Err) (s : State) : (raise e s).epoch = s.epoch := rfl
@[simp] theorem raise_raceNo (e : Err) (s : State) : (raise e s).raceNo = s.raceNo := rfl
@[simp] theorem raise_hostData (e : Err) (s : State) : (raise e s).hostData = s.hostData := rfl
@[simp] theorem raise_hostBytes (e : Err) (s : State) : (raise e s).hostBytes = s.hostBytes := rfl
@[simp] theorem raise_hostProg (e : Err) (s : State) : (raise e s).hostProg = s.hostProg := rfl

/-! ### succeed -/

@[simp] theorem succeed_regs (s : State) : (succeed s).regs = s.regs := rfl
@[simp] theorem succeed_stat (s : State) : (succeed s).stat = { s.stat with busy := false, done := true } := rfl
@[simp] theorem succeed_lat (s : State) : (succeed s).lat = s.lat := rfl
@[simp] theorem succeed_info (s : State) : (succeed s).info = s.info := rfl
@[simp] theorem succeed_stg (s : State) : (succeed s).stg = s.stg := rfl
@[simp] theorem succeed_xbuf (s : State) : (succeed s).xbuf = s.xbuf := rfl
@[simp] theorem succeed_xbufRace (s : State) : (succeed s).xbufRace = [] := rfl
@[simp] theorem succeed_seq (s : State) : (succeed s).seq = .idle := rfl
@[simp] theorem succeed_speed (s : State) : (succeed s).speed = s.speed := rfl
@[simp] theorem succeed_now (s : State) : (succeed s).now = s.now := rfl
@[simp] theorem succeed_tWait (s : State) : (succeed s).tWait = s.tWait := rfl
@[simp] theorem succeed_tOp (s : State) : (succeed s).tOp = s.tOp := rfl
@[simp] theorem succeed_tDelay (s : State) : (succeed s).tDelay = s.tDelay := rfl
@[simp] theorem succeed_words (s : State) : (succeed s).words = s.words := rfl
@[simp] theorem succeed_trace (s : State) : (succeed s).trace = s.trace := rfl
@[simp] theorem succeed_params (s : State) : (succeed s).params = s.params := rfl
@[simp] theorem succeed_agenda (s : State) : (succeed s).agenda = s.agenda := rfl
@[simp] theorem succeed_burst (s : State) : (succeed s).burst = s.burst := rfl
@[simp] theorem succeed_hrdyScript (s : State) : (succeed s).hrdyScript = s.hrdyScript := rfl
@[simp] theorem succeed_hrdyNo (s : State) : (succeed s).hrdyNo = s.hrdyNo := rfl
@[simp] theorem succeed_busScript (s : State) : (succeed s).busScript = s.busScript := rfl
@[simp] theorem succeed_busNo (s : State) : (succeed s).busNo = s.busNo := rfl
@[simp] theorem succeed_epoch (s : State) : (succeed s).epoch = s.epoch := rfl
@[simp] theorem succeed_raceNo (s : State) : (succeed s).raceNo = s.raceNo := rfl
@[simp] theorem succeed_hostData (s : State) : (succeed s).hostData = s.hostData := rfl
@[simp] theorem succeed_hostBytes (s : State) : (succeed s).hostBytes = s.hostBytes := rfl
@[simp] theorem succeed_hostProg (s : State) : (succeed s).hostProg = s.hostProg := rfl

/-! ### acceptGo -/

@[simp] theorem acceptGo_regs (s : State) : (acceptGo s).regs = { s.regs with errCode := 0, errInfo0 := 0, errInfo1 := 0, errInfo2 := 0, errInfo3 := 0, xcount := 0 } := rfl
@[simp] theorem acceptGo_stat (s : State) : (acceptGo s).stat = { s.stat with busy := true, done := false, collide := false } := rfl
@[simp] theorem acceptGo_lat (s : State) : (acceptGo s).lat = latchesOf s.regs := rfl
@[simp] theorem acceptGo_info (s : State) : (acceptGo s).info = s.info := rfl
@[simp] theorem acceptGo_stg (s : State) : (acceptGo s).stg = s.stg := rfl
@[simp] theorem acceptGo_xbuf (s : State) : (acceptGo s).xbuf = s.xbuf := rfl
@[simp] theorem acceptGo_xbufRace (s : State) : (acceptGo s).xbufRace = s.xbufRace := rfl
@[simp] theorem acceptGo_seq (s : State) : (acceptGo s).seq = .decode := rfl
@[simp] theorem acceptGo_speed (s : State) : (acceptGo s).speed = s.speed := rfl
@[simp] theorem acceptGo_now (s : State) : (acceptGo s).now = s.now := rfl
@[simp] theorem acceptGo_tWait (s : State) : (acceptGo s).tWait = s.tWait := rfl
@[simp] theorem acceptGo_tOp (s : State) : (acceptGo s).tOp = s.tOp := rfl
@[simp] theorem acceptGo_tDelay (s : State) : (acceptGo s).tDelay = s.tDelay := rfl
@[simp] theorem acceptGo_words (s : State) : (acceptGo s).words = s.words := rfl
@[simp] theorem acceptGo_trace (s : State) : (acceptGo s).trace = s.trace := rfl
@[simp] theorem acceptGo_params (s : State) : (acceptGo s).params = s.params := rfl
@[simp] theorem acceptGo_agenda (s : State) : (acceptGo s).agenda = s.agenda := rfl
@[simp] theorem acceptGo_burst (s : State) : (acceptGo s).burst = s.burst := rfl
@[simp] theorem acceptGo_hrdyScript (s : State) : (acceptGo s).hrdyScript = s.hrdyScript := rfl
@[simp] theorem acceptGo_hrdyNo (s : State) : (acceptGo s).hrdyNo = s.hrdyNo := rfl
@[simp] theorem acceptGo_busScript (s : State) : (acceptGo s).busScript = s.busScript := rfl
@[simp] theorem acceptGo_busNo (s : State) : (acceptGo s).busNo = s.busNo := rfl
@[simp] theorem acceptGo_epoch (s : State) : (acceptGo s).epoch = s.epoch := rfl
@[simp] theorem acceptGo_raceNo (s : State) : (acceptGo s).raceNo = s.raceNo := rfl
@[simp] theorem acceptGo_hostData (s : State) : (acceptGo s).hostData = s.hostData := rfl
@[simp] theorem acceptGo_hostBytes (s : State) : (acceptGo s).hostBytes = s.hostBytes := rfl
@[simp] theorem acceptGo_hostProg (s : State) : (acceptGo s).hostProg = s.hostProg := rfl

/-! ### driveReset -/

@[simp] theorem driveReset_regs (l : Bool) (s : State) : (driveReset l s).regs = s.regs := rfl
@[simp] theorem driveReset_stat (l : Bool) (s : State) : (driveReset l s).stat = { s.stat with resetN := l } := rfl
@[simp] theorem driveReset_lat (l : Bool) (s : State) : (driveReset l s).lat = s.lat := rfl
@[simp] theorem driveReset_info (l : Bool) (s : State) : (driveReset l s).info = s.info := rfl
@[simp] theorem driveReset_stg (l : Bool) (s : State) : (driveReset l s).stg = s.stg := rfl
@[simp] theorem driveReset_xbuf (l : Bool) (s : State) : (driveReset l s).xbuf = s.xbuf := rfl
@[simp] theorem driveReset_xbufRace (l : Bool) (s : State) : (driveReset l s).xbufRace = s.xbufRace := rfl
@[simp] theorem driveReset_seq (l : Bool) (s : State) : (driveReset l s).seq = s.seq := rfl
@[simp] theorem driveReset_speed (l : Bool) (s : State) : (driveReset l s).speed = s.speed := rfl
@[simp] theorem driveReset_now (l : Bool) (s : State) : (driveReset l s).now = s.now := rfl
@[simp] theorem driveReset_tWait (l : Bool) (s : State) : (driveReset l s).tWait = s.tWait := rfl
@[simp] theorem driveReset_tOp (l : Bool) (s : State) : (driveReset l s).tOp = s.tOp := rfl
@[simp] theorem driveReset_tDelay (l : Bool) (s : State) : (driveReset l s).tDelay = s.tDelay := rfl
@[simp] theorem driveReset_words (l : Bool) (s : State) : (driveReset l s).words = s.words := rfl
@[simp] theorem driveReset_trace (l : Bool) (s : State) : (driveReset l s).trace = s.trace ++ [.lineResetN l] := rfl
@[simp] theorem driveReset_params (l : Bool) (s : State) : (driveReset l s).params = s.params := rfl
@[simp] theorem driveReset_agenda (l : Bool) (s : State) : (driveReset l s).agenda = s.agenda := rfl
@[simp] theorem driveReset_burst (l : Bool) (s : State) : (driveReset l s).burst = s.burst := rfl
@[simp] theorem driveReset_hrdyScript (l : Bool) (s : State) : (driveReset l s).hrdyScript = s.hrdyScript := rfl
@[simp] theorem driveReset_hrdyNo (l : Bool) (s : State) : (driveReset l s).hrdyNo = s.hrdyNo := rfl
@[simp] theorem driveReset_busScript (l : Bool) (s : State) : (driveReset l s).busScript = s.busScript := rfl
@[simp] theorem driveReset_busNo (l : Bool) (s : State) : (driveReset l s).busNo = s.busNo := rfl
@[simp] theorem driveReset_epoch (l : Bool) (s : State) : (driveReset l s).epoch = s.epoch := rfl
@[simp] theorem driveReset_raceNo (l : Bool) (s : State) : (driveReset l s).raceNo = s.raceNo := rfl
@[simp] theorem driveReset_hostData (l : Bool) (s : State) : (driveReset l s).hostData = s.hostData := rfl
@[simp] theorem driveReset_hostBytes (l : Bool) (s : State) : (driveReset l s).hostBytes = s.hostBytes := rfl
@[simp] theorem driveReset_hostProg (l : Bool) (s : State) : (driveReset l s).hostProg = s.hostProg := rfl

/-! ### driveCs -/

@[simp] theorem driveCs_regs (l : Bool) (s : State) : (driveCs l s).regs = s.regs := rfl
@[simp] theorem driveCs_stat (l : Bool) (s : State) : (driveCs l s).stat = { s.stat with csN := l } := rfl
@[simp] theorem driveCs_lat (l : Bool) (s : State) : (driveCs l s).lat = s.lat := rfl
@[simp] theorem driveCs_info (l : Bool) (s : State) : (driveCs l s).info = s.info := rfl
@[simp] theorem driveCs_stg (l : Bool) (s : State) : (driveCs l s).stg = s.stg := rfl
@[simp] theorem driveCs_xbuf (l : Bool) (s : State) : (driveCs l s).xbuf = s.xbuf := rfl
@[simp] theorem driveCs_xbufRace (l : Bool) (s : State) : (driveCs l s).xbufRace = s.xbufRace := rfl
@[simp] theorem driveCs_seq (l : Bool) (s : State) : (driveCs l s).seq = s.seq := rfl
@[simp] theorem driveCs_speed (l : Bool) (s : State) : (driveCs l s).speed = s.speed := rfl
@[simp] theorem driveCs_now (l : Bool) (s : State) : (driveCs l s).now = s.now := rfl
@[simp] theorem driveCs_tWait (l : Bool) (s : State) : (driveCs l s).tWait = s.tWait := rfl
@[simp] theorem driveCs_tOp (l : Bool) (s : State) : (driveCs l s).tOp = s.tOp := rfl
@[simp] theorem driveCs_tDelay (l : Bool) (s : State) : (driveCs l s).tDelay = s.tDelay := rfl
@[simp] theorem driveCs_words (l : Bool) (s : State) : (driveCs l s).words = s.words := rfl
@[simp] theorem driveCs_trace (l : Bool) (s : State) : (driveCs l s).trace = s.trace := rfl
@[simp] theorem driveCs_params (l : Bool) (s : State) : (driveCs l s).params = s.params := rfl
@[simp] theorem driveCs_agenda (l : Bool) (s : State) : (driveCs l s).agenda = s.agenda := rfl
@[simp] theorem driveCs_burst (l : Bool) (s : State) : (driveCs l s).burst = s.burst := rfl
@[simp] theorem driveCs_hrdyScript (l : Bool) (s : State) : (driveCs l s).hrdyScript = s.hrdyScript := rfl
@[simp] theorem driveCs_hrdyNo (l : Bool) (s : State) : (driveCs l s).hrdyNo = s.hrdyNo := rfl
@[simp] theorem driveCs_busScript (l : Bool) (s : State) : (driveCs l s).busScript = s.busScript := rfl
@[simp] theorem driveCs_busNo (l : Bool) (s : State) : (driveCs l s).busNo = s.busNo := rfl
@[simp] theorem driveCs_epoch (l : Bool) (s : State) : (driveCs l s).epoch = s.epoch := rfl
@[simp] theorem driveCs_raceNo (l : Bool) (s : State) : (driveCs l s).raceNo = s.raceNo := rfl
@[simp] theorem driveCs_hostData (l : Bool) (s : State) : (driveCs l s).hostData = s.hostData := rfl
@[simp] theorem driveCs_hostBytes (l : Bool) (s : State) : (driveCs l s).hostBytes = s.hostBytes := rfl
@[simp] theorem driveCs_hostProg (l : Bool) (s : State) : (driveCs l s).hostProg = s.hostProg := rfl

/-! ### setSpeed -/

@[simp] theorem setSpeed_regs (sp : Speed) (s : State) : (setSpeed sp s).regs = s.regs := rfl
@[simp] theorem setSpeed_stat (sp : Speed) (s : State) : (setSpeed sp s).stat = s.stat := rfl
@[simp] theorem setSpeed_lat (sp : Speed) (s : State) : (setSpeed sp s).lat = s.lat := rfl
@[simp] theorem setSpeed_info (sp : Speed) (s : State) : (setSpeed sp s).info = s.info := rfl
@[simp] theorem setSpeed_stg (sp : Speed) (s : State) : (setSpeed sp s).stg = s.stg := rfl
@[simp] theorem setSpeed_xbuf (sp : Speed) (s : State) : (setSpeed sp s).xbuf = s.xbuf := rfl
@[simp] theorem setSpeed_xbufRace (sp : Speed) (s : State) : (setSpeed sp s).xbufRace = s.xbufRace := rfl
@[simp] theorem setSpeed_seq (sp : Speed) (s : State) : (setSpeed sp s).seq = s.seq := rfl
@[simp] theorem setSpeed_speed (sp : Speed) (s : State) : (setSpeed sp s).speed = sp := rfl
@[simp] theorem setSpeed_now (sp : Speed) (s : State) : (setSpeed sp s).now = s.now := rfl
@[simp] theorem setSpeed_tWait (sp : Speed) (s : State) : (setSpeed sp s).tWait = s.tWait := rfl
@[simp] theorem setSpeed_tOp (sp : Speed) (s : State) : (setSpeed sp s).tOp = s.tOp := rfl
@[simp] theorem setSpeed_tDelay (sp : Speed) (s : State) : (setSpeed sp s).tDelay = s.tDelay := rfl
@[simp] theorem setSpeed_words (sp : Speed) (s : State) : (setSpeed sp s).words = s.words := rfl
@[simp] theorem setSpeed_trace (sp : Speed) (s : State) : (setSpeed sp s).trace = s.trace := rfl
@[simp] theorem setSpeed_params (sp : Speed) (s : State) : (setSpeed sp s).params = s.params := rfl
@[simp] theorem setSpeed_agenda (sp : Speed) (s : State) : (setSpeed sp s).agenda = s.agenda := rfl
@[simp] theorem setSpeed_burst (sp : Speed) (s : State) : (setSpeed sp s).burst = s.burst := rfl
@[simp] theorem setSpeed_hrdyScript (sp : Speed) (s : State) : (setSpeed sp s).hrdyScript = s.hrdyScript := rfl
@[simp] theorem setSpeed_hrdyNo (sp : Speed) (s : State) : (setSpeed sp s).hrdyNo = s.hrdyNo := rfl
@[simp] theorem setSpeed_busScript (sp : Speed) (s : State) : (setSpeed sp s).busScript = s.busScript := rfl
@[simp] theorem setSpeed_busNo (sp : Speed) (s : State) : (setSpeed sp s).busNo = s.busNo := rfl
@[simp] theorem setSpeed_epoch (sp : Speed) (s : State) : (setSpeed sp s).epoch = s.epoch := rfl
@[simp] theorem setSpeed_raceNo (sp : Speed) (s : State) : (setSpeed sp s).raceNo = s.raceNo := rfl
@[simp] theorem setSpeed_hostData (sp : Speed) (s : State) : (setSpeed sp s).hostData = s.hostData := rfl
@[simp] theorem setSpeed_hostBytes (sp : Speed) (s : State) : (setSpeed sp s).hostBytes = s.hostBytes := rfl
@[simp] theorem setSpeed_hostProg (sp : Speed) (s : State) : (setSpeed sp s).hostProg = s.hostProg := rfl

/-! ### tick -/

@[simp] theorem tick_regs (s : State) : (tick s).regs = s.regs := rfl
@[simp] theorem tick_stat (s : State) : (tick s).stat = s.stat := rfl
@[simp] theorem tick_lat (s : State) : (tick s).lat = s.lat := rfl
@[simp] theorem tick_info (s : State) : (tick s).info = s.info := rfl
@[simp] theorem tick_stg (s : State) : (tick s).stg = s.stg := rfl
@[simp] theorem tick_xbuf (s : State) : (tick s).xbuf = s.xbuf := rfl
@[simp] theorem tick_xbufRace (s : State) : (tick s).xbufRace = s.xbufRace := rfl
@[simp] theorem tick_seq (s : State) : (tick s).seq = s.seq := rfl
@[simp] theorem tick_speed (s : State) : (tick s).speed = s.speed := rfl
@[simp] theorem tick_now (s : State) : (tick s).now = s.now + 1 := rfl
@[simp] theorem tick_tWait (s : State) : (tick s).tWait = s.tWait := rfl
@[simp] theorem tick_tOp (s : State) : (tick s).tOp = s.tOp := rfl
@[simp] theorem tick_tDelay (s : State) : (tick s).tDelay = s.tDelay := rfl
@[simp] theorem tick_words (s : State) : (tick s).words = s.words := rfl
@[simp] theorem tick_trace (s : State) : (tick s).trace = s.trace ++ [.tick] := rfl
@[simp] theorem tick_params (s : State) : (tick s).params = s.params := rfl
@[simp] theorem tick_agenda (s : State) : (tick s).agenda = s.agenda := rfl
@[simp] theorem tick_burst (s : State) : (tick s).burst = s.burst := rfl
@[simp] theorem tick_hrdyScript (s : State) : (tick s).hrdyScript = s.hrdyScript := rfl
@[simp] theorem tick_hrdyNo (s : State) : (tick s).hrdyNo = s.hrdyNo := rfl
@[simp] theorem tick_busScript (s : State) : (tick s).busScript = s.busScript := rfl
@[simp] theorem tick_busNo (s : State) : (tick s).busNo = s.busNo := rfl
@[simp] theorem tick_epoch (s : State) : (tick s).epoch = s.epoch := rfl
@[simp] theorem tick_raceNo (s : State) : (tick s).raceNo = s.raceNo := rfl
@[simp] theorem tick_hostData (s : State) : (tick s).hostData = s.hostData := rfl
@[simp] theorem tick_hostBytes (s : State) : (tick s).hostBytes = s.hostBytes := rfl
@[simp] theorem tick_hostProg (s : State) : (tick s).hostProg = s.hostProg := rfl

/-! ### enterPhase -/

@[simp] theorem enterPhase_regs (p : InitPhase) (s : State) : (enterPhase p s).regs = s.regs := rfl
@[simp] theorem enterPhase_stat (p : InitPhase) (s : State) : (enterPhase p s).stat = { s.stat with initPhase := phaseNumber p, infoValid := if p = .hardReset then false else s.stat.infoValid } := rfl
@[simp] theorem enterPhase_lat (p : InitPhase) (s : State) : (enterPhase p s).lat = s.lat := rfl
@[simp] theorem enterPhase_info (p : InitPhase) (s : State) : (enterPhase p s).info = s.info := rfl
@[simp] theorem enterPhase_stg (p : InitPhase) (s : State) : (enterPhase p s).stg = s.stg := rfl
@[simp] theorem enterPhase_xbuf (p : InitPhase) (s : State) : (enterPhase p s).xbuf = s.xbuf := rfl
@[simp] theorem enterPhase_xbufRace (p : InitPhase) (s : State) : (enterPhase p s).xbufRace = s.xbufRace := rfl
@[simp] theorem enterPhase_seq (p : InitPhase) (s : State) : (enterPhase p s).seq = s.seq := rfl
@[simp] theorem enterPhase_speed (p : InitPhase) (s : State) : (enterPhase p s).speed = s.speed := rfl
@[simp] theorem enterPhase_now (p : InitPhase) (s : State) : (enterPhase p s).now = s.now := rfl
@[simp] theorem enterPhase_tWait (p : InitPhase) (s : State) : (enterPhase p s).tWait = s.tWait := rfl
@[simp] theorem enterPhase_tOp (p : InitPhase) (s : State) : (enterPhase p s).tOp = s.tOp := rfl
@[simp] theorem enterPhase_tDelay (p : InitPhase) (s : State) : (enterPhase p s).tDelay = s.tDelay := rfl
@[simp] theorem enterPhase_words (p : InitPhase) (s : State) : (enterPhase p s).words = s.words := rfl
@[simp] theorem enterPhase_trace (p : InitPhase) (s : State) : (enterPhase p s).trace = s.trace := rfl
@[simp] theorem enterPhase_params (p : InitPhase) (s : State) : (enterPhase p s).params = s.params := rfl
@[simp] theorem enterPhase_agenda (p : InitPhase) (s : State) : (enterPhase p s).agenda = s.agenda := rfl
@[simp] theorem enterPhase_burst (p : InitPhase) (s : State) : (enterPhase p s).burst = s.burst := rfl
@[simp] theorem enterPhase_hrdyScript (p : InitPhase) (s : State) : (enterPhase p s).hrdyScript = s.hrdyScript := rfl
@[simp] theorem enterPhase_hrdyNo (p : InitPhase) (s : State) : (enterPhase p s).hrdyNo = s.hrdyNo := rfl
@[simp] theorem enterPhase_busScript (p : InitPhase) (s : State) : (enterPhase p s).busScript = s.busScript := rfl
@[simp] theorem enterPhase_busNo (p : InitPhase) (s : State) : (enterPhase p s).busNo = s.busNo := rfl
@[simp] theorem enterPhase_epoch (p : InitPhase) (s : State) : (enterPhase p s).epoch = s.epoch := rfl
@[simp] theorem enterPhase_raceNo (p : InitPhase) (s : State) : (enterPhase p s).raceNo = s.raceNo := rfl
@[simp] theorem enterPhase_hostData (p : InitPhase) (s : State) : (enterPhase p s).hostData = s.hostData := rfl
@[simp] theorem enterPhase_hostBytes (p : InitPhase) (s : State) : (enterPhase p s).hostBytes = s.hostBytes := rfl
@[simp] theorem enterPhase_hostProg (p : InitPhase) (s : State) : (enterPhase p s).hostProg = s.hostProg := rfl

/-! ### commitInfo -/

@[simp] theorem commitInfo_regs (s : State) : (commitInfo s).regs = s.regs := rfl
@[simp] theorem commitInfo_stat (s : State) : (commitInfo s).stat = { s.stat with initPhase := 7, infoValid := true } := rfl
@[simp] theorem commitInfo_lat (s : State) : (commitInfo s).lat = s.lat := rfl
@[simp] theorem commitInfo_info (s : State) : (commitInfo s).info = infoOfStaging s.stg := rfl
@[simp] theorem commitInfo_stg (s : State) : (commitInfo s).stg = s.stg := rfl
@[simp] theorem commitInfo_xbuf (s : State) : (commitInfo s).xbuf = s.xbuf := rfl
@[simp] theorem commitInfo_xbufRace (s : State) : (commitInfo s).xbufRace = s.xbufRace := rfl
@[simp] theorem commitInfo_seq (s : State) : (commitInfo s).seq = s.seq := rfl
@[simp] theorem commitInfo_speed (s : State) : (commitInfo s).speed = s.speed := rfl
@[simp] theorem commitInfo_now (s : State) : (commitInfo s).now = s.now := rfl
@[simp] theorem commitInfo_tWait (s : State) : (commitInfo s).tWait = s.tWait := rfl
@[simp] theorem commitInfo_tOp (s : State) : (commitInfo s).tOp = s.tOp := rfl
@[simp] theorem commitInfo_tDelay (s : State) : (commitInfo s).tDelay = s.tDelay := rfl
@[simp] theorem commitInfo_words (s : State) : (commitInfo s).words = s.words := rfl
@[simp] theorem commitInfo_trace (s : State) : (commitInfo s).trace = s.trace := rfl
@[simp] theorem commitInfo_params (s : State) : (commitInfo s).params = s.params := rfl
@[simp] theorem commitInfo_agenda (s : State) : (commitInfo s).agenda = s.agenda := rfl
@[simp] theorem commitInfo_burst (s : State) : (commitInfo s).burst = s.burst := rfl
@[simp] theorem commitInfo_hrdyScript (s : State) : (commitInfo s).hrdyScript = s.hrdyScript := rfl
@[simp] theorem commitInfo_hrdyNo (s : State) : (commitInfo s).hrdyNo = s.hrdyNo := rfl
@[simp] theorem commitInfo_busScript (s : State) : (commitInfo s).busScript = s.busScript := rfl
@[simp] theorem commitInfo_busNo (s : State) : (commitInfo s).busNo = s.busNo := rfl
@[simp] theorem commitInfo_epoch (s : State) : (commitInfo s).epoch = s.epoch := rfl
@[simp] theorem commitInfo_raceNo (s : State) : (commitInfo s).raceNo = s.raceNo := rfl
@[simp] theorem commitInfo_hostData (s : State) : (commitInfo s).hostData = s.hostData := rfl
@[simp] theorem commitInfo_hostBytes (s : State) : (commitInfo s).hostBytes = s.hostBytes := rfl
@[simp] theorem commitInfo_hostProg (s : State) : (commitInfo s).hostProg = s.hostProg := rfl

/-! ### afterExchange -/

@[simp] theorem afterExchange_regs (a : Answer) (s : State) : (afterExchange s a).regs = { s.regs with xcount := s.regs.xcount + 1 } := rfl
@[simp] theorem afterExchange_stat (a : Answer) (s : State) : (afterExchange s a).stat = { s.stat with hrdyLast := true, csN := true } := rfl
@[simp] theorem afterExchange_lat (a : Answer) (s : State) : (afterExchange s a).lat = s.lat := rfl
@[simp] theorem afterExchange_info (a : Answer) (s : State) : (afterExchange s a).info = s.info := rfl
@[simp] theorem afterExchange_stg (a : Answer) (s : State) : (afterExchange s a).stg = s.stg := rfl
@[simp] theorem afterExchange_xbuf (a : Answer) (s : State) : (afterExchange s a).xbuf = s.xbuf := rfl
@[simp] theorem afterExchange_xbufRace (a : Answer) (s : State) : (afterExchange s a).xbufRace = s.xbufRace := rfl
@[simp] theorem afterExchange_seq (a : Answer) (s : State) : (afterExchange s a).seq = s.seq := rfl
@[simp] theorem afterExchange_speed (a : Answer) (s : State) : (afterExchange s a).speed = s.speed := rfl
@[simp] theorem afterExchange_now (a : Answer) (s : State) : (afterExchange s a).now = s.now := rfl
@[simp] theorem afterExchange_tWait (a : Answer) (s : State) : (afterExchange s a).tWait = s.now := rfl
@[simp] theorem afterExchange_tOp (a : Answer) (s : State) : (afterExchange s a).tOp = s.tOp := rfl
@[simp] theorem afterExchange_tDelay (a : Answer) (s : State) : (afterExchange s a).tDelay = s.tDelay := rfl
@[simp] theorem afterExchange_words (a : Answer) (s : State) : (afterExchange s a).words = s.words := rfl
@[simp] theorem afterExchange_trace (a : Answer) (s : State) : (afterExchange s a).trace = s.trace ++ [.sample true, .xfer a.speed a.tx (a.rx.take a.tx.length)] := rfl
@[simp] theorem afterExchange_params (a : Answer) (s : State) : (afterExchange s a).params = s.params := rfl
@[simp] theorem afterExchange_agenda (a : Answer) (s : State) : (afterExchange s a).agenda = s.agenda := rfl
@[simp] theorem afterExchange_burst (a : Answer) (s : State) : (afterExchange s a).burst = s.burst := rfl
@[simp] theorem afterExchange_hrdyScript (a : Answer) (s : State) : (afterExchange s a).hrdyScript = s.hrdyScript := rfl
@[simp] theorem afterExchange_hrdyNo (a : Answer) (s : State) : (afterExchange s a).hrdyNo = s.hrdyNo + 1 := rfl
@[simp] theorem afterExchange_busScript (a : Answer) (s : State) : (afterExchange s a).busScript = s.busScript := rfl
@[simp] theorem afterExchange_busNo (a : Answer) (s : State) : (afterExchange s a).busNo = s.busNo + 1 := rfl
@[simp] theorem afterExchange_epoch (a : Answer) (s : State) : (afterExchange s a).epoch = s.epoch := rfl
@[simp] theorem afterExchange_raceNo (a : Answer) (s : State) : (afterExchange s a).raceNo = s.raceNo := rfl
@[simp] theorem afterExchange_hostData (a : Answer) (s : State) : (afterExchange s a).hostData = s.hostData := rfl
@[simp] theorem afterExchange_hostBytes (a : Answer) (s : State) : (afterExchange s a).hostBytes = s.hostBytes := rfl
@[simp] theorem afterExchange_hostProg (a : Answer) (s : State) : (afterExchange s a).hostProg = s.hostProg := rfl

end Sys2Proof.Machine
end

