-- ==== Sys2Proof/Laws/Memory.lean ====
section
/-! SUPPORT. The laws of XBUF: a read after a write, the canonical form kept by every operation, the frame of a stored
byte string. -/

namespace Sys2Proof.Machine

theorem Memory.lookup_insert (m : List Host.Cell) (a b : Nat) (v : Byte) :
    Memory.lookup (Memory.insert m a v) b = if b = a then some v else Memory.lookup m b := by
  induction m with
  | nil =>
    by_cases h : b = a
    · simp [Memory.insert, Memory.lookup, h]
    · simp [Memory.insert, Memory.lookup, h, Ne.symm h]
  | cons c rest ih =>
    obtain ⟨k, w⟩ := c
    simp only [Memory.insert]
    split
    · by_cases h : b = a
      · simp [Memory.lookup, h]
      · simp [Memory.lookup, h, Ne.symm h]
    · split
      · rename_i _ h
        subst h
        by_cases h : b = a
        · simp [Memory.lookup, h]
        · simp [Memory.lookup, h, Ne.symm h]
      · rename_i _ hk
        by_cases h : k = b
        · subst h
          simp [Memory.lookup, Ne.symm hk]
        · simp [Memory.lookup, h, ih]

theorem Memory.mem_insert {m : List Host.Cell} {a : Nat} {v : Byte} {c : Host.Cell}
    (h : c ∈ Memory.insert m a v) : c = (a, v) ∨ c ∈ m := by
  induction m with
  | nil => simpa [Memory.insert] using h
  | cons d rest ih =>
    obtain ⟨k, w⟩ := d
    simp only [Memory.insert] at h
    split at h
    · simpa using h
    · split at h
      · rcases List.mem_cons.1 h with h | h
        · exact .inl h
        · exact .inr (List.mem_cons_of_mem _ h)
      · rcases List.mem_cons.1 h with h | h
        · exact .inr (h ▸ List.mem_cons_self)
        · exact (ih h).imp id (List.mem_cons_of_mem _)

theorem Memory.insert_wf {m : List Host.Cell} (a : Nat) (v : Byte) (h : Memory.wf m) :
    Memory.wf (Memory.insert m a v) := by
  induction m with
  | nil => simp [Memory.insert, Memory.wf]
  | cons d rest ih =>
    obtain ⟨k, w⟩ := d
    rw [Memory.wf, List.pairwise_cons] at h
    simp only [Memory.insert]
    split
    · rename_i hlt
      refine List.pairwise_cons.2 ⟨fun c hc => ?_, List.pairwise_cons.2 h⟩
      rcases List.mem_cons.1 hc with rfl | hc
      · exact hlt
      · exact Nat.lt_trans hlt (h.1 c hc)
    · split
      · rename_i _ heq
        subst heq
        exact List.pairwise_cons.2 h
      · refine List.pairwise_cons.2 ⟨fun c hc => ?_, ih h.2⟩
        rcases Memory.mem_insert hc with rfl | hc
        · show k < a
          omega
        · exact h.1 c hc

theorem Memory.insert_within {m : List Host.Cell} {n a : Nat} (v : Byte) (ha : a < n)
    (h : Memory.within n m) : Memory.within n (Memory.insert m a v) := by
  intro c hc
  rcases Memory.mem_insert hc with rfl | hc
  · exact ha
  · exact h c hc

/-- All a store of one byte can do. -/
theorem xbufStore_spec (s : State) (a : Nat) (v : Byte) :
    xbufStore s a v = { s with xbuf := (xbufStore s a v).xbuf } := by
  unfold xbufStore
  split <;> rfl

theorem xbufByte_store (s : State) (a b : Nat) (v : Byte) (ha : a < s.params.xbufBytes) :
    xbufByte (xbufStore s a v) b = if b = a then v else xbufByte s b := by
  simp only [xbufByte, xbufStore, ha, if_true, Memory.lookup_insert]
  split <;> rfl

theorem xbufStore_wf {s : State} (a : Nat) (v : Byte) (h : Memory.wf s.xbuf) :
    Memory.wf (xbufStore s a v).xbuf := by
  unfold xbufStore
  split
  · exact Memory.insert_wf a v h
  · exact h

theorem xbufStore_within {s : State} (a : Nat) (v : Byte) (h : Memory.within s.params.xbufBytes s.xbuf) :
    Memory.within s.params.xbufBytes (xbufStore s a v).xbuf := by
  unfold xbufStore
  split
  · exact Memory.insert_within v ‹_› h
  · exact h

/-- All a store of a byte string can do: it changes XBUF only. -/
theorem xbufStoreBytes_spec (s : State) (a : Nat) (bs : List Byte) :
    xbufStoreBytes s a bs = { s with xbuf := (xbufStoreBytes s a bs).xbuf } := by
  induction bs generalizing s a with
  | nil => rfl
  | cons b bs ih =>
    simp only [xbufStoreBytes]
    rw [ih (xbufStore s a b) (a + 1), xbufStore_spec s a b]

theorem xbufStoreBytes_wf {s : State} (a : Nat) (bs : List Byte) (h : Memory.wf s.xbuf) :
    Memory.wf (xbufStoreBytes s a bs).xbuf := by
  induction bs generalizing s a with
  | nil => exact h
  | cons b bs ih => exact ih (s := xbufStore s a b) (a + 1) (xbufStore_wf a b h)

theorem xbufStore_params (s : State) (a : Nat) (v : Byte) : (xbufStore s a v).params = s.params := by
  rw [xbufStore_spec]

theorem xbufStoreBytes_within {s : State} (a : Nat) (bs : List Byte)
    (h : Memory.within s.params.xbufBytes s.xbuf) :
    Memory.within s.params.xbufBytes (xbufStoreBytes s a bs).xbuf := by
  induction bs generalizing s a with
  | nil => exact h
  | cons b bs ih =>
    have := ih (s := xbufStore s a b) (a + 1) (by rw [xbufStore_params]; exact xbufStore_within a b h)
    rwa [xbufStore_params] at this

/-- What XBUF reads after a byte string was stored inside it. -/
theorem xbufByte_storeBytes (s : State) (a b : Nat) (bs : List Byte)
    (hr : a + bs.length ≤ s.params.xbufBytes) :
    xbufByte (xbufStoreBytes s a bs) b =
      if a ≤ b ∧ b < a + bs.length then bs.getD (b - a) 0 else xbufByte s b := by
  induction bs generalizing s a with
  | nil =>
    have : ¬(a ≤ b ∧ b < a + ([] : List Byte).length) := by simp
    rw [if_neg this]
    rfl
  | cons c bs ih =>
    simp only [List.length_cons] at hr ⊢
    simp only [xbufStoreBytes]
    rw [ih _ _ (by rw [xbufStore_params]; omega), xbufByte_store s a b c (by omega)]
    by_cases h1 : b = a
    · subst h1
      rw [if_neg (by omega), if_pos rfl, if_pos (by omega)]
      simp
    · by_cases h2 : a + 1 ≤ b ∧ b < a + 1 + bs.length
      · rw [if_pos h2, if_pos (by omega), show b - a = b - (a + 1) + 1 by omega, List.getD_cons_succ]
      · rw [if_neg h2, if_neg h1, if_neg (by omega)]

/-! ### Raced bytes -/

@[simp] theorem chooseByte_nil (n : Nat) (v : Byte) : chooseByte n v [] = v := rfl

/-- A choice is one of the values. -/
theorem chooseByte_mem (n : Nat) (v : Byte) (ws : List Byte) : chooseByte n v ws ∈ v :: ws := by
  cases ws with
  | nil => simp
  | cons w ws =>
    have h : n % (ws.length + 2) < (v :: w :: ws).length := by
      rw [List.length_cons, List.length_cons]
      exact Nat.mod_lt _ (by omega)
    simp only [chooseByte, List.getD_eq_getElem?_getD, List.getElem?_eq_getElem h, Option.getD_some]
    exact List.getElem_mem h

theorem raceOthers_of_nil {s : State} (h : s.xbufRace = []) (a : Nat) : raceOthers s a = [] := by
  simp [raceOthers, h]

/-- Where nothing raced, the engine reads what XBUF holds. -/
theorem engineByte_of_no_race {s : State} {a : Nat} (h : raceOthers s a = []) : engineByte s a = xbufByte s a := by
  simp [engineByte, h]

/-- All a racing store of one byte can do: XBUF, in its canonical form, and the further values. -/
theorem xbufRaceStore_spec (n : Nat) (s : State) (a : Nat) (v : Byte) :
    xbufRaceStore n s a v =
      { s with
        xbuf := (xbufStore s a (chooseByte n v [xbufByte s a])).xbuf
        xbufRace := (a, v) :: (a, xbufByte s a) :: s.xbufRace } := by
  rw [xbufRaceStore, xbufStore_spec]

/-- All a store of one byte by the running operation can do. -/
theorem engineStore_spec (s : State) (a : Nat) (v : Byte) :
    ∃ w race, (w = v ∨ (raceOthers s a ≠ [] ∧ w = xbufByte s a)) ∧
      (∀ b, b ≠ a → raceOthers { s with xbufRace := race } b = raceOthers s b) ∧
      engineStore s a v = { s with xbuf := (xbufStore s a w).xbuf, xbufRace := race } := by
  unfold engineStore
  split
  · refine ⟨v, (a, xbufByte s a) :: s.xbufRace, .inl rfl, ?_, by rw [xbufStore_spec]⟩
    intro b hb
    simp [raceOthers, Ne.symm hb]
  · rename_i h
    refine ⟨_, (a, v) :: (a, xbufByte s a) :: s.xbufRace, ?_, ?_, xbufRaceStore_spec _ _ _ _⟩
    · have := chooseByte_mem (Config.freeRaceEngine s.raceNo a) v [xbufByte s a]
      simp only [List.mem_cons, List.not_mem_nil, or_false] at this
      exact this.imp_right fun e => ⟨h, e⟩
    · intro b hb
      simp [raceOthers, Ne.symm hb]

/-- All a byte string stored by the running operation can do: XBUF and the further values change. -/
theorem engineStoreBytes_spec (s : State) (a : Nat) (bs : List Byte) :
    engineStoreBytes s a bs =
      { s with xbuf := (engineStoreBytes s a bs).xbuf, xbufRace := (engineStoreBytes s a bs).xbufRace } := by
  induction bs generalizing s a with
  | nil => rfl
  | cons b bs ih =>
    obtain ⟨w, race, -, -, e⟩ := engineStore_spec s a b
    simp only [engineStoreBytes]
    rw [ih, e]

theorem engineStoreBytes_wf {s : State} (a : Nat) (bs : List Byte) (h : Memory.wf s.xbuf) :
    Memory.wf (engineStoreBytes s a bs).xbuf := by
  induction bs generalizing s a with
  | nil => exact h
  | cons b bs ih =>
    obtain ⟨w, race, -, -, e⟩ := engineStore_spec s a b
    exact ih (s := engineStore s a b) (a + 1) (by rw [e]; exact xbufStore_wf a w h)

theorem engineStoreBytes_within {s : State} (a : Nat) (bs : List Byte)
    (h : Memory.within s.params.xbufBytes s.xbuf) :
    Memory.within s.params.xbufBytes (engineStoreBytes s a bs).xbuf := by
  induction bs generalizing s a with
  | nil => exact h
  | cons b bs ih =>
    obtain ⟨w, race, -, -, e⟩ := engineStore_spec s a b
    have := ih (s := engineStore s a b) (a + 1) (by rw [e]; exact xbufStore_within a w h)
    rwa [show (engineStore s a b).params = s.params by rw [e]] at this

/-- What XBUF reads after the running operation stored a byte string inside it: a byte the host has raced on may keep its
value. -/
theorem xbufByte_engineStoreBytes (s : State) (a b : Nat) (bs : List Byte)
    (hr : a + bs.length ≤ s.params.xbufBytes) :
    (¬(a ≤ b ∧ b < a + bs.length) → xbufByte (engineStoreBytes s a bs) b = xbufByte s b) ∧
    (a ≤ b → b < a + bs.length →
      xbufByte (engineStoreBytes s a bs) b = bs.getD (b - a) 0 ∨
        (raceOthers s b ≠ [] ∧ xbufByte (engineStoreBytes s a bs) b = xbufByte s b)) := by
  induction bs generalizing s a with
  | nil => exact ⟨fun _ => rfl, fun h1 h2 => by simp at h2; omega⟩
  | cons c bs ih =>
    simp only [List.length_cons] at hr ⊢
    obtain ⟨w, race, hw, hrace, e⟩ := engineStore_spec s a c
    have hb : ∀ x, xbufByte (engineStore s a c) x = if x = a then w else xbufByte s x := by
      intro x
      rw [e, ← xbufByte_store s a x w (by omega), xbufStore_spec]
      rfl
    obtain ⟨i1, i2⟩ := ih (engineStore s a c) (a + 1) (by rw [e]; show a + 1 + bs.length ≤ s.params.xbufBytes; omega)
    simp only [engineStoreBytes]
    refine ⟨fun h => ?_, fun h1 h2 => ?_⟩
    · rw [i1 (by omega), hb, if_neg (by omega)]
    · by_cases h : b = a
      · subst h
        rw [i1 (by omega), hb, if_pos rfl, Nat.sub_self]
        exact hw
      · rw [show b - a = b - (a + 1) + 1 by omega, List.getD_cons_succ]
        refine (i2 (by omega) (by omega)).imp_right fun ⟨h3, h4⟩ => ⟨?_, by rw [h4, hb, if_neg h]⟩
        rw [← hrace b h]
        rwa [e] at h3

/-! ### Words and their bytes -/

@[simp] theorem lo8_word16 (h l : Byte) : lo8 (word16 h l) = l := by
  apply BitVec.eq_of_getLsbD_eq
  intro j hj
  simp only [lo8, word16, BitVec.getLsbD_extractLsb', hj, decide_true, Bool.true_and, Nat.zero_add,
    BitVec.getLsbD_append, if_true]

@[simp] theorem hi8_word16 (h l : Byte) : hi8 (word16 h l) = h := by
  apply BitVec.eq_of_getLsbD_eq
  intro j hj
  simp only [hi8, word16, BitVec.getLsbD_extractLsb', hj, decide_true, Bool.true_and, BitVec.getLsbD_append]
  rw [if_neg (by omega), Nat.add_sub_cancel_left]

@[simp] theorem word16_hi8_lo8 (w : Word16) : word16 (hi8 w) (lo8 w) = w := by
  apply BitVec.eq_of_getLsbD_eq
  intro j hj
  simp only [hi8, lo8, word16, BitVec.getLsbD_append, BitVec.getLsbD_extractLsb']
  by_cases h : j < 8
  · simp [h]
  · simp [h, show j - 8 < 8 by omega, show 8 + (j - 8) = j by omega]

/-- Two bytes a word. -/
theorem le16_length (ws : List Word16) : (ws.flatMap le16).length = 2 * ws.length := by
  induction ws with
  | nil => rfl
  | cons w ws ih =>
    simp [le16, ih]
    omega

/-- The bytes of word `i`, low byte first (20_memory.md rule R73). -/
theorem le16_getD (ws : List Word16) (i : Nat) (h : i < ws.length) :
    (ws.flatMap le16).getD (2 * i) 0 = lo8 (ws.getD i 0) ∧
    (ws.flatMap le16).getD (2 * i + 1) 0 = hi8 (ws.getD i 0) := by
  induction ws generalizing i with
  | nil => simp at h
  | cons w ws ih =>
    cases i with
    | zero => exact ⟨rfl, rfl⟩
    | succ i =>
      rw [show 2 * (i + 1) = 2 * i + 1 + 1 by omega]
      exact ih i (by simpa using h)

/-- Byte `i` of a 32-bit word written as its four bytes. -/
theorem byte_of_append (b3 b2 b1 b0 : Byte) (i : Nat) (h : i < 4) :
    (b3 ++ b2 ++ b1 ++ b0 : Word32).extractLsb' (8 * i) 8 = [b0, b1, b2, b3].getD i 0 := by
  apply BitVec.eq_of_getLsbD_eq
  intro j hj
  have : i = 0 ∨ i = 1 ∨ i = 2 ∨ i = 3 := by omega
  simp only [BitVec.getLsbD_extractLsb', hj, decide_true, Bool.true_and, BitVec.getLsbD_append]
  rcases this with rfl | rfl | rfl | rfl
  · rw [if_pos (by omega)]; simp
  · rw [if_neg (by omega), if_pos (by omega)]; simp
  · rw [if_neg (by omega), if_neg (by omega), if_pos (by omega), show 8 * 2 + j - 8 - 8 = j by omega]; rfl
  · rw [if_neg (by omega), if_neg (by omega), if_neg (by omega), show 8 * 3 + j - 8 - 8 - 8 = j by omega]; rfl

/-- A 32-bit word is its four bytes. -/
theorem word_of_bytes (v : Word32) :
    (v.extractLsb' 24 8 ++ v.extractLsb' 16 8 ++ v.extractLsb' 8 8 ++ v.extractLsb' 0 8 : Word32) = v := by
  apply BitVec.eq_of_getLsbD_eq
  intro j hj
  simp only [BitVec.getLsbD_append, BitVec.getLsbD_extractLsb']
  split
  · simp [*]
  · split
    · simp [*, show 8 + (j - 8) = j by omega]
    · split
      · simp [*, show 16 + (j - 8 - 8) = j by omega]
      · simp [show j - 8 - 8 - 8 < 8 by omega, show 24 + (j - 8 - 8 - 8) = j by omega]

/-- The four bytes of a 32-bit word, lowest first (20_memory.md rule R72). -/
theorem le32_getD (v : Word32) (i : Nat) (h : i < 4) : (le32 v).getD i 0 = v.extractLsb' (8 * i) 8 := by
  have : i = 0 ∨ i = 1 ∨ i = 2 ∨ i = 3 := by omega
  rcases this with rfl | rfl | rfl | rfl <;>
    (apply BitVec.eq_of_getLsbD_eq; intro j hj
     simp [le32, le16, lo16, hi16, lo8, hi8, hj, show j < 16 by omega])
  simp [show 8 + j < 16 by omega, ← Nat.add_assoc]

/-- The memory right after reset is in canonical form. -/
theorem reset_xbuf_wf : Memory.wf State.reset.xbuf := by decide

end Sys2Proof.Machine
end

