-- ==== Sys2Proof/Laws/Run.lean ====
section
/-! SUPPORT. What each shared operation can do, said once, and how a turn of the Engine unrolls: one lemma per
micro-step and per procedure of 40_framer.md. -/

namespace Sys2Proof.Machine

/-! ### Sequencer moves -/

@[simp] theorem goOn_goOn (op op' : Instr) (t t' : List Micro) (s : State) :
    goOn op t (goOn op' t' s) = goOn op t s := rfl

@[simp] theorem raise_goOn (e : Err) (op : Instr) (t : List Micro) (s : State) : raise e (goOn op t s) = raise e s := rfl

@[simp] theorem succeed_goOn (op : Instr) (t : List Micro) (s : State) : succeed (goOn op t s) = succeed s := rfl

@[simp] theorem hrdyAt_goOn (op : Instr) (t : List Micro) (s : State) (k : Nat) : hrdyAt (goOn op t s) k = hrdyAt s k := rfl

@[simp] theorem busAt_goOn (op : Instr) (t : List Micro) (s : State) (k : Nat) : busAt (goOn op t s) k = busAt s k := rfl

/-! ### Samples and exchanges: everything they can do -/

/-- The four outcomes of one HRDY sample (40_framer.md rules R140 to R144). -/
theorem sampleHrdy_cases (op : Instr) (rest : List Micro) (s : State) :
    (∃ code, hrdyAt s 0 = .ioerr code ∧
      sampleHrdy op rest s = raise (.io code .hrdySample)
        { s with hrdyNo := s.hrdyNo + 1, trace := s.trace ++ [.sampleErr code] }) ∨
    (hrdyAt s 0 = .level true ∧
      sampleHrdy op rest s = goOn op rest
        { s with hrdyNo := s.hrdyNo + 1, stat := { s.stat with hrdyLast := true },
                 trace := s.trace ++ [.sample true] }) ∨
    (hrdyAt s 0 = .level false ∧ s.lat.tmo.toNat ≤ s.now - s.tWait ∧
      sampleHrdy op rest s = raise (.timeout s.lat.tmo .hrdyWait (s.now - s.tWait))
        { s with hrdyNo := s.hrdyNo + 1, stat := { s.stat with hrdyLast := false },
                 trace := s.trace ++ [.sample false] }) ∨
    (hrdyAt s 0 = .level false ∧ s.now - s.tWait < s.lat.tmo.toNat ∧
      sampleHrdy op rest s = goOn op (.delay s.params.hrdyPollMs :: .resample :: rest)
        { s with hrdyNo := s.hrdyNo + 1, stat := { s.stat with hrdyLast := false },
                 trace := s.trace ++ [.sample false] }) := by
  unfold sampleHrdy
  cases h : hrdyAt s 0 with
  | ioerr code => exact .inl ⟨code, rfl, rfl⟩
  | level v =>
    cases v
    · by_cases ht : s.lat.tmo.toNat ≤ s.now - s.tWait
      · exact .inr (.inr (.inl ⟨rfl, ht, by simp [ht, record]⟩))
      · exact .inr (.inr (.inr ⟨rfl, by omega, by simp [ht, record]⟩))
    · exact .inr (.inl ⟨rfl, by simp [record]⟩)

/-- The two outcomes of one bus exchange (40_framer.md rules R145, R148). -/
theorem xfer_cases (tx : List Byte) (k : List Byte → State → State) (s : State) :
    (∃ code, busAt s 0 = .ioerr code ∧
      xfer tx k s = raise (.io code .exchange)
        { s with busNo := s.busNo + 1, stat := { s.stat with csN := true },
                 trace := s.trace ++ [.xferErr s.speed tx code] }) ∨
    (∃ r, busAt s 0 = .ok r ∧
      xfer tx k s = k (r.take tx.length)
        { s with busNo := s.busNo + 1, stat := { s.stat with csN := true },
                 regs := { s.regs with xcount := s.regs.xcount + 1 },
                 trace := s.trace ++ [.xfer s.speed tx (r.take tx.length)] }) := by
  unfold xfer
  cases h : busAt s 0 with
  | ioerr code => exact .inl ⟨code, rfl, rfl⟩
  | ok r => exact .inr ⟨r, rfl, rfl⟩

/-! ### Turns of the Engine -/

theorem engineRun_of_inactive {s : State} (h : active s = false) (n : Nat) : engineRun n s = s := by
  cases n <;> simp [engineRun, h]

@[simp] theorem engineRun_raise (n : Nat) (e : Err) (s : State) : engineRun n (raise e s) = raise e s :=
  engineRun_of_inactive rfl n

@[simp] theorem engineRun_succeed (n : Nat) (s : State) : engineRun n (succeed s) = succeed s :=
  engineRun_of_inactive rfl n

/-- The end of an operation's micro-steps is its success end. -/
@[simp] theorem engineRun_done (n : Nat) (op : Instr) (s : State) : engineRun (n + 1) (goOn op [] s) = succeed s := by
  have h : active (goOn op [] s) = true := rfl
  simp only [engineRun, h, if_true]
  exact engineRun_succeed n s

/-- A micro-step does not depend on the position it is taken from. -/
theorem runMicro_goOn (op : Instr) (m : Micro) (rest t : List Micro) (s : State) (hm : ∀ ms, m ≠ .hold ms) :
    runMicro op m rest (goOn op t s) = runMicro op m rest s := by
  cases m with
  | waitReady => rfl
  | resample => rfl
  | xferCmd c => rfl
  | xferData w => rfl
  | openBatch src => rfl
  | xferChunk src k =>
    simp only [runMicro]
    have h1 : chunkPayload (goOn op t s) src k = chunkPayload s src k := by
      cases src <;> rfl
    rw [h1]
    rfl
  | closeBatch => rfl
  | xferRead n => rfl
  | pulseLow => rfl
  | pulseHigh => rfl
  | delay ms => rfl
  | hold ms => exact absurd rfl (hm ms)
  | clearInfoValid => rfl
  | enterPhase p => cases p <;> rfl
  | parseDevInfo => rfl
  | vcomSync => rfl
  | setVcomCfg v => rfl
  | commit => rfl
  | setResult => rfl
  | storeWords base =>
    have h1 : ∀ (a : Nat) (b : Byte) (u : State), xbufStore (goOn op t u) a b = goOn op t (xbufStore u a b) := by
      intro a b u
      unfold xbufStore
      rw [goOn_params]
      split <;> rfl
    have h : ∀ (bs : List Byte) (a : Nat) (u : State),
        engineStoreBytes (goOn op t u) a bs = goOn op t (engineStoreBytes u a bs) := by
      intro bs
      induction bs with
      | nil => intros; rfl
      | cons b bs ih =>
        intro a u
        have h2 : engineStore (goOn op t u) a b = goOn op t (engineStore u a b) := by
          have hr : raceOthers (goOn op t u) a = raceOthers u a := rfl
          by_cases hr' : raceOthers u a = []
          · simp only [engineStore, hr, hr', if_true, h1]
            rfl
          · simp only [engineStore, hr, hr', if_false, xbufRaceStore]
            rw [show xbufByte (goOn op t u) a = xbufByte u a from rfl, goOn_raceNo, h1]
            rfl
        simp only [engineStoreBytes]
        rw [h2, ih]
    simp only [runMicro]
    have := h (s.words.flatMap le16) base s
    simp only [goOn_words, this, goOn_goOn]
  | startPoll => rfl
  | lutTest => rfl

/-- One micro-step of a turn. -/
theorem engineRun_step (n : Nat) (op : Instr) (m : Micro) (rest : List Micro) (s : State) (hm : ∀ ms, m ≠ .hold ms) :
    engineRun (n + 1) (goOn op (m :: rest) s) = engineRun n (runMicro op m rest s) := by
  have ha : active (goOn op (m :: rest) s) = true := by
    cases m <;> first | rfl | exact absurd rfl (hm _)
  simp only [engineRun, ha, if_true]
  rw [← runMicro_goOn op m rest (m :: rest) s hm]
  rfl

/-- A satisfied hold is passed in one micro-step. -/
theorem engineRun_hold_passed (n : Nat) (op : Instr) (ms : Nat) (rest : List Micro) (s : State)
    (h : ms ≤ s.now - s.tDelay) :
    engineRun (n + 1) (goOn op (.hold ms :: rest) s) = engineRun n (goOn op rest s) := by
  have : ¬ s.now - s.tDelay < ms := by omega
  simp [engineRun, active, held, microStep, runMicro, goOn, this, h]

/-- An unsatisfied hold ends the turn. -/
theorem engineRun_held (n : Nat) (op : Instr) (ms : Nat) (rest : List Micro) (s : State)
    (h : s.now - s.tDelay < ms) : engineRun n (goOn op (.hold ms :: rest) s) = goOn op (.hold ms :: rest) s :=
  engineRun_of_inactive (by simp [active, held, goOn, h]) n

/-- A delay that has time to pass ends the turn. -/
theorem engineRun_delay (n : Nat) (op : Instr) (ms : Nat) (rest : List Micro) (s : State) (h : 0 < ms) :
    engineRun (n + 1) (goOn op (.delay ms :: rest) s) = goOn op (.hold ms :: rest) { s with tDelay := s.now } := by
  rw [engineRun_step n op (.delay ms) rest s (by simp)]
  exact engineRun_held n op ms rest { s with tDelay := s.now } (by simpa using h)

/-! ### Answered exchanges -/

theorem Answered.head {s : State} {r : List Byte} {rs : List (List Byte)} (h : Answered s (r :: rs)) :
    hrdyAt s 0 = .level true ∧ busAt s 0 = .ok r :=
  h 0 (by simp)

theorem Answered.tail {s t : State} {r : List Byte} {rs : List (List Byte)} (h : Answered s (r :: rs))
    (h1 : t.hrdyNo = s.hrdyNo + 1) (h2 : t.busNo = s.busNo + 1) (h3 : t.hrdyScript = s.hrdyScript)
    (h4 : t.busScript = s.busScript) : Answered t rs := by
  intro k hk
  have := h (k + 1) (by simpa using hk)
  simp only [hrdyAt, busAt, h1, h2, h3, h4] at this ⊢
  have e1 : s.hrdyNo + 1 + k = s.hrdyNo + (k + 1) := by omega
  have e2 : s.busNo + 1 + k = s.busNo + (k + 1) := by omega
  rw [e1, e2]
  simpa using this

theorem Answered.congr {s t : State} {rs : List (List Byte)} (h : Answered s rs) (h1 : t.hrdyNo = s.hrdyNo)
    (h2 : t.busNo = s.busNo) (h3 : t.hrdyScript = s.hrdyScript) (h4 : t.busScript = s.busScript) : Answered t rs := by
  intro k hk
  have := h k hk
  simpa only [hrdyAt, busAt, h1, h2, h3, h4] using this

/-- A wait answered ready at once, and the exchange behind it. -/
theorem engineRun_wait_xfer (n : Nat) (op : Instr) (m : Micro) (rest : List Micro) (s : State) (tx rx : List Byte)
    (k : List Byte → State → State) (hm : ∀ u, runMicro op m rest u = xfer tx k u) (hh : ∀ ms, m ≠ .hold ms)
    (h1 : hrdyAt s 0 = .level true) (h2 : busAt s 0 = .ok rx) :
    engineRun (n + 2) (goOn op (.waitReady :: m :: rest) s) =
      engineRun n (k (rx.take tx.length) (afterExchange s ⟨s.speed, tx, rx⟩)) := by
  rw [show n + 2 = (n + 1) + 1 from rfl, engineRun_step (n + 1) op .waitReady (m :: rest) s (by simp)]
  have hw : runMicro op .waitReady (m :: rest) s =
      goOn op (m :: rest) { s with tWait := s.now, hrdyNo := s.hrdyNo + 1, stat := { s.stat with hrdyLast := true }, trace := s.trace ++ [.sample true] } := by
    have : hrdyAt { s with tWait := s.now } 0 = .level true := h1
    simp [runMicro, sampleHrdy, this, record]
  rw [hw, engineRun_step n op m rest _ hh, hm]
  congr 1
  simp only [xfer]
  have hb : busAt { s with tWait := s.now, hrdyNo := s.hrdyNo + 1, stat := { s.stat with hrdyLast := true }, trace := s.trace ++ [.sample true] } 0 = .ok rx := h2
  rw [hb]
  simp [driveCs, record, afterExchange, List.append_assoc]

/-- `SendCmd` (40_framer.md rule R150). -/
theorem engineRun_sendCmd (n : Nat) (op : Instr) (c : Word16) (rest : List Micro) (s : State) (rx : List Byte)
    (h1 : hrdyAt s 0 = .level true) (h2 : busAt s 0 = .ok rx) :
    engineRun (n + 2) (goOn op (sendCmd c ++ rest) s) =
      engineRun n (goOn op rest (afterExchange s ⟨s.speed, cmdFrame c, rx⟩)) :=
  engineRun_wait_xfer n op (.xferCmd c) rest s _ rx (fun _ => goOn op rest) (fun _ => rfl) (by simp) h1 h2

/-- `SendData` (R151). -/
theorem engineRun_sendData (n : Nat) (op : Instr) (w : Word16) (rest : List Micro) (s : State) (rx : List Byte)
    (h1 : hrdyAt s 0 = .level true) (h2 : busAt s 0 = .ok rx) :
    engineRun (n + 2) (goOn op (sendData w ++ rest) s) =
      engineRun n (goOn op rest (afterExchange s ⟨s.speed, dataFrame w, rx⟩)) :=
  engineRun_wait_xfer n op (.xferData w) rest s _ rx (fun _ => goOn op rest) (fun _ => rfl) (by simp) h1 h2

theorem readFrame_length (n : Nat) : (readFrame n).length = 4 + 2 * n := by
  simp [readFrame, be16]
  omega

theorem readWords_take (n : Nat) (rx : List Byte) : readWords n (rx.take (4 + 2 * n)) = readWords n rx := by
  unfold readWords
  apply List.map_congr_left
  intro i hi
  have hi : i < n := List.mem_range.1 hi
  simp only [List.getD_eq_getElem?_getD, List.getElem?_take]
  rw [if_pos (by omega), if_pos (by omega)]

/-- `ReadData` with a response that holds every word (R156). -/
theorem engineRun_readData (n : Nat) (op : Instr) (k : Nat) (rest : List Micro) (s : State) (rx : List Byte)
    (h1 : hrdyAt s 0 = .level true) (h2 : busAt s 0 = .ok rx) (hl : 4 + 2 * k ≤ rx.length) :
    engineRun (n + 2) (goOn op (readData k ++ rest) s) =
      engineRun n (goOn op rest { afterExchange s ⟨s.speed, readFrame k, rx⟩ with words := readWords k rx }) := by
  refine (engineRun_wait_xfer n op (.xferRead k) rest s _ rx (takeResponse op k rest) (fun _ => rfl) (by simp) h1 h2).trans ?_
  have : ¬ (rx.take (readFrame k).length).length < 4 + 2 * k := by
    rw [readFrame_length, List.length_take]
    omega
  simp only [takeResponse, this, if_false]
  rw [readFrame_length, readWords_take]

/-- `ReadData` with a short response (R147, R156). -/
theorem engineRun_readData_short (n : Nat) (op : Instr) (k : Nat) (rest : List Micro) (s : State) (rx : List Byte)
    (h1 : hrdyAt s 0 = .level true) (h2 : busAt s 0 = .ok rx) (hl : rx.length < 4 + 2 * k) :
    engineRun (n + 2) (goOn op (readData k ++ rest) s) =
      raise (.protocol ((max rx.length 4 - 4) / 2) k) (afterExchange s ⟨s.speed, readFrame k, rx⟩) := by
  refine (engineRun_wait_xfer n op (.xferRead k) rest s _ rx (takeResponse op k rest) (fun _ => rfl) (by simp) h1 h2).trans ?_
  have : (rx.take (readFrame k).length).length = rx.length := by
    rw [readFrame_length, List.length_take]
    omega
  simp only [takeResponse, this, hl, if_true, engineRun_raise]

@[simp] theorem afterExchanges_nil (s : State) : afterExchanges s [] = s := rfl

@[simp] theorem afterExchanges_cons (s : State) (a : Answer) (as : List Answer) :
    afterExchanges s (a :: as) = afterExchanges (afterExchange s a) as := rfl

theorem afterExchanges_append (s : State) (as bs : List Answer) :
    afterExchanges s (as ++ bs) = afterExchanges (afterExchanges s as) bs := List.foldl_append

/-! ### Procedures, composed -/

/-- `k` micro-steps take `ms` away and the state from `s` to `u`. -/
def Runs (k : Nat) (op : Instr) (ms : List Micro) (s u : State) : Prop :=
  ∀ (n : Nat) (rest : List Micro), engineRun (n + k) (goOn op (ms ++ rest) s) = engineRun n (goOn op rest u)

theorem Runs.append {k l : Nat} {op : Instr} {ms ms' : List Micro} {s u v : State} (h : Runs k op ms s u)
    (h' : Runs l op ms' u v) : Runs (k + l) op (ms ++ ms') s v := by
  intro n rest
  rw [List.append_assoc, show n + (k + l) = (n + l) + k by omega, h, h']

theorem Runs.done {k : Nat} {op : Instr} {ms : List Micro} {s u : State} (h : Runs k op ms s u) (n : Nat) (hn : k < n) :
    engineRun n (goOn op ms s) = succeed u := by
  obtain ⟨m, rfl⟩ := Nat.exists_eq_add_of_lt hn
  have := h (m + 1) []
  rw [List.append_nil, engineRun_done] at this
  rw [show k + m + 1 = m + 1 + k by omega, this]

theorem Runs.one {op : Instr} {m : Micro} {s u : State} (hm : ∀ ms, m ≠ .hold ms)
    (h : ∀ rest, runMicro op m rest s = goOn op rest u) : Runs 1 op [m] s u := by
  intro n rest
  rw [List.cons_append, List.nil_append, engineRun_step n op m rest s hm, h]

theorem runs_sendCmd (op : Instr) (c : Word16) (s : State) (rx : List Byte) (hs : s.speed = .cmd)
    (h : Answered s [rx]) : Runs 2 op (sendCmd c) s (afterExchange s ⟨.cmd, cmdFrame c, rx⟩) := by
  intro n rest
  rw [engineRun_sendCmd n op c rest s rx h.head.1 h.head.2, hs]

theorem runs_sendData (op : Instr) (w : Word16) (s : State) (rx : List Byte) (hs : s.speed = .cmd)
    (h : Answered s [rx]) : Runs 2 op (sendData w) s (afterExchange s ⟨.cmd, dataFrame w, rx⟩) := by
  intro n rest
  rw [engineRun_sendData n op w rest s rx h.head.1 h.head.2, hs]

theorem runs_readData (op : Instr) (k : Nat) (s : State) (rx : List Byte) (hs : s.speed = .cmd)
    (h : Answered s [rx]) (hl : 4 + 2 * k ≤ rx.length) :
    Runs 2 op (readData k) s { afterExchange s ⟨.cmd, readFrame k, rx⟩ with words := readWords k rx } := by
  intro n rest
  rw [engineRun_readData n op k rest s rx h.head.1 h.head.2 hl, hs]

/-- One answer of several. -/
theorem Answered.first {s : State} {r : List Byte} {rs : List (List Byte)} (h : Answered s (r :: rs)) : Answered s [r] := by
  intro k hk
  obtain rfl : k = 0 := by simpa using hk
  exact h 0 (by simp)

/-- What is left to answer after one exchange. -/
theorem Answered.rest {s : State} {r : List Byte} {rs : List (List Byte)} (a : Answer) (h : Answered s (r :: rs)) :
    Answered (afterExchange s a) rs :=
  h.tail rfl rfl rfl rfl

/-- `RegRead` (R160). -/
theorem runs_regRead (op : Instr) (a : Word16) (s : State) (r1 r2 r3 : List Byte) (hs : s.speed = .cmd)
    (h : Answered s [r1, r2, r3]) (hl : 6 ≤ r3.length) :
    Runs 6 op (regRead a) s
      { afterExchanges s (atCmd (regReadFrames a) [r1, r2, r3]) with words := readWords 1 r3 } :=
  ((runs_sendCmd op _ s r1 hs h.first).append
    (runs_sendData op a _ r2 hs (h.rest _).first)).append
    (runs_readData op 1 _ r3 hs ((h.rest _).rest _) hl)

/-- `RegWrite` (R161). -/
theorem runs_regWrite (op : Instr) (a v : Word16) (s : State) (r1 r2 r3 : List Byte) (hs : s.speed = .cmd)
    (h : Answered s [r1, r2, r3]) :
    Runs 6 op (regWrite a v) s (afterExchanges s (atCmd (regWriteFrames a v) [r1, r2, r3])) :=
  ((runs_sendCmd op _ s r1 hs h.first).append
    (runs_sendData op a _ r2 hs (h.rest _).first)).append
    (runs_sendData op v _ r3 hs ((h.rest _).rest _))

/-- `VcomRead` (42_device.md rule R212). -/
theorem runs_vcomRead (op : Instr) (s : State) (r1 r2 r3 : List Byte) (hs : s.speed = .cmd)
    (h : Answered s [r1, r2, r3]) (hl : 6 ≤ r3.length) :
    Runs 6 op vcomRead s { afterExchanges s (atCmd vcomReadFrames [r1, r2, r3]) with words := readWords 1 r3 } :=
  ((runs_sendCmd op _ s r1 hs h.first).append
    (runs_sendData op _ _ r2 hs (h.rest _).first)).append
    (runs_readData op 1 _ r3 hs ((h.rest _).rest _) hl)

/-- The exchanges of `VcomWrite` (R214). -/
theorem runs_vcomWrite (op : Instr) (v : Word16) (s : State) (r1 r2 r3 : List Byte) (hs : s.speed = .cmd)
    (h : Answered s [r1, r2, r3]) :
    Runs 6 op (vcomWrite v) s (afterExchanges s (atCmd (vcomWriteFrames v) [r1, r2, r3])) :=
  ((runs_sendCmd op _ s r1 hs h.first).append
    (runs_sendData op _ _ r2 hs (h.rest _).first)).append
    (runs_sendData op v _ r3 hs ((h.rest _).rest _))

/-- An answered run of exchanges goes on from the answers that are left. -/
theorem Answered.drop {s t : State} {rs : List (List Byte)} (m : Nat) (h : Answered s rs)
    (h1 : t.hrdyNo = s.hrdyNo + m) (h2 : t.busNo = s.busNo + m) (h3 : t.hrdyScript = s.hrdyScript)
    (h4 : t.busScript = s.busScript) : Answered t (rs.drop m) := by
  intro k hk
  rw [List.length_drop] at hk
  have := h (m + k) (by omega)
  simp only [hrdyAt, busAt, h1, h2, h3, h4] at this ⊢
  rw [Nat.add_assoc, Nat.add_assoc, List.getElem_drop]
  exact this

theorem Answered.take {s : State} {rs : List (List Byte)} (m : Nat) (h : Answered s rs) : Answered s (rs.take m) := by
  intro k hk
  have := h k (by simp at hk; omega)
  rw [List.getElem_take]
  exact this

/-- Each exchange draws one sample and one response. -/
theorem afterExchanges_draws (s : State) (as : List Answer) :
    (afterExchanges s as).hrdyNo = s.hrdyNo + as.length ∧ (afterExchanges s as).busNo = s.busNo + as.length ∧
    (afterExchanges s as).hrdyScript = s.hrdyScript ∧ (afterExchanges s as).busScript = s.busScript := by
  induction as generalizing s with
  | nil => exact ⟨rfl, rfl, rfl, rfl⟩
  | cons a as ih =>
    obtain ⟨h1, h2, h3, h4⟩ := ih (afterExchange s a)
    refine ⟨h1.trans ?_, h2.trans ?_, h3, h4⟩ <;>
    · simp [afterExchange]
      omega

/-- Exchanges leave everything but the trace, XCOUNT, HRDY_LAST, CS_N, `t_wait` and the draws. -/
theorem afterExchanges_frame (s : State) (as : List Answer) :
    (afterExchanges s as).xbuf = s.xbuf ∧ (afterExchanges s as).speed = s.speed ∧ (afterExchanges s as).lat = s.lat ∧
    (afterExchanges s as).info = s.info ∧ (afterExchanges s as).stg = s.stg ∧
    (afterExchanges s as).params = s.params ∧ (afterExchanges s as).epoch = s.epoch ∧
    (afterExchanges s as).now = s.now ∧
    (afterExchanges s as).regs = { s.regs with xcount := (afterExchanges s as).regs.xcount } := by
  induction as generalizing s with
  | nil => exact ⟨rfl, rfl, rfl, rfl, rfl, rfl, rfl, rfl, rfl⟩
  | cons a as ih =>
    obtain ⟨h1, h2, h3, h4, h5, h6, h7, h8, h9⟩ := ih (afterExchange s a)
    exact ⟨h1, h2, h3, h4, h5, h6, h7, h8, h9⟩

@[simp] theorem afterExchanges_speed (s : State) (as : List Answer) : (afterExchanges s as).speed = s.speed :=
  (afterExchanges_frame s as).2.1

@[simp] theorem afterExchanges_params (s : State) (as : List Answer) : (afterExchanges s as).params = s.params :=
  (afterExchanges_frame s as).2.2.2.2.2.1

/-- The answers that are left after a run of exchanges. -/
theorem Answered.after {s : State} {rs : List (List Byte)} (as : List Answer) (h : Answered s rs) :
    Answered (afterExchanges s as) (rs.drop as.length) :=
  h.drop as.length (afterExchanges_draws s as).1 (afterExchanges_draws s as).2.1 (afterExchanges_draws s as).2.2.1
    (afterExchanges_draws s as).2.2.2

/-- The image-buffer address, high half first (R207, 43_display.md rule R251). -/
theorem runs_writeImgBufAddr (op : Instr) (addr : Word32) (s : State) (r1 r2 r3 r4 r5 r6 : List Byte)
    (hs : s.speed = .cmd) (h : Answered s [r1, r2, r3, r4, r5, r6]) :
    Runs 12 op (writeImgBufAddr addr) s
      (afterExchanges s (atCmd (addrFrames addr) [r1, r2, r3, r4, r5, r6])) := by
  have e : atCmd (addrFrames addr) [r1, r2, r3, r4, r5, r6] =
      atCmd (regWriteFrames 0x020A (hi16 addr)) [r1, r2, r3] ++ atCmd (regWriteFrames 0x0208 (lo16 addr)) [r4, r5, r6] :=
    rfl
  rw [e, afterExchanges_append]
  exact (runs_regWrite op regLisarHigh (hi16 addr) s r1 r2 r3 hs (h.take 3)).append
    (runs_regWrite op regLisar (lo16 addr) _ r4 r5 r6 (by rw [afterExchanges_speed, hs]) (h.after _))

/-! ### The start of a turn -/

/-- A turn from Decode or from the framer. -/
theorem engineTurn_start (i : Instr) (start : State → Start) (s : State) (h : AtStart s) :
    engineTurn i start s = .next (engineRun s.burst (begin i (start s) s)) := by
  unfold engineTurn
  split
  · exact absurd ‹_› (h _ _)
  · rfl

/-- A turn from Decode. -/
theorem engineTurn_decode (i : Instr) (start : State → Start) (s : State) (h : s.seq = .decode) :
    engineTurn i start s = .next (engineRun s.burst (begin i (start s) s)) :=
  engineTurn_start i start s (by simp [AtStart, h])

/-- A turn of an operation already running. -/
theorem engineTurn_running (i : Instr) (start : State → Start) (s : State) (op : Instr) (t : List Micro)
    (h : s.seq = .run op t) : engineTurn i start s = .next (engineRun (s.burst + 1) s) := by
  unfold engineTurn
  rw [h]

/-- The three outcomes of the start of an operation. -/
theorem begin_cases (i : Instr) (start : Start) (s : State) :
    (∃ r, operandDefect i = some r ∧ begin i start s = raise (.illegalOp s.lat.opw r) s) ∨
    (∃ e, operandDefect i = none ∧ start = .error e ∧ begin i start s = raise e s) ∨
    (∃ todo, operandDefect i = none ∧ start = .ok todo ∧ begin i start s = goOn i todo s) := by
  unfold begin
  cases h : operandDefect i with
  | some r => exact .inl ⟨r, rfl, rfl⟩
  | none =>
    cases hs : start with
    | error e => exact .inr (.inl ⟨e, rfl, rfl, rfl⟩)
    | ok todo => exact .inr (.inr ⟨todo, rfl, rfl, rfl⟩)

end Sys2Proof.Machine
end

