-- ==== Sys2Proof/Laws/Turn.lean ====
section
/-! SUPPORT. What a turn of the Engine can do, said once: an instruction's start, and the induction over the
micro-steps of a turn. -/

namespace Sys2Proof.Machine

/-- The induction over a turn: what every micro-step keeps, a turn keeps. -/
theorem engineRun_induct {P : State → Prop} (hmicro : ∀ u, active u = true → P u → P (microStep u)) (n : Nat) {s : State}
    (h : P s) : P (engineRun n s) := by
  induction n generalizing s with
  | zero => exact h
  | succ n ih =>
    simp only [engineRun]
    split
    · exact ih (hmicro s ‹_› h)
    · exact h

/-- An active engine runs an operation: it has ended its micro-steps, or takes the next one. -/
theorem active_cases {s : State} (h : active s = true) :
    ∃ op todo, s.seq = .run op todo ∧
      ((todo = [] ∧ microStep s = succeed s) ∨
        ∃ m rest, todo = m :: rest ∧ microStep s = runMicro op m rest s ∧
          ∀ ms, m = .hold ms → ms ≤ s.now - s.tDelay) := by
  unfold active at h
  cases hs : s.seq with
  | idle => simp [hs] at h
  | decode => simp [hs] at h
  | wire bytes => simp [hs] at h
  | run op todo =>
    refine ⟨op, todo, rfl, ?_⟩
    cases todo with
    | nil => exact .inl ⟨rfl, by simp [microStep, hs]⟩
    | cons m rest =>
      refine .inr ⟨m, rest, rfl, by simp [microStep, hs], ?_⟩
      rintro ms rfl
      simpa [hs, held] using h

/-- The micro-steps an instruction starts with: each exchange behind a wait, only micro-steps the instruction may hold,
no later phase of INIT, and no open speed scope or reset pulse. -/
structure StartOk (i : Instr) (todo : List Micro) : Prop where
  gated : todoGated false todo = true
  owned : todo.all (mayHold i) = true
  noPhase : noLaterPhase todo = true

theorem startOk_batch (i : Instr) (src : WordSrc) : StartOk i (sendDataBatch src) := by
  unfold sendDataBatch
  split
  · exact ⟨rfl, rfl, rfl⟩
  · cases i <;> exact ⟨rfl, rfl, rfl⟩

theorem todoGated_append (b : Bool) (t u : List Micro) (h : todoGated b t = true) (hu : todoGated false u = true) :
    todoGated b (t ++ u) = true := by
  have mono : ∀ (v : List Micro), todoGated false v = true → todoGated true v = true := by
    intro v hv
    cases v with
    | nil => rfl
    | cons m v => cases m <;> simp_all [todoGated]
  induction t generalizing b with
  | nil => cases b <;> simp [hu, mono]
  | cons m t ih => cases m <;> simp_all [todoGated]

/-- A pending list that is gated without a ready sample is gated with one. -/
theorem todoGated_of_false {t : List Micro} (b : Bool) (h : todoGated false t = true) : todoGated b t = true := by
  cases b
  · exact h
  · exact todoGated_append true [] t rfl h

theorem StartOk.append {i : Instr} {t u : List Micro} (ht : StartOk i t) (hu : StartOk i u) : StartOk i (t ++ u) :=
  ⟨todoGated_append false t u ht.gated hu.gated, by simp [ht.owned, hu.owned],
    by have h1 := ht.noPhase; have h2 := hu.noPhase; simp_all [noLaterPhase, List.all_append]⟩

theorem startOk_sendCmd (i : Instr) (c : Word16) : StartOk i (sendCmd c) := by
  cases i <;> exact ⟨rfl, rfl, rfl⟩

theorem startOk_sendData (i : Instr) (w : Word16) : StartOk i (sendData w) := by
  cases i <;> exact ⟨rfl, rfl, rfl⟩

theorem startOk_readData (i : Instr) (n : Nat) : StartOk i (readData n) := by
  cases i <;> exact ⟨rfl, rfl, rfl⟩

theorem startOk_regWrite (i : Instr) (a v : Word16) : StartOk i (regWrite a v) :=
  ((startOk_sendCmd i _).append (startOk_sendData i _)).append (startOk_sendData i _)

theorem startOk_regRead (i : Instr) (a : Word16) : StartOk i (regRead a) :=
  ((startOk_sendCmd i _).append (startOk_sendData i _)).append (startOk_readData i _)

theorem startOk_cmdArgs (i : Instr) (c : Word16) (src : WordSrc) : StartOk i (sendCmdArgs c src) :=
  (startOk_sendCmd i c).append (startOk_batch i src)

theorem startOk_loadStart (i : Instr) (addr : Word32) (fl : Word16) (a : Area) : StartOk i (loadStart addr fl a) :=
  ((startOk_regWrite i _ _).append (startOk_regWrite i _ _)).append (startOk_cmdArgs i _ _)

theorem startOk_fill (i : Instr) (s : State) (a : Area) (v : Byte) : StartOk i (fillBody s a v) :=
  ((startOk_loadStart i _ _ _).append (startOk_batch i _)).append (startOk_sendCmd i _)

theorem startOk_bare (i : Instr) (ws : List Word16) : StartOk i (bareDataFrame ws) := by
  unfold bareDataFrame
  split <;> cases i <;> exact ⟨rfl, rfl, rfl⟩

/-- The checks of an operation answer an error or the micro-steps they guard. -/
theorem checkRange_ok {s : State} {n : Nat} {k : Start} {todo : List Micro} (h : checkRange s n k = .ok todo) :
    k = .ok todo := by
  unfold checkRange at h
  split at h
  · cases h
  · exact h

theorem requireInit_ok {s : State} {k : Start} {todo : List Micro} (h : requireInit s k = .ok todo) : k = .ok todo := by
  unfold requireInit at h
  split at h
  · exact h
  · cases h

theorem checkArea_ok {s : State} {a : Area} {k : Start} {todo : List Micro} (h : checkArea s a k = .ok todo) :
    k = .ok todo := by
  unfold checkArea at h
  split at h
  · exact h
  · cases h

theorem checkVcom_ok {v : Word16} {k : Start} {todo : List Micro} (h : checkVcom v k = .ok todo) : k = .ok todo := by
  unfold checkVcom at h
  split at h
  · cases h
  · exact h

theorem checkReadCount_ok {s : State} {k : Start} {todo : List Micro} (h : checkReadCount s k = .ok todo) :
    k = .ok todo := by
  unfold checkReadCount at h
  split at h
  · cases h
  · exact h

theorem checkImageLength_ok {s : State} {e : Nat} {k : Start} {todo : List Micro}
    (h : checkImageLength s e k = .ok todo) : k = .ok todo := by
  unfold checkImageLength at h
  split at h
  · cases h
  · exact h

/-- The start of each instruction: what its meaning hands to the Engine's turn. -/
def startOf : Instr → State → Start
  | .wrCmd imm, _ => .ok (sendCmd imm)
  | .wrUcmd imm, _ => .ok (sendCmd imm)
  | .wrData w, _ => .ok (sendData w)
  | .wrDataBatch, s => checkRange s (2 * s.lat.len.toNat) (.ok (sendDataBatch (latchedWords s)))
  | .rdData, _ => .ok (readData 1 ++ [.setResult])
  | .rdDataBatch, s => checkReadCount s (checkRange s (2 * s.lat.len.toNat) (.ok (readBatch s)))
  | .wrCmdArgs imm, s => checkRange s (2 * s.lat.len.toNat) (.ok (sendCmdArgs imm (latchedWords s)))
  | .wrUcmdArgs imm, s => checkRange s (2 * s.lat.len.toNat) (.ok (sendCmdArgs imm (latchedWords s)))
  | .rdReg addr, _ => .ok (regRead addr ++ [.setResult])
  | .wrReg addr, s => .ok (regWrite addr s.lat.arg0)
  | .reset, _ => .ok (.clearInfoValid :: resetPulse)
  | .init, _ => .ok [.enterPhase .hardReset]
  | .rdVcom, _ => .ok (vcomRead ++ [.setResult])
  | .wrVcom v, _ => checkVcom v (.ok (vcomWrite v ++ [.setVcomCfg v]))
  | .run, _ => .ok (sendCmd (encodeCmd .sysRun))
  | .standby, _ => .ok (sendCmd (encodeCmd .standby))
  | .sleep, _ => .ok (sendCmd (encodeCmd .sleep))
  | .waitDisplayReady, _ => .ok (.startPoll :: lutPoll)
  | .clear v, s => requireInit s (checkArea s (fullPanel s) (.ok (fillBody s (fullPanel s) v)))
  | .fillArea v, s => requireInit s (checkArea s (latchedArea s) (.ok (fillBody s (latchedArea s) v)))
  | .refresh m, s => requireInit s (checkArea s (fullPanel s) (.ok (refreshBody (fullPanel s) m)))
  | .refreshArea m, s => requireInit s (checkArea s (latchedArea s) (.ok (refreshBody (latchedArea s) m)))
  | .loadImage fmt, s =>
    match pixelFormatOf fmt with
    | some f => loadImageStart s f
    | none => .error (.illegalOp s.lat.opw 2)
  | .wireSysRun, _ => .ok (sendCmd (encodeCmd .sysRun))
  | .wireStandby, _ => .ok (sendCmd (encodeCmd .standby))
  | .wireSleep, _ => .ok (sendCmd (encodeCmd .sleep))
  | .wireRegRead, _ => .ok (sendCmd (encodeCmd .regRead))
  | .wireRegWrite, _ => .ok (sendCmd (encodeCmd .regWrite))
  | .wireMemBurstReadTrigger, _ => .ok (sendCmd (encodeCmd .memBurstReadTrigger))
  | .wireMemBurstReadStart, _ => .ok (sendCmd (encodeCmd .memBurstReadStart))
  | .wireMemBurstWrite, _ => .ok (sendCmd (encodeCmd .memBurstWrite))
  | .wireMemBurstEnd, _ => .ok (sendCmd (encodeCmd .memBurstEnd))
  | .wireLoadImage, _ => .ok (sendCmd (encodeCmd .loadImage))
  | .wireLoadImageArea, _ => .ok (sendCmd (encodeCmd .loadImageArea))
  | .wireLoadImageEnd, _ => .ok (sendCmd (encodeCmd .loadImageEnd))
  | .wireDisplayArea, _ => .ok (sendCmd (encodeUcmd .displayArea))
  | .wireDisplayBufArea, _ => .ok (sendCmd (encodeUcmd .displayBufArea))
  | .wireVcom, _ => .ok (sendCmd (encodeUcmd .vcom))
  | .wireGetDevInfo, _ => .ok (sendCmd (encodeUcmd .getDevInfo))
  | .preWriteCommand op, _ => .ok (sendCmd op)
  | .preWriteData ws, _ => .ok (bareDataFrame ws)
  | .preReadData n, _ => .ok (readData n)

/-- Every instruction is a turn of the Engine on its start. -/
theorem exec_eq (i : Instr) (s : State) (h : frameLengthOk s.params i = true) :
    exec i s = engineTurn i (startOf i) s := by
  cases i with
  | preWriteData ws => simp only [exec, execPreWriteData, h, if_true]; rfl
  | preReadData n => simp only [exec, execPreReadData, h, if_true]; rfl
  | _ => rfl

/-- A bare frame of a length the wire does not admit is refused. -/
theorem exec_refused (i : Instr) (s : State) (h : frameLengthOk s.params i = false) :
    exec i s = .refused .frameLength := by
  cases i with
  | preWriteData ws => simp [exec, execPreWriteData, h]
  | preReadData n => simp [exec, execPreReadData, h]
  | _ => simp [frameLengthOk] at h

/-- Every start is in order. -/
theorem startOf_ok {i : Instr} {s : State} {todo : List Micro} (h : startOf i s = .ok todo) : StartOk i todo := by
  have ok : ∀ (l : List Micro), StartOk i l → (Except.ok l : Start) = .ok todo → StartOk i todo := by
    intro l h e
    cases e
    exact h
  cases i with
  | wrData w => exact ok _ (startOk_sendData _ _) h
  | wrDataBatch => exact ok _ (startOk_batch _ _) (checkRange_ok h)
  | rdData => exact ok _ ((startOk_readData _ _).append ⟨rfl, rfl, rfl⟩) h
  | rdDataBatch =>
    refine ok (readBatch s) ?_ (checkRange_ok (checkReadCount_ok h))
    unfold readBatch
    split
    · exact ⟨rfl, rfl, rfl⟩
    · exact (startOk_readData _ _).append ⟨rfl, rfl, rfl⟩
  | wrCmdArgs imm => exact ok _ (startOk_cmdArgs _ _ _) (checkRange_ok h)
  | wrUcmdArgs imm => exact ok _ (startOk_cmdArgs _ _ _) (checkRange_ok h)
  | rdReg addr => exact ok _ ((startOk_regRead _ _).append ⟨rfl, rfl, rfl⟩) h
  | wrReg addr => exact ok _ (startOk_regWrite _ _ _) h
  | reset => exact ok _ ⟨rfl, rfl, rfl⟩ h
  | init => exact ok _ ⟨rfl, rfl, rfl⟩ h
  | rdVcom => exact ok _ ⟨rfl, rfl, rfl⟩ h
  | wrVcom v => exact ok _ ⟨rfl, rfl, rfl⟩ (checkVcom_ok h)
  | waitDisplayReady => exact ok _ ⟨rfl, rfl, rfl⟩ h
  | clear v => exact ok _ (startOk_fill _ _ _ _) (checkArea_ok (requireInit_ok h))
  | fillArea v => exact ok _ (startOk_fill _ _ _ _) (checkArea_ok (requireInit_ok h))
  | refresh m => exact ok _ (startOk_cmdArgs _ _ _) (checkArea_ok (requireInit_ok h))
  | refreshArea m => exact ok _ (startOk_cmdArgs _ _ _) (checkArea_ok (requireInit_ok h))
  | loadImage fmt =>
    simp only [startOf] at h
    split at h
    · refine ok _ ?_ (checkImageLength_ok (checkArea_ok (requireInit_ok (checkRange_ok h))))
      exact ((startOk_loadStart _ _ _ _).append (startOk_batch _ _)).append (startOk_sendCmd _ _)
    · cases h
  | preWriteData ws => exact ok _ (startOk_bare _ _) h
  | preReadData n => exact ok _ (startOk_readData _ _) h
  | _ => exact ok _ (startOk_sendCmd _ _) h

/-- What an instruction's next state is: the micro-steps of a turn, from its start or from where it runs. -/
theorem exec_next {i : Instr} {s t : State} (h : exec i s = .next t) :
    (∃ op todo, s.seq = .run op todo ∧ t = engineRun (s.burst + 1) s) ∨
    (AtStart s ∧
      ((∃ e, t = raise e s) ∨ ∃ todo, StartOk i todo ∧ t = engineRun s.burst (goOn i todo s))) := by
  by_cases hf : frameLengthOk s.params i = true
  · rw [exec_eq i s hf] at h
    by_cases hs : AtStart s
    · refine .inr ⟨hs, ?_⟩
      rw [engineTurn_start i _ s hs] at h
      have h : engineRun s.burst (begin i (startOf i s) s) = t := by injection h
      rcases begin_cases i (startOf i s) s with ⟨r, -, hb⟩ | ⟨e, -, -, hb⟩ | ⟨todo, -, hst, hb⟩
      · exact .inl ⟨_, by rw [← h, hb, engineRun_raise]⟩
      · exact .inl ⟨_, by rw [← h, hb, engineRun_raise]⟩
      · exact .inr ⟨todo, startOf_ok hst, by rw [← h, hb]⟩
    · simp only [AtStart, not_forall, not_not] at hs
      obtain ⟨op, todo, hs⟩ := hs
      rw [engineTurn_running i _ s op todo hs] at h
      exact .inl ⟨op, todo, hs, by injection h with h; exact h.symm⟩
  · rw [exec_refused i s (by simpa using hf)] at h
    cases h

/-- An instruction at its start, its checks passed: its micro-steps run. -/
theorem exec_start {i : Instr} {s : State} {todo : List Micro} (hs : AtStart s) (hf : frameLengthOk s.params i = true)
    (hd : operandDefect i = none) (h : startOf i s = .ok todo) :
    exec i s = .next (engineRun s.burst (goOn i todo s)) := by
  rw [exec_eq i s hf, engineTurn_start i _ s hs]
  simp only [begin, hd, h]

/-- An instruction at its start, a check failed. -/
theorem exec_error {i : Instr} {s : State} {e : Err} (hs : AtStart s) (hf : frameLengthOk s.params i = true)
    (hd : operandDefect i = none) (h : startOf i s = .error e) : exec i s = .next (raise e s) := by
  rw [exec_eq i s hf, engineTurn_start i _ s hs]
  simp [begin, hd, h]

/-- An instruction at its start, an operand illegal. -/
theorem exec_illegal {i : Instr} {s : State} {r : Nat} (hs : AtStart s) (hd : operandDefect i = some r) :
    exec i s = .next (raise (.illegalOp s.lat.opw r) s) := by
  have hf : frameLengthOk s.params i = true := by cases i <;> first | rfl | simp [operandDefect] at hd
  rw [exec_eq i s hf, engineTurn_start i _ s hs]
  simp [begin, hd]

/-- An instruction that runs. -/
theorem exec_running {i : Instr} {s : State} {op : Instr} {todo : List Micro} (hs : s.seq = .run op todo)
    (hf : frameLengthOk s.params i = true) : exec i s = .next (engineRun (s.burst + 1) s) := by
  rw [exec_eq i s hf, engineTurn_running i _ s op todo hs]

/-- What an error end, a sequencer move and every micro-step keep, an instruction keeps. -/
theorem exec_keeps {P : State → Prop} (hraise : ∀ e u, P u → P (raise e u)) (hgoOn : ∀ op t u, P u → P (goOn op t u))
    (hmicro : ∀ u, active u = true → P u → P (microStep u)) {i : Instr} {s t : State} (h : exec i s = .next t)
    (hs : P s) : P t := by
  rcases exec_next h with ⟨op, todo, -, rfl⟩ | ⟨-, ⟨e, rfl⟩ | ⟨todo, -, rfl⟩⟩
  · exact engineRun_induct hmicro _ hs
  · exact hraise e s hs
  · exact engineRun_induct hmicro _ (hgoOn _ _ _ hs)

end Sys2Proof.Machine
end

