-- ==== Sys2Proof/Laws/Batch.lean ====
section
/-! SUPPORT. The chunked bulk transfer (40_framer.md rules R152 to R155) and the image load built on it, as runs of
answered exchanges. -/

namespace Sys2Proof.Machine

/-! ### Chunks -/

theorem ceilDiv_zero (c : Nat) (hc : 0 < c) : ceilDiv 0 c = 0 := by
  unfold ceilDiv
  exact Nat.div_eq_of_lt (by omega)

theorem ceilDiv_step (n c : Nat) (hc : 0 < c) (hn : 0 < n) : ceilDiv n c = ceilDiv (n - c) c + 1 := by
  unfold ceilDiv
  by_cases h : n ≤ c
  · rw [show n - c = 0 by omega, Nat.div_eq_of_lt (show 0 + c - 1 < c by omega),
      show n + c - 1 = (n - 1) + c by omega, Nat.add_div_right _ hc, Nat.div_eq_of_lt (show n - 1 < c by omega)]
  · rw [show n + c - 1 = (n - c + c - 1) + c by omega, Nat.add_div_right _ hc]

theorem chunkList_nil (c : Nat) (hc : 0 < c) : chunkList c [] = [] := by
  simp [chunkList, ceilDiv_zero c hc]

/-- A non-empty batch is its first chunk and the batch of the rest. -/
theorem chunkList_step (c : Nat) (ws : List Word16) (hc : 0 < c) (hw : ws ≠ []) :
    chunkList c ws = ws.take c :: chunkList c (ws.drop c) := by
  have hl : 0 < ws.length := List.length_pos_iff.2 hw
  unfold chunkList
  rw [ceilDiv_step ws.length c hc hl, List.range_succ_eq_map, List.map_cons, List.map_map, List.length_drop]
  congr 1
  · simp
  · apply List.map_congr_left
    intro j _
    simp only [Function.comp, List.drop_drop, Nat.succ_eq_add_one]
    congr 2
    rw [Nat.add_mul]
    omega

@[simp] theorem srcWords_length (s : State) (src : WordSrc) : (srcWords s src).length = srcCount src := by
  simp [srcWords]

/-- A chunk carries the next words of its source. -/
theorem chunkPayload_eq (s : State) (src : WordSrc) (k : Nat) :
    chunkPayload s src k = ((srcWords s src).drop k).take (chunkWords s.params) := by
  apply List.ext_getElem?
  intro j
  simp only [chunkPayload, srcWords, List.getElem?_map, List.getElem?_take, List.getElem?_drop, chunkSize]
  by_cases h : j < min (chunkWords s.params) (srcCount src - k)
  · rw [List.getElem?_range h, if_pos (by omega), List.getElem?_range (by omega)]
    rfl
  · rw [List.getElem?_eq_none (by rw [List.length_range]; omega)]
    split
    · rw [List.getElem?_eq_none (by simp; omega)]
      rfl
    · rfl

/-- The words of a source do not depend on what an exchange changes. -/
theorem srcWords_afterExchange (s : State) (a : Answer) (src : WordSrc) :
    srcWords (afterExchange s a) src = srcWords s src := by
  cases src <;> rfl

theorem srcWords_speed (s : State) (sp : Speed) (src : WordSrc) :
    srcWords { s with speed := sp } src = srcWords s src := by
  cases src <;> rfl

/-- One chunk: its wait and its exchange (R152). -/
theorem engineRun_chunk (n : Nat) (op : Instr) (src : WordSrc) (k : Nat) (rest : List Micro) (s : State) (r : List Byte)
    (h1 : hrdyAt s 0 = .level true) (h2 : busAt s 0 = .ok r) :
    engineRun (n + 2) (goOn op (.waitReady :: .xferChunk src k :: rest) s) =
      engineRun n (goOn op (afterChunk s.params src k ++ rest)
        (afterExchange s ⟨s.speed, chunkFrame (chunkPayload s src k), r⟩)) := by
  rw [show n + 2 = (n + 1) + 1 from rfl, engineRun_step (n + 1) op .waitReady (.xferChunk src k :: rest) s (by simp)]
  have hw : runMicro op .waitReady (.xferChunk src k :: rest) s =
      goOn op (.xferChunk src k :: rest)
        { s with tWait := s.now, hrdyNo := s.hrdyNo + 1, stat := { s.stat with hrdyLast := true },
                 trace := s.trace ++ [.sample true] } := by
    have : hrdyAt { s with tWait := s.now } 0 = .level true := h1
    simp [runMicro, sampleHrdy, this, record]
  rw [hw, engineRun_step n op (.xferChunk src k) rest _ (by simp)]
  congr 1
  have hp : chunkPayload
      { s with tWait := s.now, hrdyNo := s.hrdyNo + 1, stat := { s.stat with hrdyLast := true },
               trace := s.trace ++ [.sample true] } src k = chunkPayload s src k := by
    cases src <;> rfl
  have hb : busAt
      { s with tWait := s.now, hrdyNo := s.hrdyNo + 1, stat := { s.stat with hrdyLast := true },
               trace := s.trace ++ [.sample true] } 0 = .ok r := h2
  simp only [runMicro, hp, xfer, hb]
  simp [driveCs, record, afterExchange, List.append_assoc]

/-- The chunks of a batch from word `k` on, each behind its own wait, up to the close of the speed scope. -/
theorem engineRun_chunks (n : Nat) (op : Instr) (src : WordSrc) (rest : List Micro) (rs : List (List Byte)) (k : Nat)
    (s : State) (hc : 0 < chunkWords s.params) (hk : k < srcCount src)
    (hl : rs.length = ceilDiv (srcCount src - k) (chunkWords s.params)) (h : Answered s rs) :
    engineRun (n + 2 * rs.length) (goOn op (.waitReady :: .xferChunk src k :: rest) s) =
      engineRun n (goOn op (.closeBatch :: rest)
        (afterExchanges s
          (List.zipWith (fun chunk rx => ⟨s.speed, chunkFrame chunk, rx⟩)
            (chunkList (chunkWords s.params) ((srcWords s src).drop k)) rs))) := by
  induction rs generalizing s k with
  | nil =>
    rw [ceilDiv_step _ _ hc (by omega)] at hl
    simp at hl
  | cons r rs ih =>
    have hne : (srcWords s src).drop k ≠ [] := by
      rw [← List.length_pos_iff, List.length_drop, srcWords_length]
      omega
    rw [chunkList_step _ _ hc hne, List.zipWith_cons_cons, afterExchanges, List.foldl_cons]
    rw [show n + 2 * (r :: rs).length = (n + 2 * rs.length) + 2 by simp; omega]
    rw [engineRun_chunk _ op src k rest s r h.head.1 h.head.2, ← chunkPayload_eq]
    have htail : Answered (afterExchange s ⟨s.speed, chunkFrame (chunkPayload s src k), r⟩) rs :=
      h.tail rfl rfl rfl rfl
    have hstep := ceilDiv_step (srcCount src - k) (chunkWords s.params) hc (by omega)
    simp only [List.length_cons] at hl
    by_cases hm : k + chunkSize s.params src k < srcCount src
    · have hsz : chunkSize s.params src k = chunkWords s.params := by
        unfold chunkSize at hm ⊢
        omega
      have hak : afterChunk s.params src k ++ rest =
          .waitReady :: .xferChunk src (k + chunkWords s.params) :: rest := by
        unfold afterChunk
        rw [if_pos hm, hsz]
        rfl
      rw [hak, ih (k + chunkWords s.params)
        (afterExchange s ⟨s.speed, chunkFrame (chunkPayload s src k), r⟩) hc (by omega) ?_ htail]
      · rw [srcWords_afterExchange, List.drop_drop]
        rfl
      · show rs.length = ceilDiv (srcCount src - (k + chunkWords s.params)) (chunkWords s.params)
        rw [show srcCount src - (k + chunkWords s.params) = srcCount src - k - chunkWords s.params by omega]
        omega
    · have hend : srcCount src - k ≤ chunkWords s.params := by
        unfold chunkSize at hm
        omega
      have hz : rs = [] := by
        rw [show srcCount src - k - chunkWords s.params = 0 by omega, ceilDiv_zero _ hc] at hstep
        exact List.eq_nil_of_length_eq_zero (by omega)
      have hak : afterChunk s.params src k ++ rest = .closeBatch :: rest := by
        unfold afterChunk
        rw [if_neg hm]
        rfl
      subst hz
      rw [hak, List.zipWith_nil_right]
      rfl

/-- `SendDataBatch` (R152): the speed scope around its chunks; nothing at all for no words (R154). -/
theorem engineRun_batch (n : Nat) (op : Instr) (src : WordSrc) (rest : List Micro) (rs : List (List Byte)) (s : State)
    (hc : 0 < chunkWords s.params) (hs : s.speed = .cmd)
    (hl : rs.length = ceilDiv (srcCount src) (chunkWords s.params)) (h : Answered s rs) :
    engineRun (n + (2 * rs.length + 2)) (goOn op (sendDataBatch src ++ rest) s) =
      engineRun (if srcCount src = 0 then n + 2 else n) (goOn op rest
        (afterExchanges s (batchAnswers (chunkWords s.params) (srcWords s src) rs))) := by
  by_cases hz : srcCount src = 0
  · rw [hz, ceilDiv_zero _ hc] at hl
    have : rs = [] := List.eq_nil_of_length_eq_zero hl
    subst this
    have hw : srcWords s src = [] := List.eq_nil_of_length_eq_zero (by simp [hz])
    simp [sendDataBatch, hz, hw, batchAnswers]
  · rw [if_neg hz, sendDataBatch, if_neg hz, List.cons_append, List.nil_append,
      show n + (2 * rs.length + 2) = (n + 1 + 2 * rs.length) + 1 by omega, engineRun_step _ _ _ _ _ (by simp)]
    simp only [runMicro]
    rw [engineRun_chunks (n + 1) op src rest rs 0 (setSpeed .data s) hc (by omega) (by simpa using hl)
      (h.congr rfl rfl rfl rfl), engineRun_step _ _ _ _ _ (by simp)]
    simp only [runMicro, List.drop_zero]
    congr 2
    have hsp : ∀ (as : List Answer) (u : State), u.speed = .cmd →
        setSpeed .cmd (afterExchanges (setSpeed .data u) as) = afterExchanges u as := by
      intro as
      induction as with
      | nil =>
        intro u hu
        cases u
        simp_all [setSpeed, afterExchanges]
      | cons a as ih =>
        intro u hu
        exact ih (afterExchange u a) hu
    rw [show srcWords (setSpeed .data s) src = srcWords s src from srcWords_speed s .data src]
    exact hsp _ s hs

/-! ### Image loads -/

theorem ceilDiv_le {n c : Nat} (h : 0 < n) (hc : n ≤ c) : Sys2Proof.ceilDiv n c = 1 := by
  rw [ceilDiv_step _ _ (by omega) h, show n - c = 0 by omega, ceilDiv_zero _ (by omega)]

/-- Words that fit one chunk are one chunk. -/
theorem chunkList_one (c : Nat) (ws : List Word16) (hc : ws.length ≤ c) (hw : ws ≠ []) : chunkList c ws = [ws] := by
  have : 0 < ws.length := List.length_pos_iff.2 hw
  rw [chunkList_step _ _ (by omega) hw, List.take_of_length_le hc, List.drop_of_length_le hc, chunkList_nil _ (by omega)]

theorem srcWords_lit (s : State) (ws : List Word16) : srcWords s (.lit ws) = ws := by
  apply List.ext_getElem?
  intro j
  simp only [srcWords, srcCount, List.getElem?_map]
  by_cases h : j < ws.length
  · rw [List.getElem?_range h]
    simp [h, srcWord]
  · rw [List.getElem?_eq_none (by rw [List.length_range]; omega)]
    simp at h
    simp [h]

/-- Exchanges leave the words of a source as they are, raced bytes included. -/
theorem srcWords_afterExchanges (s : State) (as : List Answer) (src : WordSrc) :
    srcWords (afterExchanges s as) src = srcWords s src := by
  induction as generalizing s with
  | nil => rfl
  | cons a as ih => rw [afterExchanges_cons, ih, srcWords_afterExchange]

/-- A batch of at least one word. -/
theorem runs_batch (op : Instr) (src : WordSrc) (s : State) (rs : List (List Byte)) (hc : 0 < chunkWords s.params)
    (hs : s.speed = .cmd) (hp : srcCount src ≠ 0) (hl : rs.length = ceilDiv (srcCount src) (chunkWords s.params))
    (h : Answered s rs) :
    Runs (2 * rs.length + 2) op (sendDataBatch src) s
      (afterExchanges s (batchAnswers (chunkWords s.params) (srcWords s src) rs)) := by
  intro n rest
  rw [engineRun_batch n op src rest rs s hc hs hl h, if_neg hp]

/-- Argument words that fit one chunk. -/
theorem runs_lit (op : Instr) (ws : List Word16) (s : State) (r : List Byte) (hs : s.speed = .cmd)
    (hw : ws ≠ []) (hc : ws.length ≤ chunkWords s.params) (h : Answered s [r]) :
    Runs 4 op (sendDataBatch (.lit ws)) s (afterExchange s ⟨.data, chunkFrame ws, r⟩) := by
  have hpos : 0 < ws.length := List.length_pos_iff.2 hw
  have := runs_batch op (.lit ws) s [r] (by omega) hs (by simp only [srcCount]; omega)
    (ceilDiv_le (n := ws.length) hpos hc).symm h
  rw [srcWords_lit, batchAnswers, chunkList_one _ _ hc hw] at this
  exact this

/-- `LoadStart` (43_display.md rule R251). -/
theorem runs_loadStart (op : Instr) (addr : Word32) (fl : Word16) (a : Area) (s : State)
    (r1 r2 r3 r4 r5 r6 r7 r8 : List Byte) (hc : 5 ≤ chunkWords s.params) (hs : s.speed = .cmd)
    (h : Answered s [r1, r2, r3, r4, r5, r6, r7, r8]) :
    Runs 18 op (loadStart addr fl a) s
      (afterExchanges s (loadStartAnswers addr (fl :: areaWords a) [r1, r2, r3, r4, r5, r6, r7, r8])) := by
  have e : loadStartAnswers addr (fl :: areaWords a) [r1, r2, r3, r4, r5, r6, r7, r8] =
      atCmd (addrFrames addr) [r1, r2, r3, r4, r5, r6] ++
        [⟨.cmd, cmdFrame 0x0021, r7⟩, ⟨.data, chunkFrame (fl :: areaWords a), r8⟩] := rfl
  rw [e, afterExchanges_append, afterExchanges_cons, afterExchanges_cons, afterExchanges_nil]
  have hr := runs_writeImgBufAddr op addr s r1 r2 r3 r4 r5 r6 hs (h.take 6)
  have h2 : Answered (afterExchanges s (atCmd (addrFrames addr) [r1, r2, r3, r4, r5, r6])) [r7, r8] := h.after _
  have hs2 := (afterExchanges_speed s (atCmd (addrFrames addr) [r1, r2, r3, r4, r5, r6])).trans hs
  have hp2 := afterExchanges_params s (atCmd (addrFrames addr) [r1, r2, r3, r4, r5, r6])
  generalize afterExchanges s (atCmd (addrFrames addr) [r1, r2, r3, r4, r5, r6]) = u at *
  have hb := runs_lit op (fl :: areaWords a) (afterExchange u ⟨.cmd, cmdFrame 0x0021, r7⟩) r8 hs2 (by simp)
    (by show 5 ≤ chunkWords u.params; rw [hp2]; exact hc) (h2.rest _)
  exact hr.append ((runs_sendCmd op (encodeCmd .loadImageArea) u r7 hs2 h2.first).append hb)

/-- A whole image load: start, pixel words, end (43_display.md rules R254, R257). -/
theorem runs_imageLoad (op : Instr) (addr : Word32) (fl : Word16) (a : Area) (src : WordSrc) (s : State)
    (r1 r2 r3 r4 r5 r6 r7 r8 r9 : List Byte) (rs : List (List Byte)) (hc : 5 ≤ chunkWords s.params)
    (hs : s.speed = .cmd) (hp : srcCount src ≠ 0) (hl : rs.length = ceilDiv (srcCount src) (chunkWords s.params))
    (h : Answered s (r1 :: r2 :: r3 :: r4 :: r5 :: r6 :: r7 :: r8 :: (rs ++ [r9]))) :
    Runs (2 * rs.length + 22) op (loadStart addr fl a ++ sendDataBatch src ++ loadEnd) s
      (afterExchanges s
        (loadStartAnswers addr (fl :: areaWords a) [r1, r2, r3, r4, r5, r6, r7, r8] ++
          batchAnswers (chunkWords s.params) (srcWords s src) rs ++ [⟨.cmd, cmdFrame 0x0022, r9⟩])) := by
  rw [afterExchanges_append, afterExchanges_append]
  have h2 := h.after (loadStartAnswers addr (fl :: areaWords a) [r1, r2, r3, r4, r5, r6, r7, r8])
  have hf := afterExchanges_frame s (loadStartAnswers addr (fl :: areaWords a) [r1, r2, r3, r4, r5, r6, r7, r8])
  have hlen : (loadStartAnswers addr (fl :: areaWords a) [r1, r2, r3, r4, r5, r6, r7, r8]).length = 8 := rfl
  rw [hlen] at h2
  have h2 : Answered (afterExchanges s (loadStartAnswers addr (fl :: areaWords a) [r1, r2, r3, r4, r5, r6, r7, r8]))
      (rs ++ [r9]) := h2
  have hw := srcWords_afterExchanges s (loadStartAnswers addr (fl :: areaWords a) [r1, r2, r3, r4, r5, r6, r7, r8]) src
  have hr1 := runs_loadStart op addr fl a s r1 r2 r3 r4 r5 r6 r7 r8 hc hs (h.take 8)
  generalize afterExchanges s (loadStartAnswers addr (fl :: areaWords a) [r1, r2, r3, r4, r5, r6, r7, r8]) = u at *
  have hpu : u.params = s.params := hf.2.2.2.2.2.1
  have hsu : u.speed = .cmd := hf.2.1.trans hs
  have h2t : Answered u rs := by
    have := h2.take rs.length
    rwa [List.take_left] at this
  have hr2 := runs_batch op src u rs (by rw [hpu]; omega) hsu hp (by rw [hpu]; exact hl) h2t
  rw [hpu, hw] at hr2
  have hbl : (batchAnswers (chunkWords s.params) (srcWords s src) rs).length = rs.length := by
    simp [batchAnswers, chunkList, hl]
  have h3 := h2.after (batchAnswers (chunkWords s.params) (srcWords s src) rs)
  rw [hbl, List.drop_left] at h3
  have hr3 := runs_sendCmd op (encodeCmd .loadImageEnd) _ r9 (by rw [afterExchanges_speed, hsu]) h3
  have := (hr1.append hr2).append hr3
  rw [show 18 + (2 * rs.length + 2) + 2 = 2 * rs.length + 22 by omega] at this
  exact this

end Sys2Proof.Machine
end

