-- ==== Sys2Proof/Laws/Schedule.lean ====
section
/-! SUPPORT. Runs under the reference schedule (an empty agenda): the Engine's turns and the Clock's while a Delay holds
it, said once. -/

namespace Sys2Proof.Machine

/-- A run of `n + 1` steps is a step and a run of `n`. -/
theorem run_next {n : Nat} {s t : State} (h : step s = .next t) :
    Host.Core.run Sys2Proof.core (n + 1) s = Host.Core.run Sys2Proof.core n t := by
  have h : Sys2Proof.core.step s = .next t := h
  simp only [Host.Core.run, h]

/-- While a Delay holds the Engine, the Clock moves. -/
theorem step_held {s : State} (hp : paramsOk s.params = true) (ha : s.agenda = []) (hw : held s = true) :
    step s = .next (tick s) := by
  have hs : s.seq ≠ .idle := by
    intro h
    simp [held, h] at hw
  simp [step, turn, hp, ha, scheduled, hw, hs, takeTurn]

/-- A running operation that no Delay holds takes its turn. -/
theorem step_running {s : State} {op : Instr} {todo : List Micro} (hp : paramsOk s.params = true) (ha : s.agenda = [])
    (hq : s.seq = .run op todo) (hf : frameLengthOk s.params op = true) (hw : held s = false) :
    step s = .next (engineRun (s.burst + 1) s) := by
  rw [← exec_running hq hf]
  simp [step, turn, hp, ha, scheduled, hw, hq, takeTurn, engineStep]

/-- An idle Engine leaves the turn to the Host. -/
theorem step_host {s : State} (hp : paramsOk s.params = true) (ha : s.agenda = []) (hq : s.seq = .idle) :
    step s = hostStep s := by
  simp [step, turn, hp, ha, scheduled, hq, takeTurn]

/-- Where the agenda brings a host access, the step is that access. -/
theorem step_hostMoves {a : HostAccess} {s u : State} (hp : paramsOk s.params = true) (h : HostMoves a s u) :
    step s = hostTurn a u := by
  obtain ⟨rest, h, rfl⟩ := h
  simp [step, turn, hp, h, takeTurn]

/-- The Clock's steps until a Delay is over. -/
theorem run_ticks (k n : Nat) (s : State) (op : Instr) (ms : Nat) (rest : List Micro) (hp : paramsOk s.params = true)
    (ha : s.agenda = []) (hq : s.seq = .run op (.hold ms :: rest)) (hk : s.now - s.tDelay + k = ms)
    (ht : s.tDelay ≤ s.now) :
    Host.Core.run Sys2Proof.core (k + n) s =
      Host.Core.run Sys2Proof.core n
        { s with now := s.now + k, trace := s.trace ++ List.replicate k .tick } := by
  induction k generalizing s with
  | zero => simp
  | succ k ih =>
    have hh : held s = true := by
      simp only [held, hq, decide_eq_true_eq]
      omega
    have h1 : s.now + 1 - s.tDelay + k = ms := by omega
    have h2 : s.tDelay ≤ s.now + 1 := by omega
    have e1 : s.now + 1 + k = s.now + (k + 1) := by omega
    have e2 : s.trace ++ [.tick] ++ List.replicate k .tick = s.trace ++ List.replicate (k + 1) .tick := by
      simp [List.replicate_succ]
    rw [show k + 1 + n = k + n + 1 by omega, run_next (step_held hp ha hh), ih (tick s) hp ha hq h1 h2]
    simp only [tick, record, e1, e2]

/-- From `s`, wherever the Engine's turn ends, the reference schedule reaches a state that meets `Q`. -/
def Reaches (Q : State → Prop) (s : State) : Prop :=
  ∀ b, ∃ n t, Host.Core.run Sys2Proof.core n (engineRun b s) = .next t ∧ Q t

/-- A state that meets `Q` and has nothing to run is reached. -/
theorem Reaches.here {Q : State → Prop} {s : State} (h : active s = false) (hq : Q s) : Reaches Q s :=
  fun b => ⟨0, s, by rw [engineRun_of_inactive h]; rfl, hq⟩

/-- One micro-step on the way. -/
theorem Reaches.micro {Q : State → Prop} {s : State} {op : Instr} {todo : List Micro} (hp : paramsOk s.params = true)
    (ha : s.agenda = []) (hq : s.seq = .run op todo) (hf : frameLengthOk s.params op = true) (hw : held s = false)
    (h : Reaches Q (microStep s)) : Reaches Q s := by
  have hact : active s = true := by simp [active, hq, hw]
  intro b
  cases b with
  | zero =>
    obtain ⟨n, t, hr, ht⟩ := h s.burst
    refine ⟨n + 1, t, ?_, ht⟩
    rw [show engineRun 0 s = s from rfl, run_next (step_running hp ha hq hf hw)]
    simpa only [engineRun, hact, if_true] using hr
  | succ b => simpa only [engineRun, hact, if_true] using h b

/-- A whole Delay on the way. -/
theorem Reaches.delay {Q : State → Prop} {s : State} {op : Instr} {ms : Nat} {rest : List Micro} (hms : 0 < ms)
    (hp : paramsOk s.params = true) (ha : s.agenda = []) (hq : s.seq = .run op (.delay ms :: rest))
    (hf : frameLengthOk s.params op = true)
    (h : Reaches Q
      (goOn op rest
        { s with tDelay := s.now, now := s.now + ms, trace := s.trace ++ List.replicate ms .tick })) :
    Reaches Q s := by
  refine Reaches.micro hp ha hq hf (by simp [held, hq]) ?_
  have hm : microStep s = goOn op (.hold ms :: rest) { s with tDelay := s.now } := by simp [microStep, hq, runMicro]
  rw [hm]
  intro b
  rw [engineRun_held _ _ _ _ _ (by show s.now - s.now < ms; omega)]
  obtain ⟨u, hu⟩ : ∃ u : State, u = goOn op (.hold ms :: rest) { s with tDelay := s.now } := ⟨_, rfl⟩
  obtain ⟨n, t, hrun, ht⟩ :=
    Reaches.micro (Q := Q) (s := { u with now := u.now + ms, trace := u.trace ++ List.replicate ms .tick })
      (op := op) (todo := .hold ms :: rest) (by rw [hu]; exact hp) (by rw [hu]; exact ha) (by rw [hu]; rfl)
      (by rw [hu]; exact hf) (by simp [hu, held, goOn]) (by simpa [hu, microStep, goOn, runMicro] using h) 0
  refine ⟨ms + n, t, ?_, ht⟩
  rw [← hu]
  exact (run_ticks ms n u op ms rest (by rw [hu]; exact hp) (by rw [hu]; exact ha) (by rw [hu]; rfl) (by simp [hu, goOn])
    (by simp [hu, goOn])).trans hrun

end Sys2Proof.Machine
end

