-- ==== Sys2Proof/Laws/Host.lean ====
section
/-! SUPPORT. The host's accesses and programs: where an access lands, what a window access can do, said once for a byte in
use and for one that is not, and the steps of a host program while the Engine is idle. -/

namespace Sys2Proof.Machine

/-! ### Where an access lands -/

theorem hostOffset_add (s : State) (off : Nat) (h : off < 2 ^ 32) :
    hostOffset s (s.params.engineBase + BitVec.ofNat 32 off) = off := by
  unfold hostOffset
  rw [BitVec.add_comm, BitVec.add_sub_cancel, BitVec.toNat_ofNat, Nat.mod_eq_of_lt h]

theorem hostTurn_store32 (s : State) (off : Nat) (v : Word32) (h : off < 2 ^ 32) (ha : off % 4 = 0) :
    hostTurn (store32 s.params off v) s = hostStore off v s := by
  simp only [hostTurn, store32, hostOffset_add s off h, ha, and_self, if_true]

theorem hostTurn_load32 (s : State) (off : Nat) (h : off < 2 ^ 32) (ha : off % 4 = 0) :
    hostTurn (load32 s.params off) s = hostLoad off s := by
  simp only [hostTurn, load32, hostOffset_add s off h, ha, and_self, if_true]
  rfl

/-- An access that reaches the engine is the store or the load at its offset. -/
theorem hostTurn_reaches {a : HostAccess} {off : Nat} {s : State} (h : Reaches32 a off s) :
    hostTurn a s = if a.store then hostStore off a.data s else hostLoad off s := by
  obtain ⟨h1, h2, h3⟩ := h
  unfold hostTurn
  rw [h2, if_pos ⟨h1, h3⟩]

/-- An unmapped register offset reads 0. -/
theorem readReg_unmapped (s : State) {off : Nat} (h : (0x058 ≤ off ∧ off < 0x060) ∨ 0x090 ≤ off) (ha : off % 4 = 0) :
    readReg s off = 0 := by
  by_cases h2 : 0x090 ≤ off
  · obtain ⟨k, rfl⟩ := Nat.exists_eq_add_of_le' h2
    rfl
  · obtain rfl | rfl : off = 0x058 ∨ off = 0x05C := by omega
    all_goals rfl

/-! ### Bytes in use -/

@[simp] theorem byteUse_idle {s : State} (h : s.seq = .idle) (a : Nat) : byteUse s a = none := by
  simp [byteUse, busyUse, h]

theorem hostOthers_of_unused {s : State} {a : Nat} (h : byteUse s a = none) : hostOthers s a = [] := by
  simp [hostOthers, h]

/-- Where the host has no other value to load, it loads what XBUF holds. -/
theorem hostByte_of_no_race {s : State} {a : Nat} (h : hostOthers s a = []) : hostByte s a = xbufByte s a := by
  simp [hostByte, h]

theorem hostByte_mem (s : State) (a : Nat) : hostByte s a ∈ xbufByte s a :: hostOthers s a := chooseByte_mem _ _ _

/-! ### Stores -/

/-- All a host store of one byte can do: XBUF and the further values change, the byte takes the new value or, if it is in
use, may keep the old one. -/
theorem hostByteStore_spec (s : State) (a : Nat) (v : Byte) :
    ∃ w race, (w = v ∨ (byteUse s a ≠ none ∧ w = xbufByte s a)) ∧
      (byteUse s a = none → race = s.xbufRace) ∧
      (byteUse s a ≠ none → race = (a, v) :: (a, xbufByte s a) :: s.xbufRace) ∧
      hostByteStore s a v = { s with xbuf := (xbufStore s a w).xbuf, xbufRace := race } := by
  unfold hostByteStore
  cases h : byteUse s a with
  | none => exact ⟨v, s.xbufRace, .inl rfl, fun _ => rfl, fun h => absurd rfl h, by rw [xbufStore_spec]; rfl⟩
  | some use =>
    refine ⟨_, _, ?_, fun h => (by cases h), fun _ => rfl, xbufRaceStore_spec _ _ _ _⟩
    have := chooseByte_mem (Config.freeRaceHost s.raceNo a) v [xbufByte s a]
    simp only [List.mem_cons, List.not_mem_nil, or_false] at this
    exact this.imp_right fun e => ⟨by simp, e⟩

theorem hostByteStores_spec (s : State) (a : Nat) (bs : List Byte) :
    hostByteStores s a bs =
      { s with xbuf := (hostByteStores s a bs).xbuf, xbufRace := (hostByteStores s a bs).xbufRace } := by
  induction bs generalizing s a with
  | nil => rfl
  | cons b bs ih =>
    obtain ⟨w, race, -, -, -, e⟩ := hostByteStore_spec s a b
    simp only [hostByteStores]
    rw [ih, e]

theorem hostByteStores_wf {s : State} (a : Nat) (bs : List Byte) (h : Memory.wf s.xbuf) :
    Memory.wf (hostByteStores s a bs).xbuf := by
  induction bs generalizing s a with
  | nil => exact h
  | cons b bs ih =>
    obtain ⟨w, race, -, -, -, e⟩ := hostByteStore_spec s a b
    exact ih (s := hostByteStore s a b) (a + 1) (by rw [e]; exact xbufStore_wf a w h)

theorem hostByteStores_within {s : State} (a : Nat) (bs : List Byte)
    (h : Memory.within s.params.xbufBytes s.xbuf) :
    Memory.within s.params.xbufBytes (hostByteStores s a bs).xbuf := by
  induction bs generalizing s a with
  | nil => exact h
  | cons b bs ih =>
    obtain ⟨w, race, -, -, -, e⟩ := hostByteStore_spec s a b
    have := ih (s := hostByteStore s a b) (a + 1) (by rw [e]; exact xbufStore_within a w h)
    rwa [show (hostByteStore s a b).params = s.params by rw [e]] at this

/-- While no operation is accepted, a host store of bytes is the plain store. -/
theorem hostByteStores_idle {s : State} (h : s.seq = .idle) (a : Nat) (bs : List Byte) :
    hostByteStores s a bs = xbufStoreBytes s a bs := by
  induction bs generalizing s a with
  | nil => rfl
  | cons b bs ih =>
    have hb : hostByteStore s a b = xbufStore s a b := by simp [hostByteStore, h]
    simp only [hostByteStores, xbufStoreBytes, hb]
    exact ih (by rw [xbufStore_spec]; exact h) _

/-- What XBUF reads, and what further values it has, after a host store of bytes inside it, where no byte is stored twice. -/
theorem xbufByte_hostByteStores (s : State) (a b : Nat) (bs : List Byte) (hr : a + bs.length ≤ s.params.xbufBytes) :
    (b < a ∨ a + bs.length ≤ b →
      xbufByte (hostByteStores s a bs) b = xbufByte s b ∧
        raceOthers (hostByteStores s a bs) b = raceOthers s b) ∧
    (a ≤ b → b < a + bs.length → byteUse s b = none →
      xbufByte (hostByteStores s a bs) b = bs.getD (b - a) 0) ∧
    (a ≤ b → b < a + bs.length → byteUse s b ≠ none →
      (xbufByte (hostByteStores s a bs) b = bs.getD (b - a) 0 ∨
        xbufByte (hostByteStores s a bs) b = xbufByte s b) ∧
      bs.getD (b - a) 0 ∈ raceOthers (hostByteStores s a bs) b ∧
      xbufByte s b ∈ raceOthers (hostByteStores s a bs) b) := by
  induction bs generalizing s a with
  | nil =>
    refine ⟨fun _ => ⟨rfl, rfl⟩, fun h1 h2 => ?_, fun h1 h2 => ?_⟩ <;> simp at h2 <;> omega
  | cons c bs ih =>
    simp only [List.length_cons] at hr ⊢
    obtain ⟨w, race, hw, hr0, hr1, e⟩ := hostByteStore_spec s a c
    have hb : ∀ x, xbufByte (hostByteStore s a c) x = if x = a then w else xbufByte s x := by
      intro x
      rw [e, ← xbufByte_store s a x w (by omega), xbufStore_spec]
      rfl
    have hu : ∀ x, byteUse (hostByteStore s a c) x = byteUse s x := by
      intro x
      rw [e]
      rfl
    have hrace : ∀ x, x ≠ a → raceOthers (hostByteStore s a c) x = raceOthers s x := by
      intro x hx
      rw [e]
      by_cases h : byteUse s a = none
      · simp [raceOthers, hr0 h]
      · simp [raceOthers, hr1 h, Ne.symm hx]
    obtain ⟨i1, i2, i3⟩ :=
      ih (hostByteStore s a c) (a + 1) (by rw [e]; show a + 1 + bs.length ≤ s.params.xbufBytes; omega)
    simp only [hostByteStores]
    rw [hu] at i2 i3
    refine ⟨fun h => ?_, fun h1 h2 h3 => ?_, fun h1 h2 h3 => ?_⟩
    · rw [(i1 (by omega)).1, (i1 (by omega)).2, hb, if_neg (by omega), hrace b (by omega)]
      exact ⟨rfl, rfl⟩
    · by_cases h : b = a
      · subst h
        rw [(i1 (by omega)).1, hb, if_pos rfl, Nat.sub_self]
        rcases hw with rfl | ⟨h4, -⟩
        · rfl
        · exact absurd h3 h4
      · rw [i2 (by omega) (by omega) h3, show b - a = b - (a + 1) + 1 by omega, List.getD_cons_succ]
    · by_cases h : b = a
      · subst h
        rw [(i1 (by omega)).1, (i1 (by omega)).2, hb, if_pos rfl, Nat.sub_self, e]
        refine ⟨hw.imp id (·.2), ?_, ?_⟩ <;> simp [raceOthers, hr1 h3]
      · rw [show b - a = b - (a + 1) + 1 by omega, List.getD_cons_succ]
        have := i3 (by omega) (by omega) h3
        rwa [hb, if_neg h] at this

/-! ### Window accesses while no operation is accepted -/

theorem inWindow_window {s : State} {a : Nat} (h : a < s.params.xbufBytes) : inWindow s (0x1000 + a) = true := by
  simp only [inWindow, Bool.and_eq_true, decide_eq_true_eq]
  omega

theorem hostStore_window_idle {s : State} (h : s.seq = .idle) {a : Nat} (ha : a < s.params.xbufBytes) (v : Word32) :
    hostStore (0x1000 + a) v s = .next (xbufStoreBytes s a (le32 v)) := by
  have hr : storeRaces s a = false := by simp [storeRaces, h]
  simp only [hostStore, inWindow_window ha, if_true, Nat.add_sub_cancel_left, hr, hostByteStores_idle h]
  rfl

theorem hostLoad_window_idle {s : State} (h : s.seq = .idle) {a : Nat} (ha : a < s.params.xbufBytes) :
    hostLoad (0x1000 + a) s = .next { s with hostData := xbufWindowWord s a } := by
  have ho : ∀ b, hostOthers s b = [] := fun b => hostOthers_of_unused (byteUse_idle h b)
  have hr : loadRaces s a = false := by simp [loadRaces, ho]
  have hw : hostWindowWord s a = xbufWindowWord s a := by
    simp [hostWindowWord, xbufWindowWord, hostByte_of_no_race, ho]
  simp only [hostLoad, inWindow_window ha, if_true, Nat.add_sub_cancel_left, hr, hw]
  rfl

/-! ### Programs of the Host while the Engine is idle -/

/-- A run of `n` steps and then `m` is a run of `n + m`. -/
theorem run_add (n m : Nat) (s t : State)
    (h : Host.Core.run Sys2Proof.core n s = .next t) :
    Host.Core.run Sys2Proof.core (n + m) s = Host.Core.run Sys2Proof.core m t := by
  induction n generalizing s with
  | zero => cases h; simp
  | succ n ih =>
    rw [show n + 1 + m = n + m + 1 by omega]
    simp only [Host.Core.run] at h ⊢
    cases hs : Sys2Proof.core.step s with
    | next u => rw [hs] at h; exact ih u h
    | fault u => rw [hs] at h; cases h
    | refused u => rw [hs] at h; cases h

/-- With the Host's program standing at `p`, the reference schedule runs `p` and takes the state from `s` to `t`. -/
def HostDoes (p : List HostOp) (s t : State) : Prop :=
  ∀ rest, ∃ n,
    Host.Core.run Sys2Proof.core n { s with hostProg := p ++ rest } = .next { t with hostProg := rest }

theorem HostDoes.nil (s : State) : HostDoes [] s s := fun _ => ⟨0, rfl⟩

theorem HostDoes.append {p q : List HostOp} {s t u : State} (h1 : HostDoes p s t) (h2 : HostDoes q t u) :
    HostDoes (p ++ q) s u := by
  intro rest
  obtain ⟨n, h1⟩ := h1 (q ++ rest)
  obtain ⟨m, h2⟩ := h2 rest
  exact ⟨n + m, by rw [List.append_assoc, run_add _ _ _ _ h1, h2]⟩

/-- One instruction of the program. -/
theorem HostDoes.one {op : HostOp} {s t : State} (hr : HostRuns s)
    (h : ∀ rest, runHostOp op { s with hostProg := rest } = .next { t with hostProg := rest }) : HostDoes [op] s t := by
  intro rest
  have hs : step { s with hostProg := [op] ++ rest } = .next { t with hostProg := rest } := by
    rw [step_host (by exact hr.1) (by exact hr.2.1) (by exact hr.2.2)]
    exact h rest
  exact ⟨1, by rw [run_next hs]; rfl⟩

/-- A register write of the program. -/
theorem hostDoes_register {s t : State} (off : Nat) (v : Word32) (hr : HostRuns s) (h : off < 0x1000)
    (h4 : off % 4 = 0) (hw : ∀ rest, writeReg off v { s with hostProg := rest } = { t with hostProg := rest }) :
    HostDoes [.access (store32 s.params off v)] s t := by
  refine HostDoes.one hr fun rest => ?_
  show hostTurn (store32 ({ s with hostProg := rest } : State).params off v) { s with hostProg := rest } = _
  rw [hostTurn_store32 _ _ _ (by omega) h4]
  have hi : inWindow { s with hostProg := rest } off = false := by
    simp [inWindow]
    omega
  simp only [hostStore, hi, hw]
  rfl

/-! ### The bytes of a program's window accesses -/

/-- The bytes of a window word (20_memory.md rule R72). -/
theorem xbufWindowWord_byte (s : State) (a i : Nat) (h : i < 4) :
    (xbufWindowWord s a).extractLsb' (8 * i) 8 = xbufByte s (a + i) := by
  unfold xbufWindowWord
  rw [byte_of_append _ _ _ _ _ h]
  have : i = 0 ∨ i = 1 ∨ i = 2 ∨ i = 3 := by omega
  rcases this with rfl | rfl | rfl | rfl <;> rfl

/-- The bytes of a merged word (30_encoding.md rule R128). -/
theorem mergedWord_byte (w : Word32) (word off : Nat) (bs : List Byte) (i : Nat) (h : i < 4) :
    (mergedWord w word off bs).extractLsb' (8 * i) 8 =
      if off ≤ word + i ∧ word + i < off + bs.length then bs.getD (word + i - off) 0
      else w.extractLsb' (8 * i) 8 := by
  unfold mergedWord
  simp only
  rw [byte_of_append _ _ _ _ _ h]
  have : i = 0 ∨ i = 1 ∨ i = 2 ∨ i = 3 := by omega
  rcases this with rfl | rfl | rfl | rfl <;> rfl

/-- The window words of a range cover it. -/
theorem windowWords_cover (off n b : Nat) (h1 : off ≤ b) (h2 : b < off + n) :
    ∃ w ∈ windowWords off n, w ≤ b ∧ b < w + 4 := by
  unfold windowWords
  rw [if_neg (by omega)]
  refine ⟨4 * (off / 4 + (b / 4 - off / 4)), List.mem_map.2 ⟨b / 4 - off / 4, List.mem_range.2 ?_, rfl⟩, ?_, ?_⟩ <;>
    omega

/-- The window words of a range inside XBUF are aligned and inside it. -/
theorem windowWords_inside {off n size w : Nat} (hs : size % 4 = 0) (h : off + n ≤ size) (hw : w ∈ windowWords off n) :
    w % 4 = 0 ∧ w < size := by
  unfold windowWords at hw
  split at hw
  · simp at hw
  · obtain ⟨k, hk, rfl⟩ := List.mem_map.1 hw
    have := List.mem_range.1 hk
    omega

/-- BUSY as the host reads it (10_state.md rule R23). -/
theorem statusWord_busy (s : State) : (statusWord s).getLsbD 0 = s.stat.busy := by
  unfold statusWord
  rw [BitVec.getLsbD_append, if_pos (by omega)]
  cases s.stat.busy <;> rfl

end Sys2Proof.Machine
end

