-- ==== Sys2Proof/Laws/PerInstr.lean ====
section
/-! SUPPORT. One lemma per instruction: its encoding has the bits its row of spec/opcode_table.json fixes. -/

namespace Sys2Proof.Laws.TableRow

/-- The `match` and `mask` of an operation's row, 32 bits (30_encoding.md rules R102, R104). -/
def opwRow : Instr → Option (Word32 × Word32)
  | .wrCmd _ => some (0x00000001, 0x0000FFFF)
  | .wrUcmd _ => some (0x00000002, 0x0000FFFF)
  | .wrData _ => some (0x00000003, 0x0000FFFF)
  | .wrDataBatch => some (0x00000004, 0xFFFFFFFF)
  | .rdData => some (0x00000005, 0xFFFFFFFF)
  | .rdDataBatch => some (0x00000006, 0xFFFFFFFF)
  | .wrCmdArgs _ => some (0x00000007, 0x0000FFFF)
  | .wrUcmdArgs _ => some (0x00000008, 0x0000FFFF)
  | .rdReg _ => some (0x00000009, 0x0000FFFF)
  | .wrReg _ => some (0x0000000A, 0x0000FFFF)
  | .reset => some (0x00000010, 0xFFFFFFFF)
  | .init => some (0x00000011, 0xFFFFFFFF)
  | .rdVcom => some (0x00000012, 0xFFFFFFFF)
  | .wrVcom _ => some (0x00000013, 0x0000FFFF)
  | .run => some (0x00000014, 0xFFFFFFFF)
  | .standby => some (0x00000015, 0xFFFFFFFF)
  | .sleep => some (0x00000016, 0xFFFFFFFF)
  | .waitDisplayReady => some (0x00000017, 0xFFFFFFFF)
  | .clear _ => some (0x00000020, 0xFF00FFFF)
  | .fillArea _ => some (0x00000021, 0xFF00FFFF)
  | .refresh _ => some (0x00000022, 0x0000FFFF)
  | .refreshArea _ => some (0x00000023, 0x0000FFFF)
  | .loadImage _ => some (0x00000024, 0xFFFFF0FF)
  | .wireSysRun => none
  | .wireStandby => none
  | .wireSleep => none
  | .wireRegRead => none
  | .wireRegWrite => none
  | .wireMemBurstReadTrigger => none
  | .wireMemBurstReadStart => none
  | .wireMemBurstWrite => none
  | .wireMemBurstEnd => none
  | .wireLoadImage => none
  | .wireLoadImageArea => none
  | .wireLoadImageEnd => none
  | .wireDisplayArea => none
  | .wireDisplayBufArea => none
  | .wireVcom => none
  | .wireGetDevInfo => none
  | .preWriteCommand _ => none
  | .preWriteData _ => none
  | .preReadData _ => none

/-- The `match` of a wire row, all 16 bits fixed (30_encoding.md rules R111 to R113). -/
def wireRow : Instr → Option Word16
  | .wrCmd _ => none
  | .wrUcmd _ => none
  | .wrData _ => none
  | .wrDataBatch => none
  | .rdData => none
  | .rdDataBatch => none
  | .wrCmdArgs _ => none
  | .wrUcmdArgs _ => none
  | .rdReg _ => none
  | .wrReg _ => none
  | .reset => none
  | .init => none
  | .rdVcom => none
  | .wrVcom _ => none
  | .run => none
  | .standby => none
  | .sleep => none
  | .waitDisplayReady => none
  | .clear _ => none
  | .fillArea _ => none
  | .refresh _ => none
  | .refreshArea _ => none
  | .loadImage _ => none
  | .wireSysRun => some 0x0001
  | .wireStandby => some 0x0002
  | .wireSleep => some 0x0003
  | .wireRegRead => some 0x0010
  | .wireRegWrite => some 0x0011
  | .wireMemBurstReadTrigger => some 0x0012
  | .wireMemBurstReadStart => some 0x0013
  | .wireMemBurstWrite => some 0x0014
  | .wireMemBurstEnd => some 0x0015
  | .wireLoadImage => some 0x0020
  | .wireLoadImageArea => some 0x0021
  | .wireLoadImageEnd => some 0x0022
  | .wireDisplayArea => some 0x0034
  | .wireDisplayBufArea => some 0x0037
  | .wireVcom => some 0x0039
  | .wireGetDevInfo => some 0x0302
  | .preWriteCommand _ => some 0x6000
  | .preWriteData _ => some 0x0000
  | .preReadData _ => some 0x1000

/-- The encoding agrees with the instruction's row: an OPW has the fixed bits of the row, a wire encoding starts with
the row's word, high byte first. -/
def Statement (i : Instr) : Prop :=
  match encode i with
  | .opw w => ∃ r ∈ opwRow i, w &&& r.2 = r.1
  | .wire bytes => ∃ w ∈ wireRow i, bytes.take 2 = be16 w

/-- The low half of an operation word. -/
theorem opwWord_low (op : BitVec 8) (fmt : BitVec 4) (imm : Word16) :
    opwWord op fmt imm &&& 0x0000FFFF = opwWord op fmt 0 := by
  apply BitVec.eq_of_getLsbD_eq
  intro i hi
  simp only [opwWord, BitVec.getLsbD_and, BitVec.getLsbD_append]
  have : i < 32 := hi
  interval_cases i <;> simp

/-- All of an operation word but its gray byte. -/
theorem opwWord_gray (op : BitVec 8) (v : Byte) :
    opwWord op 0 (word16 0 v) &&& 0xFF00FFFF = opwWord op 0 0 := by
  apply BitVec.eq_of_getLsbD_eq
  intro i hi
  simp only [opwWord, word16, BitVec.getLsbD_and, BitVec.getLsbD_append]
  have : i < 32 := hi
  interval_cases i <;> simp

/-- All of an operation word but its FMT field. -/
theorem opwWord_fmt (op : BitVec 8) (fmt : BitVec 4) :
    opwWord op fmt 0 &&& 0xFFFFF0FF = opwWord op 0 0 := by
  apply BitVec.eq_of_getLsbD_eq
  intro i hi
  simp only [opwWord, BitVec.getLsbD_and, BitVec.getLsbD_append]
  have : i < 32 := hi
  interval_cases i <;> simp

theorem wrCmd (imm : Word16) : Statement (.wrCmd imm) :=
  ⟨_, rfl, (opwWord_low 0x01 0 imm).trans rfl⟩

theorem wrUcmd (imm : Word16) : Statement (.wrUcmd imm) :=
  ⟨_, rfl, (opwWord_low 0x02 0 imm).trans rfl⟩

theorem wrData (w : Word16) : Statement (.wrData w) :=
  ⟨_, rfl, (opwWord_low 0x03 0 w).trans rfl⟩

theorem wrDataBatch : Statement (.wrDataBatch) :=
  ⟨_, rfl, rfl⟩

theorem rdData : Statement (.rdData) :=
  ⟨_, rfl, rfl⟩

theorem rdDataBatch : Statement (.rdDataBatch) :=
  ⟨_, rfl, rfl⟩

theorem wrCmdArgs (imm : Word16) : Statement (.wrCmdArgs imm) :=
  ⟨_, rfl, (opwWord_low 0x07 0 imm).trans rfl⟩

theorem wrUcmdArgs (imm : Word16) : Statement (.wrUcmdArgs imm) :=
  ⟨_, rfl, (opwWord_low 0x08 0 imm).trans rfl⟩

theorem rdReg (addr : Word16) : Statement (.rdReg addr) :=
  ⟨_, rfl, (opwWord_low 0x09 0 addr).trans rfl⟩

theorem wrReg (addr : Word16) : Statement (.wrReg addr) :=
  ⟨_, rfl, (opwWord_low 0x0A 0 addr).trans rfl⟩

theorem reset : Statement (.reset) :=
  ⟨_, rfl, rfl⟩

theorem init : Statement (.init) :=
  ⟨_, rfl, rfl⟩

theorem rdVcom : Statement (.rdVcom) :=
  ⟨_, rfl, rfl⟩

theorem wrVcom (v : Word16) : Statement (.wrVcom v) :=
  ⟨_, rfl, (opwWord_low 0x13 0 v).trans rfl⟩

theorem run : Statement (.run) :=
  ⟨_, rfl, rfl⟩

theorem standby : Statement (.standby) :=
  ⟨_, rfl, rfl⟩

theorem sleep : Statement (.sleep) :=
  ⟨_, rfl, rfl⟩

theorem waitDisplayReady : Statement (.waitDisplayReady) :=
  ⟨_, rfl, rfl⟩

theorem clear (v : Byte) : Statement (.clear v) :=
  ⟨_, rfl, (opwWord_gray 0x20 v).trans rfl⟩

theorem fillArea (v : Byte) : Statement (.fillArea v) :=
  ⟨_, rfl, (opwWord_gray 0x21 v).trans rfl⟩

theorem refresh (mode : Word16) : Statement (.refresh mode) :=
  ⟨_, rfl, (opwWord_low 0x22 0 mode).trans rfl⟩

theorem refreshArea (mode : Word16) : Statement (.refreshArea mode) :=
  ⟨_, rfl, (opwWord_low 0x23 0 mode).trans rfl⟩

theorem loadImage (fmt : BitVec 4) : Statement (.loadImage fmt) :=
  ⟨_, rfl, (opwWord_fmt 0x24 fmt).trans rfl⟩

theorem wireSysRun : Statement (.wireSysRun) :=
  ⟨_, rfl, rfl⟩

theorem wireStandby : Statement (.wireStandby) :=
  ⟨_, rfl, rfl⟩

theorem wireSleep : Statement (.wireSleep) :=
  ⟨_, rfl, rfl⟩

theorem wireRegRead : Statement (.wireRegRead) :=
  ⟨_, rfl, rfl⟩

theorem wireRegWrite : Statement (.wireRegWrite) :=
  ⟨_, rfl, rfl⟩

theorem wireMemBurstReadTrigger : Statement (.wireMemBurstReadTrigger) :=
  ⟨_, rfl, rfl⟩

theorem wireMemBurstReadStart : Statement (.wireMemBurstReadStart) :=
  ⟨_, rfl, rfl⟩

theorem wireMemBurstWrite : Statement (.wireMemBurstWrite) :=
  ⟨_, rfl, rfl⟩

theorem wireMemBurstEnd : Statement (.wireMemBurstEnd) :=
  ⟨_, rfl, rfl⟩

theorem wireLoadImage : Statement (.wireLoadImage) :=
  ⟨_, rfl, rfl⟩

theorem wireLoadImageArea : Statement (.wireLoadImageArea) :=
  ⟨_, rfl, rfl⟩

theorem wireLoadImageEnd : Statement (.wireLoadImageEnd) :=
  ⟨_, rfl, rfl⟩

theorem wireDisplayArea : Statement (.wireDisplayArea) :=
  ⟨_, rfl, rfl⟩

theorem wireDisplayBufArea : Statement (.wireDisplayBufArea) :=
  ⟨_, rfl, rfl⟩

theorem wireVcom : Statement (.wireVcom) :=
  ⟨_, rfl, rfl⟩

theorem wireGetDevInfo : Statement (.wireGetDevInfo) :=
  ⟨_, rfl, rfl⟩

theorem preWriteCommand (op : Word16) : Statement (.preWriteCommand op) :=
  ⟨_, rfl, rfl⟩

theorem preWriteData (ws : List Word16) : Statement (.preWriteData ws) :=
  ⟨_, rfl, rfl⟩

theorem preReadData (n : Nat) : Statement (.preReadData n) :=
  ⟨_, rfl, rfl⟩

end Sys2Proof.Laws.TableRow
end

