-- ==== Sys2Proof/Tests/Slice0.lean ====
section
/-! SUPPORT. The model's own tests: well-formedness, decoding from words written out of the spec's encodings, one step of
each instruction against the vectors of 95_test_vectors.md, and a witness for the hypotheses of every statement. -/

namespace Sys2Proof.Tests

open Sys2Proof Sys2Proof.Machine

/-! ### Helpers -/

/-- The device answers every wait with a ready sample and every exchange with the next of `rs`. -/
def wired (s : State) (rs : List (List Byte)) : State :=
  { s with
    hrdyScript := List.replicate rs.length (.level true)
    hrdyNo := 0
    busScript := rs.map .ok
    busNo := 0 }

/-- The host has written `opw` to OPW and then GO. -/
def issued (opw : Word32) (s : State) : State := acceptGo { s with regs := { s.regs with opw := opw } }

/-- S1 of 95_test_vectors.md: initialized, an 800×600 panel, IMG_BUF_ADDR = 0x56781234. -/
def s1 : State :=
  { State.reset with
    stat := { State.reset.stat with infoValid := true, initPhase := 7, done := true, hrdyLast := true }
    info := { State.reset.info with panelW := 800, panelH := 600, imgBufAddr := 0x56781234 }
    regs := { State.reset.regs with vcomCfg := 1500 } }

/-- Operand registers for an area. -/
def withArea (s : State) (x y w h : Word16) : State :=
  { s with regs := { s.regs with areaX := x, areaY := y, areaW := w, areaH := h } }

/-- Operand registers for a range of XBUF. -/
def withRange (s : State) (buf len : Word32) : State := { s with regs := { s.regs with bufoff := buf, len := len } }

/-- XBUF bytes from offset 0. -/
def withXbuf (s : State) (bs : List Byte) : State := xbufStoreBytes s 0 bs

/-- A small bus: `BUS_MAX_BYTES` = 44. -/
def smallBus (s : State) : State := { s with params := { s.params with busMaxBytes := 44 } }

/-- A GO just accepted from reset. -/
def fresh (opw : Word32) : State := issued opw State.reset

/-- A running operation. -/
def running (op : Instr) (todo : List Micro) (s : State) : State :=
  { s with seq := .run op todo, stat := { s.stat with busy := true, done := false } }

/-- The frames sent in a turn. -/
def sent (o : Host.Outcome State Fault Refusal) : List (Speed × List Byte) :=
  match o with
  | .next t =>
    t.trace.filterMap fun e =>
      match e with
      | .xfer sp tx _ => some (sp, tx)
      | .xferErr sp tx _ => some (sp, tx)
      | .sample _ => none
      | .sampleErr _ => none
      | .lineResetN _ => none
      | .tick => none
  | .fault _ => []
  | .refused _ => []

/-- DONE, ERR_CODE, ERR_INFO0, ERR_INFO1 and XCOUNT after a turn. -/
def ended (o : Host.Outcome State Fault Refusal) : Option (Bool × BitVec 8 × Word32 × Word32 × Word32) :=
  match o with
  | .next t => some (t.stat.done, t.regs.errCode, t.regs.errInfo0, t.regs.errInfo1, t.regs.xcount)
  | .fault _ => none
  | .refused _ => none

/-- A field of the next state. -/
def after {α : Type} (f : State → α) (o : Host.Outcome State Fault Refusal) : Option α :=
  match o with
  | .next t => some (f t)
  | .fault _ => none
  | .refused _ => none

/-- The instruction that decodes from a code; none where the decoder rejects. -/
def read (c : Code) : Option Instr := (decode c).toOption

/-- A response of a read frame with one word. -/
def word (h l : Byte) : List Byte := [0, 0, 0, 0, h, l]

/-! ### Well-formedness: an ill-formed term for each check -/

theorem test_wf_cmd_outside_set : (Instr.wrCmd 0x0034).wellFormed Config.reference = false := by decide
theorem test_wf_ucmd_outside_set : (Instr.wrUcmd 0x0001).wellFormed Config.reference = false := by decide
theorem test_wf_cmd_args_outside_set : (Instr.wrCmdArgs 0x0016).wellFormed Config.reference = false := by decide
theorem test_wf_ucmd_args_outside_set : (Instr.wrUcmdArgs 0x0303).wellFormed Config.reference = false := by decide
theorem test_wf_mode : (Instr.refresh 5).wellFormed Config.reference = false := by decide
theorem test_wf_area_mode : (Instr.refreshArea 255).wellFormed Config.reference = false := by decide
theorem test_wf_pixel_format : (Instr.loadImage 5).wellFormed Config.reference = false := by decide
theorem test_wf_no_data_word : (Instr.preWriteData []).wellFormed Config.reference = false := by decide
theorem test_wf_chunk_too_long :
    (Instr.preWriteData (List.replicate 22 0)).wellFormed { Config.reference with busMaxBytes := 44 } = false := by decide
theorem test_wf_no_read_word : (Instr.preReadData 0).wellFormed Config.reference = false := by decide
theorem test_wf_read_too_long : (Instr.preReadData 2047).wellFormed Config.reference = false := by decide
theorem test_wf_longest_read : (Instr.preReadData 2046).wellFormed Config.reference = true := by decide

/-! ### Decoding: the words of L2-E1, R112, R113 and R117 to R120, written out -/

theorem test_decode_wr_cmd : read (.opw 0x00010001) = some (.wrCmd 0x0001) := by decide
theorem test_decode_wr_ucmd : read (.opw 0x03020002) = some (.wrUcmd 0x0302) := by decide
theorem test_decode_wr_data : read (.opw 0x12340003) = some (.wrData 0x1234) := by decide
theorem test_decode_wr_data_batch : read (.opw 0x00000004) = some .wrDataBatch := by decide
theorem test_decode_rd_data : read (.opw 0x00000005) = some .rdData := by decide
theorem test_decode_rd_data_batch : read (.opw 0x00000006) = some .rdDataBatch := by decide
theorem test_decode_wr_cmd_args : read (.opw 0x00210007) = some (.wrCmdArgs 0x0021) := by decide
theorem test_decode_wr_ucmd_args : read (.opw 0x00340008) = some (.wrUcmdArgs 0x0034) := by decide
theorem test_decode_rd_reg : read (.opw 0x12240009) = some (.rdReg 0x1224) := by decide
theorem test_decode_wr_reg : read (.opw 0x0208000A) = some (.wrReg 0x0208) := by decide
theorem test_decode_reset : read (.opw 0x00000010) = some .reset := by decide
theorem test_decode_init : read (.opw 0x00000011) = some .init := by decide
theorem test_decode_rd_vcom : read (.opw 0x00000012) = some .rdVcom := by decide
theorem test_decode_wr_vcom : read (.opw 0x05DC0013) = some (.wrVcom 1500) := by decide
theorem test_decode_run : read (.opw 0x00000014) = some .run := by decide
theorem test_decode_standby : read (.opw 0x00000015) = some .standby := by decide
theorem test_decode_sleep : read (.opw 0x00000016) = some .sleep := by decide
theorem test_decode_wait_display_ready : read (.opw 0x00000017) = some .waitDisplayReady := by decide
theorem test_decode_clear : read (.opw 0x00FF0020) = some (.clear 0xFF) := by decide
theorem test_decode_fill_area : read (.opw 0x00AA0021) = some (.fillArea 0xAA) := by decide
theorem test_decode_refresh : read (.opw 0x00020022) = some (.refresh 2) := by decide
theorem test_decode_refresh_area : read (.opw 0x00010023) = some (.refreshArea 1) := by decide
theorem test_decode_load_image : read (.opw 0x00000424) = some (.loadImage 4) := by decide
theorem test_decode_wire_sys_run : read (.wire [0x00, 0x01]) = some .wireSysRun := by decide
theorem test_decode_wire_standby : read (.wire [0x00, 0x02]) = some .wireStandby := by decide
theorem test_decode_wire_sleep : read (.wire [0x00, 0x03]) = some .wireSleep := by decide
theorem test_decode_wire_reg_read : read (.wire [0x00, 0x10]) = some .wireRegRead := by decide
theorem test_decode_wire_reg_write : read (.wire [0x00, 0x11]) = some .wireRegWrite := by decide
theorem test_decode_wire_mem_read_trigger : read (.wire [0x00, 0x12]) = some .wireMemBurstReadTrigger := by decide
theorem test_decode_wire_mem_read_start : read (.wire [0x00, 0x13]) = some .wireMemBurstReadStart := by decide
theorem test_decode_wire_mem_write : read (.wire [0x00, 0x14]) = some .wireMemBurstWrite := by decide
theorem test_decode_wire_mem_end : read (.wire [0x00, 0x15]) = some .wireMemBurstEnd := by decide
theorem test_decode_wire_load_image : read (.wire [0x00, 0x20]) = some .wireLoadImage := by decide
theorem test_decode_wire_load_image_area : read (.wire [0x00, 0x21]) = some .wireLoadImageArea := by decide
theorem test_decode_wire_load_image_end : read (.wire [0x00, 0x22]) = some .wireLoadImageEnd := by decide
theorem test_decode_wire_display_area : read (.wire [0x00, 0x34]) = some .wireDisplayArea := by decide
theorem test_decode_wire_display_buf_area : read (.wire [0x00, 0x37]) = some .wireDisplayBufArea := by decide
theorem test_decode_wire_vcom : read (.wire [0x00, 0x39]) = some .wireVcom := by decide
theorem test_decode_wire_get_dev_info : read (.wire [0x03, 0x02]) = some .wireGetDevInfo := by decide
theorem test_decode_command_frame : read (.wire [0x60, 0x00, 0x00, 0x01]) = some (.preWriteCommand 0x0001) := by decide
theorem test_decode_data_chunk :
    read (.wire [0x00, 0x00, 0xAA, 0xAA, 0x00, 0xAA]) = some (.preWriteData [0xAAAA, 0x00AA]) := by decide
theorem test_decode_read_frame :
    read (.wire [0x10, 0x00, 0x00, 0x00, 0x00, 0x00, 0x00, 0x00]) = some (.preReadData 2) := by decide

/-- A word of no command is rejected by name, and so is a read frame with a dummy that is not zero. -/
theorem test_reject_word : decode (.wire [0x00, 0x35]) = .error .notAFrame := by decide
theorem test_reject_dummy : decode (.wire [0x10, 0x00, 0x00, 0x01, 0x00, 0x00]) = .error .notAFrame := by decide

/-! ### Illegal words: L2-E2 -/

theorem test_undefined_op : ended (step (issued 0x00000025 State.reset)) = some (true, 8, 0x25, 1, 0) := by decide
theorem test_field_constraint :
    ended (step (issued 0x00001001 State.reset)) = some (true, 8, 0x00001001, 2, 0) := by decide
theorem test_illegal_mode : ended (step (issued 0x00050022 s1)) = some (true, 8, 0x00050022, 2, 0) := by decide
theorem test_illegal_command :
    ended (step (issued 0x00340001 State.reset)) = some (true, 8, 0x00340001, 3, 0) := by decide

/-! ### One step of each instruction -/

theorem test_wr_cmd : sent (step (wired (issued 0x00150001 State.reset) [[]])) = [(.cmd, [0x60, 0, 0, 0x15])] := by decide
theorem test_wr_ucmd : sent (step (wired (issued 0x03020002 State.reset) [[]])) = [(.cmd, [0x60, 0, 3, 2])] := by decide
theorem test_wr_data : sent (step (wired (issued 0x12340003 State.reset) [[]])) = [(.cmd, [0, 0, 0x12, 0x34])] := by decide

/-- L2-F1: low at the deadline 0 times out at once. -/
theorem test_wr_data_timeout :
    ended (step { issued 0x00010003 { State.reset with regs := { State.reset.regs with timeoutMs := 0 } } with
      hrdyScript := [.level false] }) = some (true, 2, 0, 0, 0) := by decide

/-- L2-T2: an odd BUFOFF. -/
theorem test_wr_data_batch :
    sent (step (wired (issued 0x00000004 (withRange (withXbuf State.reset [0, 0x34, 0x12]) 1 1)) [[]])) =
      [(.data, [0, 0, 0x12, 0x34])] := by decide

set_option maxRecDepth 4000 in
/-- P4 in small: 22 words over a bus of 44 bytes go out as chunks of 21 and 1. -/
theorem test_wr_data_batch_chunks :
    (sent (step (wired (issued 0x00000004
      (withRange (withXbuf (smallBus State.reset) (List.replicate 44 7)) 0 22)) [[], []]))).map
      (fun f => f.2.length) = [44, 4] := by decide

/-- L2-F3: a longer response is cut; a short one is PROTOCOL. -/
theorem test_rd_data :
    after (fun t => t.regs.result) (step (wired (issued 0x00000005 State.reset) [[0, 0, 0, 0, 0xAB, 0xCD, 0xEF]])) =
      some 0xABCD := by decide
theorem test_rd_data_short :
    ended (step (wired (issued 0x00000005 State.reset) [[0, 0, 0, 0, 0xAB]])) = some (true, 3, 0, 1, 1) := by decide

/-- L2-T2 and L2-F3. -/
theorem test_rd_data_batch :
    after (fun t => xbufWindowWord t 0)
      (step (wired (issued 0x00000006 (withRange State.reset 0 2)) [[9, 9, 9, 9, 0x12, 0x34, 0x56, 0x78]])) =
      some 0x56781234 := by decide
theorem test_rd_data_batch_short :
    ended (step (wired (issued 0x00000006 (withRange State.reset 0 3)) [[0, 0, 0, 0, 0, 1, 0, 2, 0]])) =
      some (true, 3, 2, 3, 1) := by decide

/-- L2-T2. -/
theorem test_wr_cmd_args :
    sent (step (wired (issued 0x00210007
      (withRange (withXbuf State.reset [0x30, 0, 0, 0, 0, 0, 3, 0, 1, 0]) 0 5)) [[], []])) =
      [(.cmd, [0x60, 0, 0, 0x21]), (.data, [0, 0, 0, 0x30, 0, 0, 0, 0, 0, 3, 0, 1])] := by decide
theorem test_wr_cmd_args_none :
    sent (step (wired (issued 0x00010007 State.reset) [[]])) = [(.cmd, [0x60, 0, 0, 1])] := by decide

theorem test_wr_ucmd_args :
    sent (step (wired (issued 0x00340008
      (withRange (withXbuf State.reset [0, 0, 0, 0, 0x20, 3, 0x58, 2, 2, 0]) 0 5)) [[], []])) =
      [(.cmd, [0x60, 0, 0, 0x34]), (.data, [0, 0, 0, 0, 0, 0, 3, 0x20, 2, 0x58, 0, 2])] := by decide

theorem test_rd_reg :
    sent (step (wired (issued 0x12240009 State.reset) [[], [], word 0 0])) =
      [(.cmd, [0x60, 0, 0, 0x10]), (.cmd, [0, 0, 0x12, 0x24]), (.cmd, [0x10, 0, 0, 0, 0, 0])] := by decide
theorem test_wr_reg :
    sent (step (wired (issued 0x0208000A
      { State.reset with regs := { State.reset.regs with arg0 := 0x1234 } }) [[], [], []])) =
      [(.cmd, [0x60, 0, 0, 0x11]), (.cmd, [0, 0, 2, 8]), (.cmd, [0, 0, 0x12, 0x34])] := by decide

/-- L2-F2: the second exchange of WR_REG reports 0xDEAD. -/
theorem test_wr_reg_io_error :
    ended (step { issued 0x0208000A State.reset with
      hrdyScript := [.level true, .level true]
      busScript := [.ok [], .ioerr 0xDEAD] }) = some (true, 1, 0xDEAD, 2, 1) := by decide

theorem test_reset :
    after (fun t => (t.stat.infoValid, t.stat.resetN, t.trace)) (step (issued 0x00000010 s1)) =
      some (false, false, [.lineResetN false]) := by decide
theorem test_reset_ends :
    after (fun t => (t.stat.busy, t.stat.resetN))
      (step { running .reset [.hold 100, .pulseHigh] State.reset with now := 100 }) = some (false, true) := by decide

/-- P1: the fourteen exchanges, from the end of the settle delay. -/
def settled (vcom : Word16) : State :=
  { running .init [.hold 100, .enterPhase .identify] State.reset with
    now := 200
    tDelay := 100
    lat := { State.reset.lat with vcfg := vcom } }

/-- The identification of L1-3. -/
def identification : List Byte :=
  [0, 0, 0, 0, 0x03, 0x20, 0x02, 0x58, 0x12, 0x34, 0x56, 0x78] ++ List.replicate 32 0

/-- The responses of P1. -/
def initAnswers : List (List Byte) :=
  [[], identification] ++ List.replicate 11 [] ++ [word 0x05 0xDC]

theorem test_init_starts :
    after (fun t => (t.stat.initPhase, t.stat.infoValid, t.stat.resetN)) (step (issued 0x00000011 s1)) =
      some (1, false, false) := by decide
theorem test_init :
    after (fun t => (statusWord t, t.info.panelW, t.info.panelH, t.info.imgBufAddr, t.regs.xcount))
      (step (wired (settled 1500) initAnswers)) = some (0x7E2 + 4, 800, 600, 0x56781234, 14) := by decide

/-- P6. -/
theorem test_rd_vcom :
    after (fun t => t.regs.result) (step (wired (issued 0x00000012 State.reset) [[], [], word 0x13 0x88])) =
      some 5000 := by decide
theorem test_wr_vcom :
    sent (step (wired (issued 0x13880013 State.reset) [[], [], []])) =
      [(.cmd, [0x60, 0, 0, 0x39]), (.cmd, [0, 0, 0, 1]), (.cmd, [0, 0, 0x13, 0x88])] := by decide
theorem test_wr_vcom_too_large :
    ended (step (issued 0x13890013 State.reset)) = some (true, 5, 5001, 0, 0) := by decide

theorem test_run : sent (step (wired (issued 0x00000014 State.reset) [[]])) = [(.cmd, [0x60, 0, 0, 1])] := by decide
theorem test_standby : sent (step (wired (issued 0x00000015 State.reset) [[]])) = [(.cmd, [0x60, 0, 0, 2])] := by decide
theorem test_sleep : sent (step (wired (issued 0x00000016 State.reset) [[]])) = [(.cmd, [0x60, 0, 0, 3])] := by decide

/-- L2-D5. -/
theorem test_wait_display_ready :
    ended (step (wired (issued 0x00000017 State.reset) [[], [], word 0 0])) = some (true, 0, 0, 0, 3) := by decide
theorem test_wait_display_ready_busy :
    after (fun t => (t.stat.busy, t.regs.xcount)) (step (wired (issued 0x00000017 State.reset) [[], [], word 0x80 0])) =
      some (true, 3) := by decide

/-- L2-X7: CLEAR of a 2×1 panel. -/
theorem test_clear :
    (sent (step (wired (issued 0x00FF0020
      { s1 with info := { s1.info with panelW := 2, panelH := 1, imgBufAddr := 0 } }) (List.replicate 10 [])))).drop 6 =
      [(.cmd, [0x60, 0, 0, 0x21]), (.data, [0, 0, 0, 0x30, 0, 0, 0, 0, 0, 2, 0, 1]), (.data, [0, 0, 0xFF, 0xFF]),
       (.cmd, [0x60, 0, 0, 0x22])] := by decide

/-- P2 and L2-X6. -/
theorem test_fill_area :
    sent (step (wired (issued 0x00AA0021 (withArea s1 0 0 3 1)) (List.replicate 10 []))) =
      [(.cmd, [0x60, 0, 0, 0x11]), (.cmd, [0, 0, 2, 0x0A]), (.cmd, [0, 0, 0x56, 0x78]),
       (.cmd, [0x60, 0, 0, 0x11]), (.cmd, [0, 0, 2, 8]), (.cmd, [0, 0, 0x12, 0x34]),
       (.cmd, [0x60, 0, 0, 0x21]), (.data, [0, 0, 0, 0x30, 0, 0, 0, 0, 0, 3, 0, 1]),
       (.data, [0, 0, 0xAA, 0xAA, 0, 0xAA]), (.cmd, [0x60, 0, 0, 0x22])] := by decide
theorem test_fill_area_outside :
    ended (step (issued 0x00000021 (withArea s1 0xFFFF 0 2 1))) = some (true, 4, 0xFFFF, 0, 0) := by decide

/-- L2-X8 and L2-X6. -/
theorem test_refresh :
    sent (step (wired (issued 0x00020022 s1) [[], []])) =
      [(.cmd, [0x60, 0, 0, 0x34]), (.data, [0, 0, 0, 0, 0, 0, 3, 0x20, 2, 0x58, 0, 2])] := by decide
theorem test_refresh_not_initialized :
    ended (step (issued 0x00020022 State.reset)) = some (true, 7, 0, 0, 0) := by decide
theorem test_refresh_area :
    sent (step (wired (issued 0x00010023 (withArea s1 10 20 30 40)) [[], []])) =
      [(.cmd, [0x60, 0, 0, 0x34]), (.data, [0, 0, 0, 10, 0, 20, 0, 30, 0, 40, 0, 1])] := by decide

/-- P3 and L1-5. -/
theorem test_load_image :
    (sent (step (wired (issued 0x00000424
      (withRange (withArea (withXbuf s1 [0x12, 0x34, 0x56]) 0 0 3 1) 0 3)) (List.replicate 10 [])))).drop 7 =
      [(.data, [0, 0, 0, 0x20, 0, 0, 0, 0, 0, 3, 0, 1]), (.data, [0, 0, 0x34, 0x12, 0, 0x56]),
       (.cmd, [0x60, 0, 0, 0x22])] := by decide
theorem test_load_image_too_small :
    ended (step (issued 0x00000824 (withRange (withArea s1 0 0 10 10) 0 99))) = some (true, 6, 99, 100, 0) := by decide

/-- A wire word where the next step fetches is sent as its command frame; the preambles start the shortest frames. -/
theorem test_wire_get_dev_info :
    sent (step ((wired State.reset [[]]).withFetchWord 16 0x0302)) = [(.cmd, [0x60, 0, 3, 2])] := by decide
theorem test_wire_vcom :
    sent (step ((wired State.reset [[]]).withFetchWord 16 0x0039)) = [(.cmd, [0x60, 0, 0, 0x39])] := by decide
theorem test_pre_write_command :
    sent (step { running (.preWriteCommand 7) (sendCmd 7) (wired State.reset [[]]) with seq := .wire [0x60, 0, 0, 7] }) =
      [(.cmd, [0x60, 0, 0, 7])] := by decide
theorem test_pre_write_data :
    sent (step { wired State.reset [[]] with seq := .wire [0, 0, 0xAA, 0xAA, 0, 0xAA] }) =
      [(.cmd, [0, 0, 0xAA, 0xAA, 0, 0xAA])] := by decide
theorem test_pre_read_data :
    after (fun t => t.words)
      (step { wired State.reset [[0, 0, 0, 0, 1, 2, 3, 4]] with seq := .wire [0x10, 0, 0, 0, 0, 0, 0, 0] }) =
      some [0x0102, 0x0304] := by decide

/-! ### Host accesses: L2-H1, L2-H2 -/

theorem test_arg0_masks :
    after (fun t => t.regs.arg0) (hostStore 0x00C 0xFFFF1234 State.reset) = some 0x1234 := by decide
theorem test_result_read_only :
    after (fun t => t.regs.result) (hostStore 0x028 5 State.reset) = some 0 := by decide
theorem test_collide :
    after (fun t => (t.stat.collide, t.lat.opw)) (hostStore 0x000 1 (running .reset [] State.reset)) =
      some (true, 0) := by decide
/-! ### Host programs: 30_encoding.md rules R126 to R128 -/

/-- A host program to run. -/
def program (prog : List HostOp) (s : State) : State := { s with hostProg := prog }

/-- A partly covered word is loaded, merged and stored; its other bytes stay. -/
theorem test_xput :
    after (fun t => (t.hostProg, t.xbuf)) (Host.Core.run Sys2Proof.core 2
      (program (xput Config.reference 1 [0x12, 0x34]) (withXbuf State.reset [7, 0, 0, 0x99]))) =
      some ([], [(0, 7), (1, 0x12), (2, 0x34), (3, 0x99)]) := by decide
theorem test_xput_whole_word :
    xput Config.reference 4 [0x12, 0x34, 0x56, 0x78] = [.access (store32 Config.reference 0x1004 0x78563412)] := by decide
theorem test_xget :
    after (fun t => (t.hostProg, t.hostBytes)) (Host.Core.run Sys2Proof.core 2
      (program (xget 3 2) (withXbuf State.reset [0, 0, 0, 0x12, 0x34, 0, 0, 0]))) = some ([], [0x12, 0x34]) := by decide
theorem test_issue :
    issue Config.reference { instr := .wrReg 0x0208, arg0 := some 0x1234, buf := none, n := none, area := none } =
      some [.access (store32 Config.reference 0x00C 0x1234), .access (store32 Config.reference 0x008 0x0208000A),
        .access (store32 Config.reference 0x000 1), .waitDone, .access (load32 Config.reference 0x02C)] := by decide
theorem test_wait_done_stays :
    after (fun t => t.hostProg) (hostStep (program [.waitDone] (running .run [] State.reset))) = some [.waitDone] := by
  decide
theorem test_wait_done_leaves : after (fun t => t.hostProg) (hostStep (program [.waitDone] s1)) = some [] := by decide

/-- R328: the run of a program ends with its last instruction and BUSY = 0, and stays there. -/
theorem test_run_ends :
    endState (fresh 0x14) = none ∧ endState (program [.waitDone] s1) = none ∧
      endState s1 = some ⟨s1.regs, s1.info, statusWord s1, [], []⟩ ∧ after (fun t => t == s1) (step s1) = some true := by decide

/-! ### A race on XBUF: 20_memory.md rule R93 -/

/-- A store into the words WR_DATA_BATCH sends: either value is sent, and the operation goes on. -/
theorem test_race_store :
    after (fun t => (t.raceNo, raceOthers t 5)) (hostStore 0x1004 0x11223344
      (issued 0x00000004 (withRange (withXbuf State.reset [0, 0, 0, 0, 1, 2, 3, 4]) 4 2))) =
      some (1, [0x33, 2]) := by decide
/-- A load of the bytes RD_DATA_BATCH will write: the old byte or the one in the response. -/
theorem test_race_load :
    hostOthers (wired (issued 0x00000006 (withRange State.reset 4 1)) [[0, 0, 0, 0, 0x12, 0x34]]) 4 = [0x34] := by decide
/-- The end of the operation ends the race. -/
theorem test_race_ends : (succeed { s1 with xbufRace := [(4, 1)] }).xbufRace = [] := by decide

/-! ### The opcode table -/

theorem test_table_word : decodeTableWord 32 0x00AA0021 = some (.fillArea 0xAA) := by decide
theorem test_table_preamble : decodeTableWord 16 0x1000 = some (.preReadData 1) := by decide

/-! ### Witnesses: concrete states and operands that meet the hypotheses of the statements -/

theorem atStart_of_decode {s : State} (h : s.seq = .decode) : AtStart s := by simp [AtStart, h]

theorem answered_wired (s : State) (rs : List (List Byte)) : Answered (wired s rs) rs := by
  intro k h
  constructor <;> simp [hrdyAt, busAt, wired, h]

theorem answered_prefix (s : State) (rs qs : List (List Byte)) : Answered (wired s (rs ++ qs)) rs := by
  intro k h
  have h' : k < (rs ++ qs).length := by
    rw [List.length_append]
    omega
  have := answered_wired s (rs ++ qs) k h'
  rwa [List.getElem_append_left h] at this

theorem served_wired (s : State) (rs : List (List Byte)) (n : Nat) (h : s.seq = .decode) (hs : s.speed = .cmd)
    (hb : n ≤ s.burst) : Served (wired s rs) rs n :=
  ⟨atStart_of_decode h, hs, hb, answered_wired s rs⟩

theorem test_witness_DecodeEncodeWellFormed :
    (Instr.wrCmd 0x0022).wellFormed Config.reference = true ∧ (Instr.refresh 4).wellFormed Config.reference = true ∧
      (Instr.loadImage 8).wellFormed Config.reference = true ∧
      (Instr.preWriteData [7]).wellFormed Config.reference = true ∧
      (Instr.preReadData 1).wellFormed Config.reference = true := by decide

theorem test_witness_EncodeDecode :
    decode (.opw 0xFFFF0003) = .ok (.wrData 0xFFFF) ∧ decode (.wire [0x60, 0, 0, 0x34]) = .ok (.preWriteCommand 0x34) := by
  decide

theorem test_witness_IllegalWordsEndAtDecode :
    (fresh 0x25).seq = .decode ∧ illegalReasonOf (fresh 0x25).lat.opw = some 1 ∧
      illegalReasonOf (fresh 0x00010005).lat.opw = some 2 ∧ illegalReasonOf (fresh 0x00340001).lat.opw = some 3 ∧
      illegalReasonOf (fresh 0x00040022).lat.opw = none := by decide

/-- A word that does not decode, at the Engine's turn by the reference schedule and by the agenda. -/
theorem test_witness_StepRunsDecoded_illegal :
    paramsOk (fresh 0x25).params = true ∧ (fresh 0x25).agenda = [] ∧ (fresh 0x25).seq = .decode ∧
      illegalReasonOf (fresh 0x25).lat.opw = some 1 ∧
      { fresh 0x25 with agenda := [.engine] }.agenda = [.engine] ∧
      illegalReasonOf { fresh 0x25 with agenda := [.engine] }.lat.opw = some 1 := by decide

theorem test_witness_FrameLengths :
    paramsOk { Config.reference with busMaxBytes := 44 } = true ∧
      (List.replicate 21 (0 : Word16)).length ≤ chunkWords { Config.reference with busMaxBytes := 44 } ∧
      20 ≤ rdMaxWords { Config.reference with busMaxBytes := 44 } := by decide

theorem test_witness_BulkWords : (withXbuf State.reset [1, 2, 3]).xbufRace = [] ∧ 3 % 2 = 1 := by decide

/-- R153's example: seven words in chunks of three. -/
theorem test_witness_ChunkArithmetic :
    (chunkList 3 [1, 2, 3, 4, 5, 6, 7])[1]? = some [4, 5, 6] ∧ 1 + 1 < ceilDiv 7 3 ∧
      (chunkList 3 [1, 2, 3, 4, 5, 6, 7]).getLast? = some [7] := by decide

theorem test_witness_AreaFunctions :
    areaIntersection ⟨0, 0, 10, 10⟩ ⟨9, 9, 10, 10⟩ = some ⟨9, 9, 1, 1⟩ ∧
      areaIntersection ⟨0, 0, 10, 10⟩ ⟨10, 0, 10, 10⟩ = none := by decide

theorem test_witness_ParseIdentification :
    (List.replicate 20 (0x3156 : Word16)).length = 20 ∧ (parseDevInfo (List.replicate 20 0x3156)).fwLen = 16 ∧
      (parseDevInfo (List.replicate 20 0)).fwLen = 0 := by decide

theorem test_witness_ResetRegisters : ∃ s, engineReset s1 = engineReset s := ⟨s1, rfl⟩

theorem test_witness_EngineResetAbandons :
    paramsOk (running .run [.xferCmd 1] State.reset).params = true ∧
      { running .run [.xferCmd 1] State.reset with agenda := [.engineReset] }.agenda = [.engineReset] := by decide

theorem test_witness_GoIsAcceptedOrRejected :
    (0xFFFFFFFE : Word32).getLsbD 0 = false ∧ (1 : Word32).getLsbD 0 = true ∧ State.reset.stat.busy = false ∧
      (fresh 1).stat.busy = true := by decide

/-- A host access of four bytes at an offset, as the agenda's next turn. -/
def accessing (store : Bool) (off : Nat) (v : Word32) (s : State) : State :=
  { s with
    agenda := [.host { store := store, addr := s.params.engineBase + BitVec.ofNat 32 off, width := 4, data := v }] }

theorem test_witness_GoIsAcceptedOrRejected_store :
    Reaches32 (store32 Config.reference 0x000 1) 0x000 s1 ∧ (store32 Config.reference 0x000 1).store = true :=
  ⟨⟨rfl, rfl, rfl⟩, rfl⟩

theorem test_witness_HostRegisterAccess :
    State.reset.stat.busy = false ∧ (fresh 1).stat.busy = true ∧
      0x058 ∉ [0x000, 0x008, 0x00C, 0x010, 0x014, 0x018, 0x01C, 0x020, 0x024, 0x044, 0x048, 0x04C] ∧
      0x04C ≠ 0x044 := by decide

/-- A store and loads outside the window: a register, a device-information register, and the edges of the unmapped
offsets. -/
theorem test_witness_HostRegisterAccess_step :
    Reaches32 (store32 Config.reference 0x04C 7) 0x04C s1 ∧ Reaches32 (load32 Config.reference 0x08C) 0x08C s1 ∧
      s1.stat.infoValid = true ∧ Reaches32 (load32 Config.reference 0x058) 0x058 s1 ∧
      Reaches32 (load32 Config.reference 0x05C) 0x05C s1 ∧ Reaches32 (load32 Config.reference 0x090) 0x090 s1 ∧
      Reaches32 (load32 Config.reference 0x2000) 0x2000 s1 ∧
      (∀ off ∈ [0x04C, 0x08C, 0x058, 0x05C, 0x090, 0x2000], inWindow s1 off = false) ∧
      HostMoves (load32 Config.reference 0x090) (accessing false 0x090 0 s1) s1 := by
  refine ⟨⟨rfl, rfl, rfl⟩, ⟨rfl, rfl, rfl⟩, rfl, ⟨rfl, rfl, rfl⟩, ⟨rfl, rfl, rfl⟩, ⟨rfl, rfl, rfl⟩, ⟨rfl, rfl, rfl⟩,
    by decide, [], rfl, rfl⟩

/-- Accesses inside the window and at its edges, and the offsets around the device-information file. -/
theorem test_witness_HostStops_reaches :
    Reaches32 (store32 Config.reference 0x1000 7) 0x1000 s1 ∧ Reaches32 (load32 Config.reference 0x1FFC) 0x1FFC s1 ∧
      inWindow s1 0x1000 = true ∧ inWindow s1 0x1FFC = true ∧ inWindow s1 0x2000 = false ∧
      (store32 Config.reference 0x1000 7).store = true ∧ (load32 Config.reference 0x1FFC).store = false ∧
      Reaches32 (load32 Config.reference 0x05C) 0x05C State.reset ∧
      Reaches32 (load32 Config.reference 0x090) 0x090 State.reset ∧ Reaches32 (load32 Config.reference 0x060) 0x060 s1 ∧
      s1.stat.infoValid = true :=
  ⟨⟨rfl, rfl, rfl⟩, ⟨rfl, rfl, rfl⟩, by decide, by decide, by decide, rfl, rfl, ⟨rfl, rfl, rfl⟩, ⟨rfl, rfl, rfl⟩,
    ⟨rfl, rfl, rfl⟩, rfl⟩

/-- A host write of BUFOFF while an operation runs. -/
theorem test_witness_OperandWritesWhileBusy :
    0x010 ∈ [0x008, 0x00C, 0x010, 0x014, 0x018, 0x01C, 0x020, 0x024, 0x044, 0x048] ∧ (fresh 1).stat.busy = true ∧
      (writeReg 0x010 7 (fresh 1)).regs.bufoff = 7 ∧ (writeReg 0x010 7 (fresh 1)).lat = (fresh 1).lat := by decide

/-- The first and the last word: no byte in use, bytes an operation reads, bytes RD_DATA_BATCH writes. -/
theorem test_witness_HostWindow :
    0 % 4 = 0 ∧ 0 + 4 ≤ State.reset.params.xbufBytes ∧ 4092 % 4 = 0 ∧ 4092 + 4 ≤ State.reset.params.xbufBytes ∧
      storeRaces State.reset 0 = false ∧ loadRaces State.reset 4092 = false ∧
      storeRaces (issued 0x00000004 (withRange State.reset 0 2)) 4092 = false ∧
      storeRaces (issued 0x00000004 (withRange State.reset 4094 1)) 4092 = true ∧
      loadRaces (issued 0x00000004 (withRange State.reset 4094 1)) 4092 = false ∧
      loadRaces (wired (issued 0x00000006 (withRange State.reset 4094 1)) [[0, 0, 0, 0, 1, 2]]) 4092 = true ∧
      loadRaces (wired (issued 0x00000006 (withRange State.reset 4094 1)) [[0, 0, 0, 0, 1, 2]]) 4088 = false := by decide

/-- A byte in use and its neighbours; an empty range, and one that ends past XBUF, are not in use. -/
theorem test_witness_HostWindow_use :
    byteUse (issued 0x00000004 (withRange State.reset 4 2)) 3 = none ∧
      byteUse (issued 0x00000004 (withRange State.reset 4 2)) 4 = some false ∧
      byteUse (issued 0x00000006 (withRange State.reset 4 2)) 7 = some true ∧
      byteUse (issued 0x00000006 (withRange State.reset 4 2)) 8 = none ∧
      byteUse (issued 0x00000824 (withRange State.reset 4 3)) 6 = some false ∧
      byteUse (issued 0x00000004 (withRange State.reset 4 0)) 4 = none ∧
      byteUse (issued 0x00000004 (withRange State.reset 4092 3)) 4092 = none := by decide

theorem test_witness_HostStops :
    hostOffset State.reset 2 % 4 ≠ 0 ∧ hostOffset State.reset 0x08E % 4 ≠ 0 ∧ State.reset.stat.infoValid = false ∧
      s1.stat.infoValid = true ∧ 0x060 ≤ 0x08C ∧ 0x08C < 0x090 ∧ 0x05C < 0x060 ∧ 0x090 ≤ 0x090 := by decide

/-- The agenda's turns, a Delay, an idle Engine, a run that has ended, and runs that have not. -/
theorem test_witness_ClockTicks :
    paramsOk State.reset.params = true ∧ { State.reset with agenda := [.clock] }.agenda = [.clock] ∧
      State.reset.agenda = [] ∧ held (running .reset [.hold 100, .pulseHigh] State.reset) = true ∧
      (running .reset [.hold 100, .pulseHigh] State.reset).agenda = [] ∧ State.reset.seq = .idle ∧
      { State.reset with agenda := [.program] }.agenda = [.program] ∧ runEnded State.reset = true ∧
      (State.reset.stat.busy = true ↔ State.reset.seq ≠ .idle) ∧ (fresh 1).stat.busy = true ∧
      (program [.waitDone] s1).hostProg ≠ [] := by decide

/-- An operation to issue, its end, bytes to put at an odd offset and to get up to the end of XBUF. -/
theorem test_witness_HostProgramsRun :
    HostRuns s1 ∧ s1.stat.busy = false ∧
      issue s1.params { instr := .run, arg0 := none, buf := none, n := none, area := none } =
        some ([.access (store32 s1.params 0x008 0x14), .access (store32 s1.params 0x000 1), .waitDone,
          .access (load32 s1.params 0x02C)]) ∧
      3 + [(1 : Byte), 2].length ≤ s1.params.xbufBytes ∧ 4095 + 1 ≤ s1.params.xbufBytes :=
  ⟨⟨by decide, rfl, rfl⟩, rfl, by decide, by decide, by decide⟩

theorem test_witness_StepRunsDecoded :
    paramsOk (fresh 1).params = true ∧ (fresh 0x14).agenda = [] ∧ (fresh 0x14).seq = .decode ∧
      decode (.opw (fresh 0x14).lat.opw) = .ok .run ∧
      { State.reset with seq := .wire [0, 1] }.seq = .wire [0, 1] ∧ decode (.wire [0, 1]) = .ok .wireSysRun ∧
      held (running .run (sendCmd 1) { State.reset with agenda := [.engine] }) = false := by decide

theorem test_witness_SuccessEnd :
    (running .rdData [] State.reset).seq = .run .rdData [] ∧ frameLengthOk State.reset.params .rdData = true := by decide

theorem test_witness_CommandsComplete : commandOf (.wrUcmd 0x0302) = some 0x0302 ∧ commandOf .sleep = some 3 ∧
    Served (wired (fresh 0x03020002) [[]]) [[]] 3 :=
  ⟨by decide, by decide, served_wired _ _ _ rfl rfl (by decide)⟩

theorem test_witness_WireCommandsComplete : wireOpcode .wireGetDevInfo = some 0x0302 ∧
    wireOpcode (.preWriteCommand 0xFFFF) = some 0xFFFF ∧ Served (wired (fresh 0) [[]]) [[]] 3 :=
  ⟨by decide, by decide, served_wired _ _ _ rfl rfl (by decide)⟩

theorem test_witness_WrDataCompletes : Served (wired (fresh 0xFFFF0003) [[]]) [[]] 3 :=
  served_wired _ _ _ rfl rfl (by decide)

/-- The longest chunk of a 44-byte bus, the longest read, and the lengths just outside. -/
theorem test_witness_WireDataFramesComplete :
    1 ≤ (List.replicate 21 (7 : Word16)).length ∧
      (List.replicate 21 (7 : Word16)).length ≤ chunkWords (smallBus State.reset).params ∧
      Served (wired (smallBus (fresh 0)) [[]]) [[]] 4 ∧
      1 ≤ 20 ∧ 20 ≤ rdMaxWords (smallBus State.reset).params ∧
      Served (wired (smallBus (fresh 0)) [List.replicate 44 0]) [List.replicate 44 0] 3 ∧
      4 + 2 * 20 ≤ (List.replicate 44 (0 : Byte)).length ∧
      chunkWords (smallBus State.reset).params < (List.replicate 22 (7 : Word16)).length ∧
      rdMaxWords (smallBus State.reset).params < 21 :=
  ⟨by decide, by decide, served_wired _ _ _ rfl rfl (by decide), by decide, by decide,
    served_wired _ _ _ rfl rfl (by decide), by decide, by decide, by decide⟩

theorem test_witness_RdDataCompletes :
    Served (wired (fresh 5) [word 0 0x2A]) [word 0 0x2A] 4 ∧ 6 ≤ (word 0 0x2A).length :=
  ⟨served_wired _ _ _ rfl rfl (by decide), by decide⟩

theorem test_witness_RdRegCompletes :
    Served (wired (fresh 0x12240009) [[], [], word 0 1]) [[], [], word 0 1] 8 ∧ 6 ≤ (word 0 1).length :=
  ⟨served_wired _ _ _ rfl rfl (by decide), by decide⟩

theorem test_witness_WrRegCompletes : Served (wired (fresh 0x0208000A) [[], [], []]) [[], [], []] 7 :=
  served_wired _ _ _ rfl rfl (by decide)

/-- 22 words that end XBUF exactly, in two chunks; and no words from an offset outside XBUF. -/
theorem test_witness_WrDataBatchCompletes :
    paramsOk (smallBus State.reset).params = true ∧
      (4052 : Word32).toNat + 2 * (22 : Word32).toNat ≤ State.reset.params.xbufBytes ∧
      [([] : List Byte), []].length = ceilDiv (22 : Word32).toNat (chunkWords (smallBus State.reset).params) ∧
      Served (wired (issued 4 (withRange (smallBus State.reset) 4052 22)) [[], []]) [[], []] 7 ∧
      (issued 4 (withRange State.reset 0xFFFFFFFF 0)).lat.len.toNat = 0 ∧
      ([] : List (List Byte)).length = ceilDiv 0 (chunkWords State.reset.params) ∧
      Served (wired (issued 4 (withRange State.reset 0xFFFFFFFF 0)) []) [] 3 :=
  ⟨by decide, by decide, by decide, served_wired _ _ _ rfl rfl (by decide), by decide, by decide,
    served_wired _ _ _ rfl rfl (by decide)⟩

theorem test_witness_CmdArgsComplete :
    argsCommandOf (.wrCmdArgs 0x0021) = some 0x0021 ∧ argsCommandOf (.wrUcmdArgs 0x0034) = some 0x0034 ∧
      paramsOk State.reset.params = true ∧
      (4086 : Word32).toNat + 2 * (5 : Word32).toNat ≤ State.reset.params.xbufBytes ∧
      [([] : List Byte)].length = ceilDiv (5 : Word32).toNat (chunkWords State.reset.params) ∧
      Served (wired (issued 0x00210007 (withRange State.reset 4086 5)) [[], []]) [[], []] 7 :=
  ⟨by decide, by decide, by decide, by decide, by decide, served_wired _ _ _ rfl rfl (by decide)⟩

/-- A word of the response that the host has raced on: the byte it stored, or the one of the response. -/
theorem test_rd_data_batch_race :
    (after (fun t => xbufByte t 0)
      (step (wired { issued 0x00000006 (withRange State.reset 0 1) with xbufRace := [(1, 7)] } [[0, 0, 0, 0, 1, 2]]))) =
      some 2 := by decide

/-- No words, and two words that end XBUF exactly. -/
theorem test_witness_RdDataBatchCompletes :
    AtStart (fresh 6) ∧ (fresh 6).lat.len.toNat = 0 ∧ 1 ≤ (fresh 6).burst ∧
      (4092 : Word32).toNat + 2 * (2 : Word32).toNat ≤ State.reset.params.xbufBytes ∧
      Served (wired (issued 6 (withRange State.reset 4092 2)) [[0, 0, 0, 0, 1, 2, 3, 4]]) [[0, 0, 0, 0, 1, 2, 3, 4]] 4 ∧
      4 + 2 * (2 : Word32).toNat ≤ [(0 : Byte), 0, 0, 0, 1, 2, 3, 4].length ∧
      (2 : Word32).toNat ≤ rdMaxWords State.reset.params :=
  ⟨atStart_of_decode rfl, by decide, by decide, by decide, served_wired _ _ _ rfl rfl (by decide), by decide, by decide⟩

theorem test_witness_RdVcomCompletes :
    Served (wired (fresh 0x12) [[], [], word 0x13 0x88]) [[], [], word 0x13 0x88] 8 ∧ 6 ≤ (word 0x13 0x88).length :=
  ⟨served_wired _ _ _ rfl rfl (by decide), by decide⟩

theorem test_witness_WrVcomCompletes :
    (5000 : Word16).toNat ≤ 5000 ∧ Served (wired (fresh 0x13880013) [[], [], []]) [[], [], []] 8 ∧
      5000 < (5001 : Word16).toNat ∧ AtStart (fresh 0x13890013) :=
  ⟨by decide, served_wired _ _ _ rfl rfl (by decide), by decide, atStart_of_decode rfl⟩

theorem test_witness_ResetCompletes :
    AtStart (fresh 0x10) ∧ paramsOk (fresh 0x10).params = true ∧ 3 ≤ (fresh 0x10).burst ∧
      { running .reset [.hold 100, .pulseHigh] State.reset with now := 100 }.seq = .run .reset [.hold 100, .pulseHigh] ∧
      100 ≤ { running .reset [.hold 100, .pulseHigh] State.reset with now := 100 }.now - State.reset.tDelay :=
  ⟨atStart_of_decode rfl, by decide, by decide, by decide, by decide⟩

theorem test_witness_ResetRuns :
    (fresh 0x10).seq = .decode ∧ decode (.opw (fresh 0x10).lat.opw) = .ok .reset ∧ (fresh 0x10).agenda = [] ∧
      paramsOk (fresh 0x10).params = true ∧ 3 ≤ (fresh 0x10).burst := by decide

theorem test_witness_InitStarts :
    AtStart (fresh 0x11) ∧ paramsOk (fresh 0x11).params = true ∧ 3 ≤ (fresh 0x11).burst ∧
      (running .init [.hold 100, .pulseHigh, .enterPhase .settle] { State.reset with now := 100 }).seq =
        .run .init [.hold 100, .pulseHigh, .enterPhase .settle] ∧
      100 ≤ { State.reset with now := 100 }.now - State.reset.tDelay :=
  ⟨atStart_of_decode rfl, by decide, by decide, by decide, by decide⟩

theorem test_witness_InitCompletes :
    (wired (settled 1500) initAnswers).seq = .run .init [.hold 100, .enterPhase .identify] ∧
      100 ≤ (settled 1500).now - (settled 1500).tDelay ∧ (settled 1500).speed = .cmd ∧ 64 ≤ (settled 1500).burst ∧
      initAnswers.length = 14 ∧ Answered (wired (settled 1500) initAnswers) initAnswers ∧
      44 ≤ (initAnswers.getD 1 []).length ∧ 6 ≤ (initAnswers.getD 13 []).length ∧
      wordOf (initAnswers.getD 13 []) = (settled 1500).lat.vcfg :=
  ⟨by decide, by decide, by decide, by decide, by decide, answered_wired _ _, by decide, by decide, by decide⟩

/-- A legal target with the three answers of its write, and an illegal one, both differing from the device's. -/
theorem test_witness_InitSynchronizesVcom :
    Answered (wired (settled 5000) (initAnswers ++ [[], [], []])) (initAnswers ++ [[], [], []]) ∧
      Answered (wired (settled 5000) (initAnswers ++ [[], [], []])) initAnswers ∧
      wordOf (initAnswers.getD 13 []) ≠ (settled 5000).lat.vcfg ∧ (settled 5000).lat.vcfg.toNat ≤ 5000 ∧
      Answered (wired (settled 5001) initAnswers) initAnswers ∧
      wordOf (initAnswers.getD 13 []) ≠ (settled 5001).lat.vcfg ∧ 5000 < (settled 5001).lat.vcfg.toNat ∧
      (settled 5001).seq = .run .init [.hold 100, .enterPhase .identify] ∧
      100 ≤ (settled 5001).now - (settled 5001).tDelay ∧ (settled 5001).speed = .cmd ∧ 64 ≤ (settled 5001).burst ∧
      initAnswers.length = 14 ∧ 44 ≤ (initAnswers.getD 1 []).length ∧ 6 ≤ (initAnswers.getD 13 []).length :=
  ⟨answered_wired _ _, answered_prefix _ _ _, by decide, by decide, answered_wired _ _, by decide, by decide, by decide,
    by decide, by decide, by decide, by decide, by decide, by decide⟩

/-- A first poll, idle and busy; a later poll at the deadline and before it. -/
theorem test_witness_WaitDisplayReadyCompletes_first :
    Served (wired (fresh 0x17) [[], [], word 0 0]) [[], [], word 0 0] 9 ∧ wordOf (word 0 0) = 0 ∧
      Served (wired (fresh 0x17) [[], [], word 0x80 0]) [[], [], word 0x80 0] 9 ∧ wordOf (word 0x80 0) ≠ 0 ∧
      6 ≤ (word 0 0).length ∧ 0 < State.reset.params.drdyPollMs :=
  ⟨served_wired _ _ _ rfl rfl (by decide), by decide, served_wired _ _ _ rfl rfl (by decide), by decide, by decide,
    by decide⟩

/-- The poll held for one millisecond, `now` milliseconds into an operation with a deadline of 5. -/
def polled (now : Nat) : State :=
  { running .waitDisplayReady (.hold 1 :: lutPoll) State.reset with
    now := now
    tDelay := now - 1
    lat := { State.reset.lat with dtmo := 5 } }

theorem test_witness_WaitDisplayReadyCompletes_later :
    (polled 5).seq = .run .waitDisplayReady (.hold 1 :: lutPoll) ∧ 1 ≤ (polled 5).now - (polled 5).tDelay ∧
      (polled 5).speed = .cmd ∧ 9 ≤ (polled 5).burst ∧
      Answered (wired (polled 5) [[], [], word 0 1]) [[], [], word 0 1] ∧ 6 ≤ (word 0 1).length ∧
      wordOf (word 0 1) ≠ 0 ∧ (polled 5).lat.dtmo ≠ 0 ∧ (polled 5).lat.dtmo.toNat ≤ (polled 5).now - (polled 5).tOp ∧
      Answered (wired (polled 4) [[], [], word 0 1]) [[], [], word 0 1] ∧
      (polled 4).now - (polled 4).tOp < (polled 4).lat.dtmo.toNat ∧ 1 ≤ (polled 4).now - (polled 4).tDelay :=
  ⟨by decide, by decide, by decide, by decide, answered_wired _ _, by decide, by decide, by decide, by decide,
    answered_wired _ _, by decide, by decide⟩

/-- A poll interval of 0: two busy polls and an idle one, and the test of a busy poll. -/
def noPollDelay (s : State) : State := { s with params := { s.params with drdyPollMs := 0, hrdyPollMs := 0 } }

theorem test_witness_WaitDisplayReadyCompletes_at_once :
    (noPollDelay (fresh 0x17)).params.drdyPollMs = 0 ∧
      Served (wired (noPollDelay (fresh 0x17)) [[], [], word 0 1, [], [], word 0x80 0, [], [], word 0 0])
        ([([], [], word 0 1), ([], [], word 0x80 0)].flatMap (fun p => [p.1, p.2.1, p.2.2]) ++ [[], [], word 0 0])
        (9 * (2 + 1)) ∧
      wordOf (word 0 1) ≠ 0 ∧ wordOf (word 0x80 0) ≠ 0 ∧ 6 ≤ (word 0 1).length ∧ wordOf (word 0 0) = 0 ∧
      (noPollDelay { running .waitDisplayReady [.lutTest] State.reset with words := [1] }).seq =
        .run .waitDisplayReady [.lutTest] ∧
      readWord { running .waitDisplayReady [.lutTest] State.reset with words := [1] } ≠ 0 ∧ State.reset.lat.dtmo = 0 :=
  ⟨by decide, served_wired _ _ _ rfl rfl (by decide), by decide, by decide, by decide, by decide, by decide, by decide,
    by decide⟩

theorem test_witness_FillsComplete :
    paramsOk s1.params = true ∧ latchedArea (issued 0x00AA0021 (withArea s1 799 599 1 1)) = ⟨799, 599, 1, 1⟩ ∧
      s1.stat.infoValid = true ∧ areaValid ⟨799, 599, 1, 1⟩ 800 600 = true ∧
      (List.replicate 10 ([] : List Byte)).length = 9 + ceilDiv (ceilDiv (1 * 1) 2) (chunkWords s1.params) ∧
      Served (wired (issued 0x00AA0021 (withArea s1 799 599 1 1)) (List.replicate 10 [])) (List.replicate 10 []) 36 ∧
      areaValid (fullPanel s1) s1.info.panelW.toNat s1.info.panelH.toNat = true :=
  ⟨by decide, by decide, by decide, by decide, by decide, served_wired _ _ _ rfl rfl (by decide), by decide⟩

theorem test_witness_LoadImageCompletes :
    paramsOk s1.params = true ∧ pixelFormatOf 4 = some .bpp4 ∧
      (4094 : Word32).toNat + (2 : Word32).toNat ≤ s1.params.xbufBytes ∧ s1.stat.infoValid = true ∧
      areaValid (latchedArea (issued 0x00000424 (withRange (withArea s1 0 0 3 1) 4094 2))) 800 600 = true ∧
      expectedBytes .bpp4 (pixelCount ⟨0, 0, 3, 1⟩) ≤ (2 : Word32).toNat ∧
      (List.replicate 10 ([] : List Byte)).length = 9 + ceilDiv (ceilDiv 2 2) (chunkWords s1.params) ∧
      Served (wired (issued 0x00000424 (withRange (withArea s1 0 0 3 1) 4094 2)) (List.replicate 10 []))
        (List.replicate 10 []) 36 :=
  ⟨by decide, by decide, by decide, by decide, by decide, by decide, by decide, served_wired _ _ _ rfl rfl (by decide)⟩

theorem test_witness_RefreshesComplete :
    paramsOk s1.params = true ∧ (4 : Word16).toNat ≤ 4 ∧ s1.stat.infoValid = true ∧
      areaValid (fullPanel s1) s1.info.panelW.toNat s1.info.panelH.toNat = true ∧
      areaValid (latchedArea (issued 0x00040023 (withArea s1 0 0 800 600))) 800 600 = true ∧
      Served (wired (issued 0x00040023 (withArea s1 0 0 800 600)) [[], []]) [[], []] 9 :=
  ⟨by decide, by decide, by decide, by decide, by decide, served_wired _ _ _ rfl rfl (by decide)⟩

/-- LEN one byte past XBUF; not initialized; one column too many; one byte too few. -/
theorem test_witness_DisplayChecks :
    AtStart (issued 0x00000824 (withRange (withArea s1 0 0 1 1) 4095 2)) ∧ operandDefect (.loadImage 8) = none ∧
      (2 : Word32).toNat ≠ 0 ∧ s1.params.xbufBytes < (4095 : Word32).toNat + (2 : Word32).toNat ∧
      AtStart (fresh 0x00000021) ∧ (fresh 0x00000021).stat.infoValid = false ∧ operandDefect (.fillArea 0) = none ∧
      ¬ (0 + (801 : Word16).toNat ≤ s1.info.panelW.toNat) ∧
      0 + (800 : Word16).toNat ≤ s1.info.panelW.toNat ∧ 0 + (600 : Word16).toNat ≤ s1.info.panelH.toNat ∧
      (99 : Word32).toNat < expectedBytes .bpp8 (10 * 10) ∧ pixelFormatOf 8 = some .bpp8 :=
  ⟨atStart_of_decode rfl, by decide, by decide, by decide, atStart_of_decode rfl, by decide, by decide, by decide,
    by decide, by decide, by decide, by decide⟩

theorem test_witness_BatchRangeChecks :
    AtStart (issued 0x00000004 (withRange State.reset 4095 1)) ∧ operandDefect .wrDataBatch = none ∧
      (1 : Word32).toNat ≠ 0 ∧ State.reset.params.xbufBytes < (4095 : Word32).toNat + 2 * (1 : Word32).toNat ∧
      AtStart (issued 0x00000006 (withRange (smallBus State.reset) 0 21)) ∧
      rdMaxWords (smallBus State.reset).params < (21 : Word32).toNat :=
  ⟨atStart_of_decode rfl, by decide, by decide, by decide, atStart_of_decode rfl, by decide⟩

/-- Each outcome of a sample and of an exchange, at its boundary. -/
theorem test_witness_DeviceErrors_sample :
    (running .run [.waitReady] State.reset).seq = .run .run [.waitReady] ∧
      hrdyAt { running .run [.waitReady] State.reset with hrdyScript := [.ioerr 7] } 0 = .ioerr 7 ∧
      hrdyAt { running .run [.waitReady] State.reset with hrdyScript := [.level true] } 0 = .level true ∧
      hrdyAt { running .run [.resample] State.reset with hrdyScript := [.level false] } 0 = .level false ∧
      (3 : Word32).toNat ≤ 3 - 0 ∧ 2 - 0 < (3 : Word32).toNat := by decide

theorem test_witness_DeviceErrors_exchange :
    (running .rdData [.xferRead 1] State.reset).seq = .run .rdData [.xferRead 1] ∧
      busAt { running .rdData [.xferRead 1] State.reset with busScript := [.ioerr 7] } 0 = .ioerr 7 ∧
      busAt { running .rdData [.xferRead 1] State.reset with busScript := [.ok [1, 2, 3, 4, 5]] } 0 = .ok [1, 2, 3, 4, 5] ∧
      [(1 : Byte), 2, 3, 4, 5].length < 4 + 2 * 1 := by decide

/-- Deadline 3, poll interval 2: the samples at 0, 2 and 4 are low. -/
def neverReady : State :=
  { running .run (sendCmd 1) State.reset with
    hrdyScript := [.level false, .level false, .level false]
    lat := { State.reset.lat with tmo := 3 }
    params := { State.reset.params with hrdyPollMs := 2 } }

theorem test_witness_NeverReadyTimesOut :
    neverReady.seq = .run .run (.waitReady :: [.xferCmd 1]) ∧ neverReady.agenda = [] ∧
      frameLengthOk neverReady.params .run = true ∧ paramsOk neverReady.params = true ∧
      0 < neverReady.params.hrdyPollMs ∧
      (∀ k, k * neverReady.params.hrdyPollMs < neverReady.lat.tmo.toNat + neverReady.params.hrdyPollMs →
        hrdyAt neverReady k = .level false) := by
  refine ⟨by decide, by decide, by decide, by decide, by decide, ?_⟩
  intro k hk
  have hk : k * 2 < 5 := hk
  have h : k = 0 ∨ k = 1 ∨ k = 2 := by omega
  rcases h with rfl | rfl | rfl <;> rfl

/-- A wait with a poll interval of 0, before its deadline: every sample of the turn reads low. -/
def lowForever : State :=
  noPollDelay { running .run (.resample :: [.xferCmd 1]) State.reset with
    hrdyScript := [.level false, .level false, .level false]
    burst := 2
    lat := { State.reset.lat with tmo := 3 } }

theorem test_witness_NeverReadyTimesOut_no_delay :
    lowForever.seq = .run .run (.resample :: [.xferCmd 1]) ∧ frameLengthOk lowForever.params .run = true ∧
      lowForever.params.hrdyPollMs = 0 ∧ lowForever.now - lowForever.tWait < lowForever.lat.tmo.toNat ∧
      ∀ k, k ≤ lowForever.burst → hrdyAt lowForever k = .level false := by
  refine ⟨by decide, by decide, by decide, by decide, ?_⟩
  intro k hk
  have hk : k ≤ 2 := hk
  have h : k = 0 ∨ k = 1 ∨ k = 2 := by omega
  rcases h with rfl | rfl | rfl <;> rfl

/-- At the deadline, and with a deadline of 0. -/
theorem test_witness_NeverReadyTimesOut_deadline :
    hrdyAt { lowForever with now := 3 } 0 = .level false ∧
      lowForever.lat.tmo.toNat ≤ { lowForever with now := 3 }.now - lowForever.tWait ∧
      hrdyAt { running .run (sendCmd 1) State.reset with hrdyScript := [.level false] } 0 = .level false ∧
      (running .run (sendCmd 1) State.reset).seq = .run .run (.waitReady :: [.xferCmd 1]) ∧
      (running .run (sendCmd 1) State.reset).lat.tmo = 0 := by decide

/-- An operation just accepted meets the invariant, and a step runs it to its end. -/
theorem test_witness_InvariantKept : Machine.Inv (wired (fresh 0x14) [[]]) ∧ answersNext (step (wired (fresh 0x14) [[]])) := by
  refine ⟨⟨by decide, by decide, by decide, by decide, by decide, by decide, by decide, by decide, by decide, by decide,
    by decide, by decide, by decide, fun _ h => (by cases h), by decide, by decide⟩, _, rfl⟩

/-- An operation between its sample and its exchange is gated, and a step sends the exchange. -/
theorem test_witness_ExchangesStayGated :
    Gated { wired (running .run [.xferCmd 1] State.reset) [[]] with trace := [.sample true] } ∧
      answersNext (step { wired (running .run [.xferCmd 1] State.reset) [[]] with trace := [.sample true] }) :=
  ⟨⟨rfl, rfl⟩, _, rfl⟩

theorem test_witness_XcountCountsExchanges : answersNext (exec .run (wired (fresh 0x14) [[]])) := ⟨_, rfl⟩

theorem test_witness_OperationsLeave : answersNext (exec .standby (wired (fresh 0x15) [[]])) := ⟨_, rfl⟩

theorem test_witness_OperationsWriteOnlyTheirOwn :
    Owned (fresh 0x14) ∧ RunsOrStarts .run (fresh 0x14) ∧ answersNext (exec .run (wired (fresh 0x14) [[]])) :=
  ⟨fun _ _ h => (by cases h), fun _ _ h => (by cases h), _, rfl⟩

/-- A failing operation, and one held in a wait. -/
theorem test_witness_FailedOperationsWriteNothing :
    writesLast (todoOf (fresh 0x13890013).seq) = true ∧ (fresh 0x13890013).regs.errCode = 0 ∧
      after (fun t => t.regs.errCode ≠ 0) (exec (.wrVcom 5001) (fresh 0x13890013)) = some True ∧
      after (fun t => (todoOf t.seq).all isWrite) (exec .reset (fresh 0x10)) = some false := by
  refine ⟨by decide, by decide, ?_, by decide⟩
  exact congrArg some (eq_true (by decide : (5 : BitVec 8) ≠ 0))

/-- INIT in phase 3, waiting for its query, and a low HRDY at the deadline. -/
def identifying : State :=
  { running .init (.waitReady :: [.xferCmd 0x0302, .waitReady, .xferRead 20, .parseDevInfo, .enterPhase .address])
      State.reset with
    hrdyScript := [.level false]
    burst := 0
    stat := { State.reset.stat with busy := true, initPhase := 3 } }

theorem test_witness_FailedOperationsWriteNothing_init :
    Machine.Inv identifying ∧ writesLast (todoOf identifying.seq) = true ∧ identifying.regs.errCode = 0 ∧
      after (fun t => (t.regs.errCode, t.stat.initPhase, t.stat.infoValid)) (exec .init identifying) =
        some (2, 3, false) := by
  refine ⟨⟨by decide, by decide, by decide, by decide, by decide, by decide, by decide, by decide, by decide, by decide,
    by decide, by decide, by decide, ?_, by decide, by decide⟩, by decide, by decide, by decide⟩
  intro todo h
  cases h
  exact .inr (.inr ⟨by decide, by decide, by decide, by decide⟩)

theorem test_witness_MemoryFormKept :
    Memory.wf (withXbuf State.reset [1, 2]).xbuf ∧ Memory.within 4096 (withXbuf State.reset [1, 2]).xbuf ∧
      answersNext (step (withXbuf State.reset [1, 2])) :=
  ⟨by decide, by decide, _, rfl⟩

theorem test_witness_FullPanelForms :
    AtStart (issued 0x00AA0021 (withArea s1 0 0 800 600)) ∧ s1.stat.infoValid = true ∧
      latchedArea (issued 0x00AA0021 (withArea s1 0 0 800 600)) = fullPanel s1 :=
  ⟨atStart_of_decode rfl, by decide, by decide⟩

end Sys2Proof.Tests
end

section
/-! PROOFS. The host's register accesses (10_state.md rules R21, R37, R45): what a write sets, what a read of another
register then answers, and what an access that reaches the engine does outside the XBUF window. -/

namespace Sys2Proof.Proofs

open Sys2Proof.Machine

/-! ### Register writes -/

/-- The offsets of the registers a host write can change (R21). -/
def writableOffsets : List Nat :=
  [0x000, 0x008, 0x00C, 0x010, 0x014, 0x018, 0x01C, 0x020, 0x024, 0x044, 0x048, 0x04C]

theorem writeReg_readOnly {off : Nat} (v : Word32) (s : State) (h : off ∉ writableOffsets) : writeReg off v s = s := by
  fun_cases writeReg off v s
  case case13 => rfl
  all_goals exact absurd (by decide) h

theorem writeReg_vcomCfg_idle (v : Word32) {s : State} (h : s.stat.busy = false) :
    writeReg 0x04C v s = { s with regs := { s.regs with vcomCfg := lo16 v } } := by
  simp [writeReg, writeVcomCfg, h]

theorem writeReg_vcomCfg_busy (v : Word32) {s : State} (h : s.stat.busy = true) : writeReg 0x04C v s = s := by
  simp [writeReg, writeVcomCfg, h]

/-! ### Reads after a write -/

theorem readReg_writeVcomCfg_other {off : Nat} (v : Word32) (s : State) (hne : 0x04C ≠ off) :
    readReg (writeVcomCfg v s) off = readReg s off := by
  unfold writeVcomCfg
  split
  · rfl
  · unfold readReg
    split <;> first | rfl | exact absurd rfl hne

/-- A write of a register other than CTRL leaves every other register as it reads: each row of the map reads a field
that the write does not set, or is the row written. -/
theorem readReg_writeReg_other {off off' : Nat} (v : Word32) (s : State) (hctrl : off ≠ 0x000) (hne : off ≠ off') :
    readReg (writeReg off v s) off' = readReg s off' := by
  fun_cases writeReg off v s
  case case1 => exact absurd rfl hctrl
  case case12 => exact readReg_writeVcomCfg_other v s hne
  case case13 => rfl
  all_goals
    unfold readReg
    split <;> first | rfl | exact absurd rfl hne

/-- The 32-bit read-write registers are read back whole. -/
theorem readReg_writeReg_word {off : Nat} (v : Word32) (s : State) (h : off ∈ [0x008, 0x010, 0x014, 0x044, 0x048]) :
    readReg (writeReg off v s) off = v := by
  simp only [List.mem_cons, List.not_mem_nil, or_false] at h
  rcases h with rfl | rfl | rfl | rfl | rfl <;> rfl

/-- The 16-bit read-write registers are read back in their low half. -/
theorem readReg_writeReg_half {off : Nat} (v : Word32) (s : State) (h : off ∈ [0x00C, 0x018, 0x01C, 0x020, 0x024]) :
    readReg (writeReg off v s) off = (lo16 v).setWidth 32 := by
  simp only [List.mem_cons, List.not_mem_nil, or_false] at h
  rcases h with rfl | rfl | rfl | rfl | rfl <;> rfl

/-! ### Accesses outside the XBUF window -/

theorem hostTurn_store_register {a : HostAccess} {off : Nat} {s : State} (h : Reaches32 a off s)
    (hw : inWindow s off = false) (hs : a.store = true) : hostTurn a s = .next (writeReg off a.data s) := by
  simp [hostTurn_reaches h, hs, hostStore, hw]

theorem hostTurn_load_register {a : HostAccess} {off : Nat} {s : State} (h : Reaches32 a off s)
    (hw : inWindow s off = false) (hl : a.store = false) (hinfo : 0x060 ≤ off ∧ off < 0x090 → s.stat.infoValid = true) :
    hostTurn a s = .next { s with hostData := readReg s off } := by
  have hfault : (isInfoOffset off && !s.stat.infoValid) = false := by
    by_cases hi : 0x060 ≤ off ∧ off < 0x090
    · simp [hinfo hi]
    · simp only [isInfoOffset, Bool.and_eq_false_iff, decide_eq_false_iff_not]
      omega
  simp [hostTurn_reaches h, hl, hostLoad, hw, hfault]

theorem hostTurn_load_unmapped {a : HostAccess} {off : Nat} {s : State} (h : Reaches32 a off s)
    (hw : inWindow s off = false) (hl : a.store = false) (hoff : (0x058 ≤ off ∧ off < 0x060) ∨ 0x090 ≤ off) :
    hostTurn a s = .next { s with hostData := 0 } := by
  obtain ⟨-, -, haligned⟩ := id h
  rw [hostTurn_load_register h hw hl (by omega), readReg_unmapped s hoff haligned]

/-- Settles O17, register by register: what each write sets, what the reads after it answer, and the access and the step
that bring it. -/
theorem hostRegisterAccess : Obligations.HostRegisterAccess := by
  intro s v
  refine ⟨rfl, rfl, rfl, rfl, rfl, rfl, rfl, rfl, rfl, rfl, writeReg_vcomCfg_idle v,
    fun _ => readReg_writeReg_word v s, fun _ => readReg_writeReg_half v s, fun hidle => ?_, writeReg_vcomCfg_busy v,
    fun _ => writeReg_readOnly v s, fun _ _ => readReg_writeReg_other v s, fun a off h hw => ?_,
    fun _ _ => step_hostMoves⟩
  · rw [writeReg_vcomCfg_idle v hidle]
    rfl
  · exact ⟨hostTurn_store_register h hw, hostTurn_load_register h hw, hostTurn_load_unmapped h hw⟩

end Sys2Proof.Proofs
end

section
/-! PROOFS. WAIT_DISPLAY_READY (42_device.md rule R218): what one poll of LUTAFSR leaves, what its test can do, and the
polls that follow one another in a turn while DRDY_POLL_MS is 0 (40_framer.md rule R158). -/

namespace Sys2Proof.Proofs

open Sys2Proof.Machine

/-! ### Positions and Delays -/

/-- A running operation stands at its own position. -/
theorem goOn_of_seq {s : State} {op : Instr} {todo : List Micro} (h : s.seq = .run op todo) : goOn op todo s = s := by
  rw [goOn, ← h]

/-- A Delay of 0 ms is passed at once (40_framer.md rule R158). -/
theorem engineRun_delay_zero (n : Nat) (op : Instr) (rest : List Micro) (s : State) :
    engineRun (n + 2) (goOn op (.delay 0 :: rest) s) = engineRun n (goOn op rest { s with tDelay := s.now }) := by
  rw [engineRun_step (n + 1) op (.delay 0) rest s (by simp)]
  exact engineRun_hold_passed n op 0 rest { s with tDelay := s.now } (Nat.zero_le _)

/-! ### The test of a poll -/

theorem lutTest_of_zero (op : Instr) (rest : List Micro) {s : State} (h : readWord s = 0) :
    lutTest op rest s = goOn op rest s := by
  simp [lutTest, h]

theorem lutTest_of_deadline (op : Instr) (rest : List Micro) {s : State} (h : readWord s ≠ 0) (hd : s.lat.dtmo ≠ 0)
    (ht : s.lat.dtmo.toNat ≤ s.now - s.tOp) :
    lutTest op rest s = raise (.timeout s.lat.dtmo .displayReady (s.now - s.tOp)) s := by
  simp only [lutTest, if_neg h, if_pos (And.intro hd ht)]

/-- The display deadline is off, or has not passed. -/
def DisplayDeadlineAhead (s : State) : Prop := s.lat.dtmo = 0 ∨ s.now - s.tOp < s.lat.dtmo.toNat

theorem lutTest_of_nonzero (op : Instr) (rest : List Micro) {s : State} (h : readWord s ≠ 0)
    (hd : DisplayDeadlineAhead s) :
    lutTest op rest s = goOn op (.delay s.params.drdyPollMs :: (lutPoll ++ rest)) s := by
  have hopen : ¬ (s.lat.dtmo ≠ 0 ∧ s.lat.dtmo.toNat ≤ s.now - s.tOp) := by
    rintro ⟨hon, hpast⟩
    rcases hd with hoff | hahead
    · exact hon hoff
    · omega
  simp only [lutTest, if_neg h, if_neg hopen]

/-! ### One poll -/

/-- The state after the read of a poll, its three exchanges answered `r1`, `r2`, `r3`. -/
def afterPoll (s : State) (r1 r2 r3 : List Byte) : State :=
  { afterExchanges s (atCmd (regReadFrames 0x1224) [r1, r2, r3]) with words := [wordOf r3] }

section
variable (n : Nat) (op : Instr) {s : State} {r1 r2 r3 : List Byte} (hs : s.speed = .cmd)
  (ha : Answered s [r1, r2, r3]) (hl : 6 ≤ r3.length)
include hs ha hl

theorem engineRun_poll :
    engineRun (n + 7) (goOn op lutPoll s) = engineRun n (lutTest op [] (afterPoll s r1 r2 r3)) := by
  have hread := runs_regRead op regLutafsr s r1 r2 r3 hs ha hl (n + 1) [.lutTest]
  exact hread.trans (engineRun_step n op .lutTest [] (afterPoll s r1 r2 r3) (by simp))

/-- A zero ends the operation with success, whatever the deadline. -/
theorem engineRun_poll_zero (hz : wordOf r3 = 0) :
    engineRun (n + 8) (goOn op lutPoll s) = succeed (afterPoll s r1 r2 r3) := by
  rw [engineRun_poll (n + 1) op hs ha hl, lutTest_of_zero op [] (s := afterPoll s r1 r2 r3) hz, engineRun_done]

theorem engineRun_poll_deadline (hz : wordOf r3 ≠ 0) (hd : s.lat.dtmo ≠ 0) (ht : s.lat.dtmo.toNat ≤ s.now - s.tOp) :
    engineRun (n + 7) (goOn op lutPoll s) =
      raise (.timeout s.lat.dtmo .displayReady (s.now - s.tOp)) (afterPoll s r1 r2 r3) := by
  rw [engineRun_poll n op hs ha hl, lutTest_of_deadline op [] (s := afterPoll s r1 r2 r3) hz hd ht]
  exact engineRun_raise _ _ _

theorem engineRun_poll_nonzero (hz : wordOf r3 ≠ 0) (hd : DisplayDeadlineAhead s) :
    engineRun (n + 7) (goOn op lutPoll s) =
      engineRun n (goOn op (.delay s.params.drdyPollMs :: lutPoll) (afterPoll s r1 r2 r3)) := by
  rw [engineRun_poll n op hs ha hl, lutTest_of_nonzero op [] (s := afterPoll s r1 r2 r3) hz hd]
  rfl

/-- With a poll interval, a non-zero value holds the Engine. -/
theorem engineRun_poll_held (hz : wordOf r3 ≠ 0) (hd : DisplayDeadlineAhead s) (hms : 0 < s.params.drdyPollMs) :
    engineRun (n + 8) (goOn op lutPoll s) =
      goOn op (.hold s.params.drdyPollMs :: lutPoll) { afterPoll s r1 r2 r3 with tDelay := s.now } := by
  rw [engineRun_poll_nonzero (n + 1) op hs ha hl hz hd, engineRun_delay _ _ _ _ _ hms]
  rfl
end

/-! ### Polls with no time between them -/

/-- The word in hand and the start of the last Delay, the marks of a poll beside its exchanges. -/
def withPoll (ws : List Word16) (d : Nat) (s : State) : State := { s with words := ws, tDelay := d }

theorem withPoll_withPoll (ws ws' : List Word16) (d d' : Nat) (s : State) :
    withPoll ws d (withPoll ws' d' s) = withPoll ws d s := rfl

/-- The marks of a poll do not reach the exchanges after it. -/
theorem afterExchanges_withPoll (ws : List Word16) (d : Nat) (s : State) (as : List Answer) :
    afterExchanges (withPoll ws d s) as = withPoll ws d (afterExchanges s as) := by
  induction as generalizing s with
  | nil => rfl
  | cons a as ih => exact ih (afterExchange s a)

/-- The state at the next poll of the same turn. -/
def atNextPoll (s : State) (p : List Byte × List Byte × List Byte) : State :=
  withPoll [wordOf p.2.2] s.now (afterExchanges s (atCmd (regReadFrames 0x1224) [p.1, p.2.1, p.2.2]))

@[simp] theorem atNextPoll_tDelay (s : State) (p : List Byte × List Byte × List Byte) :
    (atNextPoll s p).tDelay = s.now := rfl
@[simp] theorem atNextPoll_now (s : State) (p : List Byte × List Byte × List Byte) : (atNextPoll s p).now = s.now := rfl

/-- A non-zero poll with DRDY_POLL_MS = 0 goes on to the next. -/
theorem engineRun_poll_again (n : Nat) (op : Instr) {s : State} {p : List Byte × List Byte × List Byte}
    (hs : s.speed = .cmd) (ha : Answered s [p.1, p.2.1, p.2.2]) (hl : 6 ≤ p.2.2.length) (hz : wordOf p.2.2 ≠ 0)
    (hd : DisplayDeadlineAhead s) (hms : s.params.drdyPollMs = 0) :
    engineRun (n + 9) (goOn op lutPoll s) = engineRun n (goOn op lutPoll (atNextPoll s p)) := by
  rw [engineRun_poll_nonzero (n + 2) op hs ha hl hz hd, hms]
  exact engineRun_delay_zero n op lutPoll _

/-- The responses of polls in a row. -/
def pollResponses (ps : List (List Byte × List Byte × List Byte)) : List (List Byte) :=
  ps.flatMap fun p => [p.1, p.2.1, p.2.2]

/-- The exchanges of `n` polls, answered `rs`. -/
def pollAnswers (n : Nat) (rs : List (List Byte)) : List Answer :=
  atCmd (List.replicate n (regReadFrames 0x1224)).flatten rs

/-- Any number of non-zero polls and then a zero one, in one turn. -/
theorem engineRun_polls (ps : List (List Byte × List Byte × List Byte)) (n : Nat) (op : Instr) {s : State}
    {r1 r2 r3 : List Byte} (hs : s.speed = .cmd) (hms : s.params.drdyPollMs = 0) (hd : DisplayDeadlineAhead s)
    (ha : Answered s (pollResponses ps ++ [r1, r2, r3])) (hps : ∀ p ∈ ps, 6 ≤ p.2.2.length ∧ wordOf p.2.2 ≠ 0)
    (hl : 6 ≤ r3.length) (hz : wordOf r3 = 0) :
    engineRun (9 * ps.length + 8 + n) (goOn op lutPoll s) =
      succeed
        (withPoll [wordOf r3] (if ps = [] then s.tDelay else s.now)
          (afterExchanges s (pollAnswers (ps.length + 1) (pollResponses ps ++ [r1, r2, r3])))) := by
  induction ps generalizing s with
  | nil =>
    rw [show 9 * ([] : List (List Byte × List Byte × List Byte)).length + 8 + n = n + 8 by simp; omega]
    exact engineRun_poll_zero n op hs ha hl hz
  | cons p ps ih =>
    obtain ⟨⟨hlp, hzp⟩, hps⟩ := List.forall_mem_cons.1 hps
    have hnext : Answered (atNextPoll s p) (pollResponses ps ++ [r1, r2, r3]) :=
      (ha.after (atCmd (regReadFrames 0x1224) [p.1, p.2.1, p.2.2])).congr rfl rfl rfl rfl
    rw [show 9 * (p :: ps).length + 8 + n = 9 * ps.length + 8 + n + 9 by simp; omega,
      engineRun_poll_again _ op hs (ha.take 3) hlp hzp hd hms, ih (s := atNextPoll s p) hs hms hd hnext hps,
      atNextPoll_tDelay, atNextPoll_now, ite_self, if_neg (List.cons_ne_nil p ps), atNextPoll, afterExchanges_withPoll,
      withPoll_withPoll]
    rfl

/-! ### The instruction -/

/-- The state at the first poll: `t_op` is taken (R218). -/
def atFirstPoll (s : State) : State := { s with tOp := s.now }

/-- The deadline counts from the first poll, so it is ahead there. -/
theorem displayDeadlineAhead_atFirstPoll (s : State) : DisplayDeadlineAhead (atFirstPoll s) := by
  by_cases hoff : s.lat.dtmo = 0
  · exact .inl hoff
  · refine .inr ?_
    show s.now - s.now < s.lat.dtmo.toNat
    rw [Nat.sub_self]
    exact Nat.pos_of_ne_zero fun h0 => hoff (BitVec.eq_of_toNat_eq h0)

/-- From its start WAIT_DISPLAY_READY takes `t_op` and goes to its first poll. -/
theorem exec_waitDisplayReady_start {s : State} {n : Nat} (hs : AtStart s) (hn : s.burst = n + 1) :
    exec .waitDisplayReady s = .next (engineRun n (goOn .waitDisplayReady lutPoll (atFirstPoll s))) := by
  rw [exec_start hs rfl rfl rfl, hn, engineRun_step n _ .startPoll lutPoll s (by simp)]
  rfl

/-- From a Delay that is over it goes to its next poll. -/
theorem exec_waitDisplayReady_resume {s : State} {ms : Nat} (hq : s.seq = .run .waitDisplayReady (.hold ms :: lutPoll))
    (hms : ms ≤ s.now - s.tDelay) :
    exec .waitDisplayReady s = .next (engineRun s.burst (goOn .waitDisplayReady lutPoll s)) := by
  have hpassed := engineRun_hold_passed s.burst .waitDisplayReady ms lutPoll s hms
  rw [goOn_of_seq hq] at hpassed
  rw [exec_running hq rfl, hpassed]

/-- Settles O42, from the outcomes of one poll and the induction over polls without a Delay. -/
theorem waitDisplayReadyCompletes : Obligations.WaitDisplayReadyCompletes := by
  refine ⟨?first, ?later, ?noDelay, ?oneRound⟩
  case first =>
    intro s r1 r2 r3 ⟨hstart, hspeed, hburst, ha⟩ hl
    obtain ⟨n, hn⟩ := Nat.exists_eq_add_of_le' hburst
    have hexec := exec_waitDisplayReady_start hstart (n := n + 8) hn
    refine ⟨_, rfl, fun hz => ?_, fun hz hms => ?_⟩
    · rw [hexec, engineRun_poll_zero n _ (s := atFirstPoll s) hspeed ha hl hz]
      rfl
    · rw [hexec, engineRun_poll_held n _ (s := atFirstPoll s) hspeed ha hl hz (displayDeadlineAhead_atFirstPoll s) hms]
      rfl
  case later =>
    intro s ms r1 r2 r3 hq hover hspeed hburst ha hl
    obtain ⟨n, hn⟩ := Nat.exists_eq_add_of_le' hburst
    have hexec := exec_waitDisplayReady_resume hq hover
    rw [hn] at hexec
    refine ⟨_, rfl, fun hz => ?_, fun hz hd ht => ?_, fun hz hd hms => ?_⟩
    · rw [hexec, engineRun_poll_zero (n + 1) _ hspeed ha hl hz]
      rfl
    · rw [hexec, engineRun_poll_deadline (n + 2) _ hspeed ha hl hz hd ht]
      rfl
    · rw [hexec, engineRun_poll_held (n + 1) _ hspeed ha hl hz hd hms]
      rfl
  case noDelay =>
    intro s ps rs r1 r2 r3 hms hrs ⟨hstart, hspeed, hburst, ha⟩ hps hl hz
    subst hrs
    obtain ⟨n, hn⟩ := Nat.exists_eq_add_of_le hburst
    rw [exec_waitDisplayReady_start hstart (n := 9 * ps.length + 8 + n) (by omega),
      engineRun_polls ps n _ (s := atFirstPoll s) hspeed hms (displayDeadlineAhead_atFirstPoll s) ha hps hl hz]
    rfl
  case oneRound =>
    intro s hq hms hz hd
    have htest := engineRun_step 2 .waitDisplayReady .lutTest [] s (by simp)
    rw [goOn_of_seq hq, runMicro, lutTest_of_nonzero _ [] hz hd, hms] at htest
    exact htest.trans (engineRun_delay_zero 0 _ lutPoll s)

end Sys2Proof.Proofs
end

section
/-! PROOFS. A wait for HRDY that stays low (40_framer.md rules R140 to R143): what a low sample does before and past the
deadline, and the samples that follow one another, with the Clock between them or in one turn. -/

namespace Sys2Proof.Proofs

open Sys2Proof.Machine

/-! ### One low sample -/

/-- The state at the first sample of a wait: `t_wait` is taken (R140). -/
def atFirstSample (s : State) : State := { s with tWait := s.now }

@[simp] theorem atFirstSample_lat (s : State) : (atFirstSample s).lat = s.lat := rfl

theorem atFirstSample_elapsed (s : State) : (atFirstSample s).now - (atFirstSample s).tWait = 0 := Nat.sub_self s.now

theorem runMicro_waitReady (op : Instr) (rest : List Micro) (s : State) :
    runMicro op .waitReady rest s = sampleHrdy op rest (atFirstSample s) := rfl

/-- The marks of a low sample. -/
def afterLow (s : State) : State :=
  { s with
    hrdyNo := s.hrdyNo + 1
    stat := { s.stat with hrdyLast := false }
    trace := s.trace ++ [.sample false] }

/-- At or past the deadline a low sample ends the operation (R143). -/
theorem sampleHrdy_low_late (op : Instr) (rest : List Micro) {s : State} (h : hrdyAt s 0 = .level false)
    (ht : s.lat.tmo.toNat ≤ s.now - s.tWait) :
    sampleHrdy op rest s = raise (.timeout s.lat.tmo .hrdyWait (s.now - s.tWait)) (afterLow s) := by
  simp [sampleHrdy, h, ht, record, afterLow]

/-- Before the deadline it leads to the next sample, a poll interval on (R141). -/
theorem sampleHrdy_low_early (op : Instr) (rest : List Micro) {s : State} (h : hrdyAt s 0 = .level false)
    (ht : s.now - s.tWait < s.lat.tmo.toNat) :
    sampleHrdy op rest s = goOn op (.delay s.params.hrdyPollMs :: .resample :: rest) (afterLow s) := by
  simp [sampleHrdy, h, Nat.not_le.2 ht, record, afterLow]

/-- A sample takes one draw. -/
theorem hrdyAt_afterLow (s : State) (k : Nat) : hrdyAt (afterLow s) k = hrdyAt s (k + 1) := by
  simp only [hrdyAt, afterLow, Nat.add_assoc, Nat.add_comm 1 k]

/-! ### Low samples with the Clock between them -/

/-- `t` ends the wait of `s` with TIMEOUT: at or past its deadline, less than a poll interval later, and with nothing done
but samples and the Clock's steps. -/
def WaitTimedOut (s t : State) : Prop :=
  ∃ e u, t = raise (.timeout s.lat.tmo .hrdyWait e) u ∧ s.lat.tmo.toNat ≤ e ∧
    e < s.lat.tmo.toNat + s.params.hrdyPollMs ∧ u.now = s.tWait + e ∧ u.regs = s.regs ∧ u.busNo = s.busNo ∧
    u.xbuf = s.xbuf

/-- The state at the next sample of a wait, its Delay over. -/
def atNextSample (op : Instr) (rest : List Micro) (s : State) : State :=
  goOn op (.resample :: rest)
    { afterLow s with
      tDelay := s.now
      now := s.now + s.params.hrdyPollMs
      trace := s.trace ++ [.sample false] ++ List.replicate s.params.hrdyPollMs .tick }

@[simp] theorem atNextSample_now (op : Instr) (rest : List Micro) (s : State) :
    (atNextSample op rest s).now = s.now + s.params.hrdyPollMs := rfl
@[simp] theorem atNextSample_tWait (op : Instr) (rest : List Micro) (s : State) :
    (atNextSample op rest s).tWait = s.tWait := rfl
@[simp] theorem atNextSample_lat (op : Instr) (rest : List Micro) (s : State) :
    (atNextSample op rest s).lat = s.lat := rfl
@[simp] theorem atNextSample_params (op : Instr) (rest : List Micro) (s : State) :
    (atNextSample op rest s).params = s.params := rfl

theorem hrdyAt_atNextSample (op : Instr) (rest : List Micro) (s : State) (k : Nat) :
    hrdyAt (atNextSample op rest s) k = hrdyAt s (k + 1) := hrdyAt_afterLow s k

/-- A wait whose samples stay low up to the first at or past the deadline times out there. -/
theorem reaches_waitTimedOut (op : Instr) (rest : List Micro) {s : State} (hp : paramsOk s.params = true)
    (ha : s.agenda = []) (hf : frameLengthOk s.params op = true) (hpoll : 0 < s.params.hrdyPollMs)
    (hbegun : s.tWait ≤ s.now) (hin : s.now - s.tWait < s.lat.tmo.toNat + s.params.hrdyPollMs)
    (hlow : ∀ k, s.now - s.tWait + k * s.params.hrdyPollMs < s.lat.tmo.toNat + s.params.hrdyPollMs →
      hrdyAt s k = .level false) :
    Reaches (WaitTimedOut s) (sampleHrdy op rest s) := by
  have hnow : hrdyAt s 0 = .level false := hlow 0 (by omega)
  by_cases ht : s.lat.tmo.toNat ≤ s.now - s.tWait
  · rw [sampleHrdy_low_late op rest hnow ht]
    have helapsed : s.now = s.tWait + (s.now - s.tWait) := by omega
    exact Reaches.here rfl ⟨_, afterLow s, rfl, ht, hin, helapsed, rfl, rfl, rfl⟩
  · rw [sampleHrdy_low_early op rest hnow (by omega)]
    refine Reaches.delay hpoll hp ha rfl hf ?_
    refine Reaches.micro (s := atNextSample op rest s) hp ha rfl hf rfl ?_
    have helapsed : s.now + s.params.hrdyPollMs - s.tWait = s.now - s.tWait + s.params.hrdyPollMs := by omega
    refine reaches_waitTimedOut op rest (s := atNextSample op rest s) hp ha hf hpoll ?_ ?_ fun k hk => ?_
    · simp only [atNextSample_now, atNextSample_tWait]
      omega
    · simp only [atNextSample_now, atNextSample_tWait, atNextSample_lat, atNextSample_params]
      omega
    · simp only [atNextSample_now, atNextSample_tWait, atNextSample_lat, atNextSample_params] at hk
      rw [hrdyAt_atNextSample]
      exact hlow (k + 1) (by rw [Nat.succ_mul]; omega)
termination_by s.lat.tmo.toNat - (s.now - s.tWait)
decreasing_by
  simp only [atNextSample_now, atNextSample_tWait, atNextSample_lat]
  omega

/-! ### Low samples in one turn -/

/-- The wait of `s` goes on in `u`, unchanged but for its samples and the start of its Delay. -/
structure StillWaiting (op : Instr) (rest : List Micro) (s u : State) : Prop where
  seq : u.seq ∈ [.run op (.resample :: rest), .run op (.delay 0 :: .resample :: rest),
    .run op (.hold 0 :: .resample :: rest)]
  now : u.now = s.now
  tWait : u.tWait = s.tWait
  lat : u.lat = s.lat
  params : u.params = s.params
  regs : u.regs = s.regs
  busNo : u.busNo = s.busNo
  xbuf : u.xbuf = s.xbuf
  stat : u.stat = s.stat

/-- One micro-step of such a wait, its next sample low: it goes on and draws at most that sample. -/
theorem microStep_stillWaiting {op : Instr} {rest : List Micro} {s u : State} (hu : StillWaiting op rest s u)
    (hpoll : s.params.hrdyPollMs = 0) (hahead : s.now - s.tWait < s.lat.tmo.toNat) (hlast : s.stat.hrdyLast = false)
    (hlow : hrdyAt u 0 = .level false) :
    active u = true ∧ StillWaiting op rest s (microStep u) ∧
      ∃ d, d ≤ 1 ∧ ∀ k, hrdyAt (microStep u) k = hrdyAt u (k + d) := by
  have hseq := hu.seq
  simp only [List.mem_cons, List.not_mem_nil, or_false] at hseq
  rcases hseq with hq | hq | hq
  · have hstep : microStep u = goOn op (.delay 0 :: .resample :: rest) (afterLow u) := by
      have hearly := sampleHrdy_low_early op rest hlow (by rw [hu.now, hu.tWait, hu.lat]; exact hahead)
      rw [hu.params, hpoll] at hearly
      simpa only [microStep, hq, runMicro] using hearly
    have hstat : (afterLow u).stat = s.stat := by
      rw [afterLow, hu.stat, ← hlast]
    rw [hstep]
    exact ⟨by simp [active, held, hq], { hu with seq := by simp, stat := hstat },
      1, le_rfl, hrdyAt_afterLow u⟩
  · have hstep : microStep u = goOn op (.hold 0 :: .resample :: rest) { u with tDelay := u.now } := by
      simp only [microStep, hq, runMicro]
    rw [hstep]
    exact ⟨by simp [active, held, hq], { hu with seq := by simp }, 0, Nat.zero_le 1, fun _ => rfl⟩
  · have hstep : microStep u = goOn op (.resample :: rest) u := by
      simp only [microStep, hq, runMicro, Nat.zero_le, if_true]
    rw [hstep]
    exact ⟨by simp [active, held, hq], { hu with seq := by simp }, 0, Nat.zero_le 1, fun _ => rfl⟩

theorem engineRun_stillWaiting (n : Nat) {op : Instr} {rest : List Micro} {s u : State}
    (hu : StillWaiting op rest s u) (hpoll : s.params.hrdyPollMs = 0) (hahead : s.now - s.tWait < s.lat.tmo.toNat)
    (hlast : s.stat.hrdyLast = false) (hlow : ∀ k, k < n → hrdyAt u k = .level false) :
    StillWaiting op rest s (engineRun n u) := by
  induction n generalizing u with
  | zero => exact hu
  | succ n ih =>
    obtain ⟨hact, hnext, d, hd, hdraw⟩ := microStep_stillWaiting hu hpoll hahead hlast (hlow 0 (Nat.succ_pos n))
    simp only [engineRun, hact, if_true]
    refine ih hnext fun k hk => ?_
    rw [hdraw]
    exact hlow (k + d) (by omega)

/-! ### The obligation -/

/-- Under the reference schedule a wait whose samples stay low times out. -/
theorem run_waitReady_low {s : State} {op : Instr} {rest : List Micro} (hq : s.seq = .run op (.waitReady :: rest))
    (ha : s.agenda = []) (hf : frameLengthOk s.params op = true) (hp : paramsOk s.params = true)
    (hpoll : 0 < s.params.hrdyPollMs)
    (hlow : ∀ k, k * s.params.hrdyPollMs < s.lat.tmo.toNat + s.params.hrdyPollMs → hrdyAt s k = .level false) :
    ∃ n t, Host.Core.run Sys2Proof.core n s = .next t ∧ WaitTimedOut (atFirstSample s) t := by
  have hreach : Reaches (WaitTimedOut (atFirstSample s)) (sampleHrdy op rest (atFirstSample s)) := by
    refine reaches_waitTimedOut op rest hp ha hf hpoll le_rfl ?_ fun k hk => ?_
    · rw [atFirstSample_elapsed]
      exact Nat.add_pos_right _ hpoll
    · rw [atFirstSample_elapsed, Nat.zero_add] at hk
      exact hlow k hk
  have hstep : microStep s = sampleHrdy op rest (atFirstSample s) := by
    simp only [microStep, hq, runMicro_waitReady]
  exact Reaches.micro hp ha hq hf (by simp [held, hq]) (hstep ▸ hreach) 0

/-- With a poll interval of 0 a wait before its deadline outlasts a turn. -/
theorem exec_resample_noDelay {s : State} {op : Instr} {rest : List Micro} (hq : s.seq = .run op (.resample :: rest))
    (hf : frameLengthOk s.params op = true) (hpoll : s.params.hrdyPollMs = 0)
    (hahead : s.now - s.tWait < s.lat.tmo.toNat) (hlow : ∀ k, k ≤ s.burst → hrdyAt s k = .level false) :
    ∃ t, exec op s = .next t ∧ StillWaiting op rest (afterLow s) t := by
  have hstep := engineRun_step s.burst op .resample rest s (by simp)
  rw [goOn_of_seq hq, runMicro, sampleHrdy_low_early op rest (hlow 0 (Nat.zero_le _)) hahead, hpoll] at hstep
  refine ⟨_, exec_running hq hf, ?_⟩
  rw [hstep]
  refine engineRun_stillWaiting s.burst ⟨by simp, rfl, rfl, rfl, rfl, rfl, rfl, rfl, rfl⟩ hpoll hahead rfl fun k hk => ?_
  rw [hrdyAt_goOn, hrdyAt_afterLow]
  exact hlow (k + 1) hk

/-- The first low sample at or past the deadline ends the operation, whatever came before it. -/
theorem exec_resample_late {s : State} {op : Instr} {rest : List Micro} (hq : s.seq = .run op (.resample :: rest))
    (hf : frameLengthOk s.params op = true) (hlow : hrdyAt s 0 = .level false)
    (ht : s.lat.tmo.toNat ≤ s.now - s.tWait) :
    exec op s = .next (raise (.timeout s.lat.tmo .hrdyWait (s.now - s.tWait)) (afterLow s)) := by
  have hstep := engineRun_step s.burst op .resample rest s (by simp)
  rw [goOn_of_seq hq, runMicro, sampleHrdy_low_late op rest hlow ht, engineRun_raise] at hstep
  rw [exec_running hq hf, hstep]

/-- With no budget the first sample of a wait is at its deadline. -/
theorem exec_waitReady_noBudget {s : State} {op : Instr} {rest : List Micro}
    (hq : s.seq = .run op (.waitReady :: rest)) (hf : frameLengthOk s.params op = true)
    (hlow : hrdyAt s 0 = .level false) (ht : s.lat.tmo = 0) :
    exec op s = .next (raise (.timeout 0 .hrdyWait 0) (afterLow (atFirstSample s))) := by
  have hstep := engineRun_step s.burst op .waitReady rest s (by simp)
  have hlate := sampleHrdy_low_late op rest (s := atFirstSample s) hlow (by simp [ht])
  rw [atFirstSample_elapsed, atFirstSample_lat, ht] at hlate
  rw [goOn_of_seq hq, runMicro_waitReady, hlate, engineRun_raise] at hstep
  rw [exec_running hq hf, hstep]

/-- Settles O49: the wait under the reference schedule, the wait with no poll interval, and the sample at the deadline. -/
theorem neverReadyTimesOut : Obligations.NeverReadyTimesOut := by
  refine ⟨?scheduled, ?noDelay, ?deadline⟩
  case scheduled =>
    intro s op rest hq ha hf hp hpoll hlow
    obtain ⟨n, t, hrun, e, u, rfl, hge, hlt, hnow, hregs, hbus, hxbuf⟩ := run_waitReady_low hq ha hf hp hpoll hlow
    have hregs : u.regs = s.regs := hregs
    exact ⟨n, e, _, hrun, hge, hlt, hnow, rfl, rfl, rfl, rfl, rfl, rfl, rfl, rfl, rfl,
      by rw [raise_regs, hregs], hbus, by rw [raise_regs, hregs], hxbuf⟩
  case noDelay =>
    intro s op rest hq hf hpoll hahead hlow
    obtain ⟨t, hexec, ht⟩ := exec_resample_noDelay hq hf hpoll hahead hlow
    exact ⟨t, hexec, ht.seq, ht.now, ht.tWait, ht.regs, ht.busNo, ht.xbuf, ht.stat⟩
  case deadline =>
    intro s op rest hf hlow
    exact ⟨fun hq ht => exec_resample_late hq hf hlow ht, fun hq ht => exec_waitReady_noBudget hq hf hlow ht⟩

end Sys2Proof.Proofs
end

section
/-! PROOFS. What one micro-step of the Engine can do, said once for all the statements about what an operation writes and
keeps: the device activity it begins with, its own effect, and the positions it may lead to. -/

namespace Sys2Proof.Proofs

open Sys2Proof.Machine

/-! ### Device activity -/

/-- `t` comes after `s` in an operation, and XCOUNT counts the completed exchanges between them (40_framer.md rule R149). -/
def CountsXfers (s t : State) : Prop :=
  ∃ es, t.trace = s.trace ++ es ∧ t.regs.xcount = s.regs.xcount + BitVec.ofNat 32 (es.countP isXfer)

/-- Events that are no completed exchange leave XCOUNT. -/
theorem countsXfers_silent {s t : State} (es : List Event) (ht : t.trace = s.trace ++ es)
    (hx : t.regs.xcount = s.regs.xcount) (hes : es.countP isXfer = 0) : CountsXfers s t :=
  ⟨es, ht, by rw [hx, hes]; exact (BitVec.add_zero _).symm⟩

theorem CountsXfers.refl (s : State) : CountsXfers s s := countsXfers_silent [] (List.append_nil _).symm rfl rfl

theorem CountsXfers.trans {s t u : State} (h : CountsXfers s t) (h' : CountsXfers t u) : CountsXfers s u := by
  obtain ⟨es, ht, hx⟩ := h
  obtain ⟨es', ht', hx'⟩ := h'
  refine ⟨es ++ es', by rw [ht', ht, List.append_assoc], ?_⟩
  rw [hx', hx, List.countP_append, BitVec.ofNat_add, BitVec.add_assoc]

/-- What a sample or an exchange may write: `t_wait`, the draws, the mirrors HRDY_LAST and CS_N, XCOUNT, the words read
and the trace. -/
structure Contact where
  tWait : Nat
  hrdyNo : Nat
  busNo : Nat
  hrdyLast : Bool
  csN : Bool
  xcount : Word32
  words : List Word16
  trace : List Event

/-- The state a contact leaves. -/
def Contact.apply (c : Contact) (s : State) : State :=
  { s with
    tWait := c.tWait
    hrdyNo := c.hrdyNo
    busNo := c.busNo
    stat := { s.stat with hrdyLast := c.hrdyLast, csN := c.csN }
    regs := { s.regs with xcount := c.xcount }
    words := c.words
    trace := c.trace }

/-- What is known of the values a contact at `s` writes. -/
structure Contact.At (c : Contact) (s : State) : Prop where
  wait : c.tWait = s.tWait ∨ c.tWait = s.now
  cs : c.csN = s.stat.csN ∨ c.csN = true
  counts : CountsXfers s (c.apply s)

/-- The contact that writes nothing. -/
def Contact.none (s : State) : Contact :=
  ⟨s.tWait, s.hrdyNo, s.busNo, s.stat.hrdyLast, s.stat.csN, s.regs.xcount, s.words, s.trace⟩

theorem Contact.At.none (s : State) : (Contact.none s).At s := ⟨.inl rfl, .inl rfl, .refl s⟩

/-! ### The effect and the successors of a micro-step -/

/-- What a micro-step writes beside its device activity. -/
def effect : Micro → State → State
  | .waitReady, s => s
  | .resample, s => s
  | .xferCmd _, s => s
  | .xferData _, s => s
  | .openBatch _, s => setSpeed .data s
  | .xferChunk _ _, s => s
  | .closeBatch, s => setSpeed .cmd s
  | .xferRead _, s => s
  | .pulseLow, s => driveReset false s
  | .pulseHigh, s => driveReset true s
  | .delay _, s => { s with tDelay := s.now }
  | .hold _, s => s
  | .clearInfoValid, s => { s with stat := { s.stat with infoValid := false } }
  | .enterPhase p, s => enterPhase p s
  | .parseDevInfo, s => { s with stg := parseDevInfo s.words }
  | .vcomSync, s => s
  | .setVcomCfg v, s => { s with regs := { s.regs with vcomCfg := v } }
  | .commit, s => commitInfo s
  | .setResult, s => { s with regs := { s.regs with result := readWord s } }
  | .storeWords base, s => engineStoreBytes s base (s.words.flatMap le16)
  | .startPoll, s => { s with tOp := s.now }
  | .lutTest, s => s

/-- The words read go to XBUF; a raced byte keeps its further values (20_memory.md rule R93). -/
theorem effect_storeWords (base : Nat) (s : State) :
    effect (.storeWords base) s =
      { s with
        xbuf := (engineStoreBytes s base (s.words.flatMap le16)).xbuf
        xbufRace := (engineStoreBytes s base (s.words.flatMap le16)).xbufRace } :=
  engineStoreBytes_spec s base (s.words.flatMap le16)

/-- The micro-steps that may stand after `m`, with `rest` to run after it (10_state.md rule R34). -/
def successors (s : State) (rest : List Micro) : Micro → List (List Micro)
  | .waitReady => [rest, .delay s.params.hrdyPollMs :: .resample :: rest]
  | .resample => [rest, .delay s.params.hrdyPollMs :: .resample :: rest]
  | .xferCmd _ => [rest]
  | .xferData _ => [rest]
  | .openBatch src => [.waitReady :: .xferChunk src 0 :: rest]
  | .xferChunk src k => [afterChunk s.params src k ++ rest]
  | .closeBatch => [rest]
  | .xferRead _ => [rest]
  | .pulseLow => [resetPulseRest s.params ++ rest]
  | .pulseHigh => [rest]
  | .delay ms => [.hold ms :: rest]
  | .hold _ => [rest]
  | .clearInfoValid => [rest]
  | .enterPhase p => [phaseBody s p ++ rest]
  | .parseDevInfo => [rest]
  | .vcomSync => [rest, vcomWrite s.lat.vcfg ++ .setVcomCfg s.lat.vcfg :: rest]
  | .setVcomCfg _ => [rest]
  | .commit => [[]]
  | .setResult => [rest]
  | .storeWords _ => [rest]
  | .startPoll => [rest]
  | .lutTest => [rest, .delay s.params.drdyPollMs :: (lutPoll ++ rest)]

/-! ### One micro-step -/

/-- The outcome of micro-step `m` of `op` at `s`: after device activity it raises an error, which only a micro-step that
can fail does, or it has its effect and goes on. -/
def MicroOutcome (op : Instr) (m : Micro) (rest : List Micro) (s t : State) : Prop :=
  ∃ c : Contact, c.At s ∧
    ((canFail m = true ∧ ∃ e, t = raise e (c.apply s)) ∨
      ∃ todo ∈ successors s rest m, t = goOn op todo (effect m (c.apply s)))

/-- A micro-step with no device activity goes on. -/
theorem MicroOutcome.silent {op : Instr} {m : Micro} {rest : List Micro} {s : State} (todo : List Micro)
    (h : todo ∈ successors s rest m) : MicroOutcome op m rest s (goOn op todo (effect m s)) :=
  ⟨.none s, .none s, .inr ⟨todo, h, rfl⟩⟩

/-- A micro-step with no device activity fails. -/
theorem MicroOutcome.fails {op : Instr} {m : Micro} {rest : List Micro} {s : State} (e : Err) (h : canFail m = true) :
    MicroOutcome op m rest s (raise e s) :=
  ⟨.none s, .none s, .inl ⟨h, e, rfl⟩⟩

/-- A sample, in a wait that began at `w`. -/
theorem sampleHrdy_outcome {op : Instr} {m : Micro} {rest : List Micro} {s : State} {w : Nat}
    (hm : m = .waitReady ∨ m = .resample) (hw : w = s.tWait ∨ w = s.now) :
    MicroOutcome op m rest s (sampleHrdy op rest { s with tWait := w }) := by
  have hcontact : ∀ (last : Bool) (e : Event), isXfer e = false →
      Contact.At ⟨w, s.hrdyNo + 1, s.busNo, last, s.stat.csN, s.regs.xcount, s.words, s.trace ++ [e]⟩ s :=
    fun last e he => ⟨hw, .inl rfl, countsXfers_silent [e] rfl rfl (by simp [he])⟩
  have hfail : canFail m = true := by rcases hm with rfl | rfl <;> rfl
  have heffect : ∀ u, effect m u = u := by rcases hm with rfl | rfl <;> exact fun _ => rfl
  have hsucc : successors s rest m = [rest, .delay s.params.hrdyPollMs :: .resample :: rest] := by
    rcases hm with rfl | rfl <;> rfl
  simp only [MicroOutcome, hsucc, heffect]
  rcases sampleHrdy_cases op rest { s with tWait := w } with
    ⟨code, -, h⟩ | ⟨-, h⟩ | ⟨-, -, h⟩ | ⟨-, -, h⟩ <;> rw [h]
  · exact ⟨_, hcontact s.stat.hrdyLast (.sampleErr code) rfl, .inl ⟨hfail, _, rfl⟩⟩
  · exact ⟨_, hcontact true (.sample true) rfl, .inr ⟨_, List.mem_cons_self, rfl⟩⟩
  · exact ⟨_, hcontact false (.sample false) rfl, .inl ⟨hfail, _, rfl⟩⟩
  · exact ⟨_, hcontact false (.sample false) rfl, .inr ⟨_, by simp, rfl⟩⟩

/-- The contact of a completed exchange that leaves the words `ws` read. -/
theorem contact_xfer_at (s : State) (tx rx : List Byte) (ws : List Word16) :
    Contact.At ⟨s.tWait, s.hrdyNo, s.busNo + 1, s.stat.hrdyLast, true, s.regs.xcount + 1, ws,
      s.trace ++ [.xfer s.speed tx rx]⟩ s :=
  ⟨.inl rfl, .inr rfl, [.xfer s.speed tx rx], rfl, rfl⟩

/-- An exchange whose continuation goes on to `todo` or fails. -/
theorem xfer_outcome {op : Instr} {m : Micro} {rest todo : List Micro} {s : State} (tx : List Byte)
    {k : List Byte → State → State} (hm : canFail m = true) (heffect : ∀ u, effect m u = u)
    (hsucc : successors s rest m = [todo])
    (hk : ∀ rx u, (∃ e, k rx u = raise e u) ∨ ∃ ws, k rx u = goOn op todo { u with words := ws }) :
    MicroOutcome op m rest s (xfer tx k s) := by
  simp only [MicroOutcome, hsucc, heffect, List.mem_singleton, exists_eq_left]
  rcases xfer_cases tx k s with ⟨code, -, h⟩ | ⟨r, -, h⟩
  · have hat : Contact.At ⟨s.tWait, s.hrdyNo, s.busNo + 1, s.stat.hrdyLast, true, s.regs.xcount, s.words,
        s.trace ++ [.xferErr s.speed tx code]⟩ s :=
      ⟨.inl rfl, .inr rfl, countsXfers_silent _ rfl rfl rfl⟩
    exact ⟨_, hat, .inl ⟨hm, _, h⟩⟩
  · rcases hk (r.take tx.length) _ with ⟨e, hk⟩ | ⟨ws, hk⟩
    · exact ⟨_, contact_xfer_at s tx (r.take tx.length) s.words, .inl ⟨hm, e, h.trans hk⟩⟩
    · exact ⟨_, contact_xfer_at s tx (r.take tx.length) ws, .inr (h.trans hk)⟩

/-- `ReadData` fails on a short response and else leaves its words. -/
theorem takeResponse_outcome (op : Instr) (n : Nat) (rest : List Micro) (rx : List Byte) (u : State) :
    (∃ e, takeResponse op n rest rx u = raise e u) ∨
      ∃ ws, takeResponse op n rest rx u = goOn op rest { u with words := ws } := by
  unfold takeResponse
  split
  · exact .inl ⟨_, rfl⟩
  · exact .inr ⟨_, rfl⟩

theorem vcomSync_outcome (op : Instr) (rest : List Micro) (s : State) :
    MicroOutcome op .vcomSync rest s (vcomSync op rest s) := by
  unfold vcomSync
  split
  · exact .silent (m := .vcomSync) rest List.mem_cons_self
  · split
    · exact .fails _ rfl
    · exact .silent (m := .vcomSync) _ (by simp [successors])

theorem lutTest_outcome (op : Instr) (rest : List Micro) (s : State) :
    MicroOutcome op .lutTest rest s (lutTest op rest s) := by
  unfold lutTest
  split
  · exact .silent (m := .lutTest) rest List.mem_cons_self
  · split
    · exact .fails _ rfl
    · exact .silent (m := .lutTest) _ (by simp [successors])

/-- Everything a micro-step can do, a hold being passed. -/
theorem runMicro_outcome (op : Instr) (m : Micro) (rest : List Micro) (s : State)
    (hhold : ∀ ms, m = .hold ms → ms ≤ s.now - s.tDelay) : MicroOutcome op m rest s (runMicro op m rest s) := by
  cases m with
  | waitReady => exact sampleHrdy_outcome (.inl rfl) (.inr rfl)
  | resample => exact sampleHrdy_outcome (.inr rfl) (.inl rfl)
  | xferCmd c => exact xfer_outcome _ rfl (fun _ => rfl) rfl fun _ u => .inr ⟨u.words, rfl⟩
  | xferData w => exact xfer_outcome _ rfl (fun _ => rfl) rfl fun _ u => .inr ⟨u.words, rfl⟩
  | xferChunk src k => exact xfer_outcome _ rfl (fun _ => rfl) rfl fun _ u => .inr ⟨u.words, rfl⟩
  | xferRead n => exact xfer_outcome _ rfl (fun _ => rfl) rfl (takeResponse_outcome op n rest)
  | vcomSync => exact vcomSync_outcome op rest s
  | lutTest => exact lutTest_outcome op rest s
  | hold ms =>
    simp only [runMicro, if_pos (hhold ms rfl)]
    exact .silent (m := .hold ms) rest List.mem_cons_self
  | _ => exact .silent _ List.mem_cons_self

/-- Everything a micro-step of an active Engine can do: the success end, or that of the micro-step it stands at. -/
theorem microStep_outcome {s : State} (h : active s = true) :
    ∃ op todo, s.seq = .run op todo ∧
      ((todo = [] ∧ microStep s = succeed s) ∨
        ∃ m rest, todo = m :: rest ∧ MicroOutcome op m rest s (microStep s)) := by
  obtain ⟨op, todo, hq, ⟨hnil, hdone⟩ | ⟨m, rest, hcons, hstep, hhold⟩⟩ := active_cases h
  · exact ⟨op, todo, hq, .inl ⟨hnil, hdone⟩⟩
  · exact ⟨op, todo, hq, .inr ⟨m, rest, hcons, hstep ▸ runMicro_outcome op m rest s hhold⟩⟩

/-! ### What a turn keeps -/

/-- An instruction at its start ends with the error of a check, or runs the micro-steps of its start. -/
theorem exec_started {i : Instr} {s t : State} (hs : AtStart s) (h : exec i s = .next t) :
    (∃ e, t = raise e s) ∨ ∃ todo, startOf i s = .ok todo ∧ t = engineRun s.burst (goOn i todo s) := by
  have hf : frameLengthOk s.params i = true := by
    by_contra hf
    rw [exec_refused i s (by simpa using hf)] at h
    cases h
  rw [exec_eq i s hf, engineTurn_start i _ s hs] at h
  injection h with h
  rcases begin_cases i (startOf i s) s with ⟨r, -, hb⟩ | ⟨e, -, -, hb⟩ | ⟨todo, -, hst, hb⟩
  · exact .inl ⟨_, by rw [← h, hb, engineRun_raise]⟩
  · exact .inl ⟨_, by rw [← h, hb, engineRun_raise]⟩
  · exact .inr ⟨todo, hst, by rw [← h, hb]⟩

/-- What both ends of an operation, every sequencer move, every contact and every effect keep, a micro-step keeps. -/
theorem microStep_keeps {P : State → Prop} (hraise : ∀ e u, P u → P (raise e u)) (hsucceed : ∀ u, P u → P (succeed u))
    (hgoOn : ∀ op todo u, P u → P (goOn op todo u)) (hcontact : ∀ (c : Contact) u, c.At u → P u → P (c.apply u))
    (heffect : ∀ m u, P u → P (effect m u)) (u : State) (ha : active u = true) (hu : P u) : P (microStep u) := by
  obtain ⟨op, todo, -, ⟨-, h⟩ | ⟨m, rest, -, c, hc, ⟨-, e, h⟩ | ⟨todo', -, h⟩⟩⟩ := microStep_outcome ha <;> rw [h]
  · exact hsucceed u hu
  · exact hraise e _ (hcontact c u hc hu)
  · exact hgoOn op todo' _ (heffect m _ (hcontact c u hc hu))

end Sys2Proof.Proofs
end

section
/-! PROOFS. What every instruction leaves as it was, on every path (10_state.md rules R24, R30, R33, R36), and that it does
not read the registers a host may write while it runs. -/

namespace Sys2Proof.Proofs

open Sys2Proof.Machine

/-! ### XCOUNT -/

/-- No effect is a completed exchange. -/
theorem countsXfers_effect (m : Micro) (s : State) : CountsXfers s (effect m s) := by
  cases m with
  | pulseLow => exact countsXfers_silent [.lineResetN false] rfl rfl rfl
  | pulseHigh => exact countsXfers_silent [.lineResetN true] rfl rfl rfl
  | storeWords base =>
    rw [effect_storeWords]
    exact .refl s
  | _ => exact .refl s

/-- Settles O54: the ends and the moves record nothing, a contact counts its exchange, an effect exchanges nothing. -/
theorem xcountCountsExchanges : Obligations.XcountCountsExchanges := by
  intro i s t h
  exact exec_keeps (P := CountsXfers s) (fun _ _ hu => hu) (fun _ _ _ hu => hu)
    (microStep_keeps (fun _ _ hu => hu) (fun _ hu => hu) (fun _ _ _ hu => hu)
      (fun _ _ hc hu => hu.trans hc.counts) (fun m u hu => hu.trans (countsXfers_effect m u)))
    h (.refl s)

/-! ### What no instruction writes -/

/-- The fields of the state that no instruction writes. -/
def unwritten (s : State) :=
  (s.regs.opw, s.regs.arg0, s.regs.bufoff, s.regs.len, s.regs.areaX, s.regs.areaY, s.regs.areaW, s.regs.areaH,
    s.regs.timeoutMs, s.regs.drdyTimeoutMs, s.lat, s.stat.collide, s.now, s.params, s.agenda, s.burst, s.hrdyScript,
    s.busScript, s.epoch, s.raceNo, s.hostData, s.hostBytes, s.hostProg)

theorem unwritten_effect (m : Micro) (s : State) : unwritten (effect m s) = unwritten s := by
  cases m with
  | storeWords base =>
    rw [effect_storeWords]
    rfl
  | _ => rfl

theorem unwritten_exec {i : Instr} {s t : State} (h : exec i s = .next t) : unwritten t = unwritten s :=
  exec_keeps (P := fun u => unwritten u = unwritten s) (fun _ _ hu => hu) (fun _ _ _ hu => hu)
    (microStep_keeps (fun _ _ hu => hu) (fun _ hu => hu) (fun _ _ _ hu => hu) (fun _ _ _ hu => hu)
      (fun m u hu => (unwritten_effect m u).trans hu))
    h rfl

/-- Settles O55, field by field of `unwritten`. -/
theorem operationsLeave : Obligations.OperationsLeave := by
  intro i s t h
  simpa only [unwritten, Prod.mk.injEq] using unwritten_exec h

/-! ### Operands written while an operation runs -/

/-- Other operands on the outcome of a choice are other operands on either side of it. -/
theorem withOperands_ite (r : HostRegs) (c : Prop) [Decidable c] (s t : State) :
    withOperands r (if c then s else t) = if c then withOperands r s else withOperands r t :=
  apply_ite (withOperands r) c s t

section
variable (r : HostRegs)

theorem sampleHrdy_withOperands (op : Instr) (rest : List Micro) (s : State) :
    sampleHrdy op rest (withOperands r s) = withOperands r (sampleHrdy op rest s) := by
  have hdraw : hrdyAt (withOperands r s) 0 = hrdyAt s 0 := rfl
  unfold sampleHrdy
  rw [hdraw]
  cases hrdyAt s 0 with
  | ioerr code => rfl
  | level v =>
    simp only [withOperands_ite]
    rfl

theorem xfer_withOperands (tx : List Byte) {k : List Byte → State → State} (s : State)
    (hk : ∀ rx u, k rx (withOperands r u) = withOperands r (k rx u)) :
    xfer tx k (withOperands r s) = withOperands r (xfer tx k s) := by
  have hdraw : busAt (withOperands r s) 0 = busAt s 0 := rfl
  unfold xfer
  rw [hdraw]
  cases busAt s 0 with
  | ioerr code => rfl
  | ok rx =>
    exact hk (rx.take tx.length)
      (Contact.apply ⟨s.tWait, s.hrdyNo, s.busNo + 1, s.stat.hrdyLast, true, s.regs.xcount + 1, s.words,
        s.trace ++ [.xfer s.speed tx (rx.take tx.length)]⟩ s)

theorem takeResponse_withOperands (op : Instr) (n : Nat) (rest : List Micro) (rx : List Byte) (u : State) :
    takeResponse op n rest rx (withOperands r u) = withOperands r (takeResponse op n rest rx u) := by
  simp only [takeResponse, withOperands_ite]
  rfl

theorem xbufStore_withOperands (s : State) (a : Nat) (v : Byte) :
    xbufStore (withOperands r s) a v = withOperands r (xbufStore s a v) := by
  simp only [xbufStore, withOperands_ite]
  rfl

theorem engineStore_withOperands (s : State) (a : Nat) (v : Byte) :
    engineStore (withOperands r s) a v = withOperands r (engineStore s a v) := by
  simp only [engineStore, xbufRaceStore, withOperands_ite, xbufStore_withOperands]
  rfl

theorem engineStoreBytes_withOperands (s : State) (a : Nat) (bs : List Byte) :
    engineStoreBytes (withOperands r s) a bs = withOperands r (engineStoreBytes s a bs) := by
  induction bs generalizing s a with
  | nil => rfl
  | cons b bs ih => rw [engineStoreBytes, engineStoreBytes, engineStore_withOperands, ih]

theorem chunkPayload_withOperands (s : State) (src : WordSrc) (k : Nat) :
    chunkPayload (withOperands r s) src k = chunkPayload s src k := by
  cases src <;> rfl

theorem phaseBody_withOperands (s : State) (p : InitPhase) : phaseBody (withOperands r s) p = phaseBody s p := by
  cases p <;> rfl

theorem runMicro_withOperands (op : Instr) (m : Micro) (rest : List Micro) (s : State) :
    runMicro op m rest (withOperands r s) = withOperands r (runMicro op m rest s) := by
  cases m with
  | waitReady => exact sampleHrdy_withOperands r op rest { s with tWait := s.now }
  | resample => exact sampleHrdy_withOperands r op rest s
  | xferCmd c => exact xfer_withOperands r _ (k := fun _ => goOn op rest) s fun _ _ => rfl
  | xferData w => exact xfer_withOperands r _ (k := fun _ => goOn op rest) s fun _ _ => rfl
  | xferChunk src k =>
    simp only [runMicro, chunkPayload_withOperands]
    exact xfer_withOperands r _ (k := fun _ => goOn op (afterChunk s.params src k ++ rest)) s fun _ _ => rfl
  | xferRead n => exact xfer_withOperands r _ s (takeResponse_withOperands r op n rest)
  | hold ms =>
    simp only [runMicro, withOperands_ite]
    rfl
  | enterPhase p =>
    simp only [runMicro, phaseBody_withOperands]
    rfl
  | vcomSync =>
    simp only [runMicro, vcomSync, withOperands_ite]
    rfl
  | storeWords base => exact congrArg (goOn op rest) (engineStoreBytes_withOperands r s base (s.words.flatMap le16))
  | lutTest =>
    simp only [runMicro, lutTest, withOperands_ite]
    rfl
  | _ => rfl

theorem microStep_withOperands (s : State) : microStep (withOperands r s) = withOperands r (microStep s) := by
  have hq : (withOperands r s).seq = s.seq := rfl
  unfold microStep
  rw [hq]
  split
  · rfl
  · exact runMicro_withOperands r _ _ _ s
  · rfl

theorem engineRun_withOperands (n : Nat) (s : State) :
    engineRun n (withOperands r s) = withOperands r (engineRun n s) := by
  induction n generalizing s with
  | zero => rfl
  | succ n ih =>
    have hact : active (withOperands r s) = active s := rfl
    simp only [engineRun, hact, microStep_withOperands, ih, withOperands_ite]

/-- The checks of an operation and its micro-steps come from the latches, not from the registers. -/
theorem startOf_withOperands (i : Instr) (s : State) : startOf i (withOperands r s) = startOf i s := by
  cases i <;> rfl

theorem begin_withOperands (i : Instr) (start : Start) (s : State) :
    begin i start (withOperands r s) = withOperands r (begin i start s) := by
  unfold begin
  cases operandDefect i <;> cases start <;> rfl

theorem engineTurn_withOperands (i : Instr) (s : State) :
    engineTurn i (startOf i) (withOperands r s) = mapNext (withOperands r) (engineTurn i (startOf i) s) := by
  by_cases hs : AtStart s
  · rw [engineTurn_start i _ s hs, engineTurn_start i _ (withOperands r s) hs, startOf_withOperands, begin_withOperands]
    exact congrArg Host.Outcome.next (engineRun_withOperands r s.burst _)
  · simp only [AtStart, not_forall, not_not] at hs
    obtain ⟨op, todo, hq⟩ := hs
    rw [engineTurn_running i _ s op todo hq, engineTurn_running i _ (withOperands r s) op todo hq]
    exact congrArg Host.Outcome.next (engineRun_withOperands r (s.burst + 1) s)

/-- An instruction does the same whatever the operand registers hold. -/
theorem exec_withOperands (i : Instr) (s : State) :
    exec i (withOperands r s) = mapNext (withOperands r) (exec i s) := by
  by_cases hf : frameLengthOk s.params i = true
  · rw [exec_eq i s hf, exec_eq i (withOperands r s) hf, engineTurn_withOperands]
  · have hf : frameLengthOk s.params i = false := by simpa using hf
    rw [exec_refused i s hf, exec_refused i (withOperands r s) hf]
    rfl

end

/-- A write of an operand register or of a deadline changes those registers alone. -/
theorem writeReg_operand {off : Nat}
    (h : off ∈ [0x008, 0x00C, 0x010, 0x014, 0x018, 0x01C, 0x020, 0x024, 0x044, 0x048]) (v : Word32) (s : State) :
    writeReg off v s = withOperands (writeReg off v s).regs s := by
  simp only [List.mem_cons, List.not_mem_nil, or_false] at h
  rcases h with rfl | rfl | rfl | rfl | rfl | rfl | rfl | rfl | rfl | rfl <;> rfl

/-- Settles O20: the writes register by register, the instructions from what a turn reads. -/
theorem operandWritesWhileBusy : Obligations.OperandWritesWhileBusy :=
  ⟨fun _ hoff v s => writeReg_operand hoff v s, fun i r s => exec_withOperands r i s⟩

end Sys2Proof.Proofs
end

section
/-! PROOFS. Who writes which result (10_state.md rules R26, R29, R31, R37, R39, 20_memory.md rule R72, 42_device.md rule
R200): the micro-steps an instruction may hold lead to such micro-steps, and write no result of another instruction. -/

namespace Sys2Proof.Proofs

open Sys2Proof.Machine

/-- After a chunk comes the next one behind its wait, or the close of the speed scope (40_framer.md rule R152). -/
theorem afterChunk_cases (p : Params) (src : WordSrc) (k : Nat) :
    afterChunk p src k = [.closeBatch] ∨ ∃ k', afterChunk p src k = [.waitReady, .xferChunk src k'] := by
  unfold afterChunk
  split
  · exact .inr ⟨_, rfl⟩
  · exact .inl rfl

/-- INIT may hold what its phases bring along. -/
theorem phaseBody_owned (s : State) (p : InitPhase) : (phaseBody s p).all (mayHold .init) = true := by
  cases p <;> rfl

/-- An instruction may hold what a micro-step it may hold leads to. -/
theorem successors_owned {i : Instr} {m : Micro} {rest todo : List Micro} {s : State} (hm : mayHold i m = true)
    (hrest : rest.all (mayHold i) = true) (h : todo ∈ successors s rest m) : todo.all (mayHold i) = true := by
  cases m with
  | waitReady | resample | lutTest =>
    simp only [successors, List.mem_cons, List.not_mem_nil, or_false] at h
    rcases h with rfl | rfl
    · exact hrest
    · simpa [mayHold, lutPoll, regRead, sendCmd, sendData, readData] using hrest
  | xferChunk src k =>
    rw [List.mem_singleton.1 h]
    rcases afterChunk_cases s.params src k with hc | ⟨k', hc⟩ <;> rw [hc] <;> simpa [mayHold] using hrest
  | enterPhase p =>
    rw [List.mem_singleton.1 h]
    obtain rfl : i = .init := by simpa [mayHold] using hm
    rw [List.all_append, phaseBody_owned, hrest]
    rfl
  | vcomSync =>
    simp only [successors, List.mem_cons, List.not_mem_nil, or_false] at h
    rcases h with rfl | rfl
    · exact hrest
    · obtain rfl : i = .init := by simpa [mayHold] using hm
      rw [List.all_append, List.all_cons, hrest]
      rfl
  | commit => rw [List.mem_singleton.1 h]; rfl
  | _ => rw [List.mem_singleton.1 h]; exact hrest

/-- From `s` to `t` nothing is written but what instruction `i` may write. -/
structure WritesOwn (i : Instr) (s t : State) : Prop where
  result : writesResult i = false → t.regs.result = s.regs.result
  vcomCfg : writesVcomCfg i = false → t.regs.vcomCfg = s.regs.vcomCfg
  xbuf : i ≠ .rdDataBatch → t.xbuf = s.xbuf
  init : i ≠ .init → t.stat.initPhase = s.stat.initPhase ∧ t.info = s.info ∧ t.stg = s.stg
  infoValid : i ≠ .init → i ≠ .reset → t.stat.infoValid = s.stat.infoValid

theorem WritesOwn.refl (i : Instr) (s : State) : WritesOwn i s s :=
  ⟨fun _ => rfl, fun _ => rfl, fun _ => rfl, fun _ => ⟨rfl, rfl, rfl⟩, fun _ _ => rfl⟩

theorem WritesOwn.trans {i : Instr} {s t u : State} (h : WritesOwn i s t) (h' : WritesOwn i t u) : WritesOwn i s u where
  result hi := (h'.result hi).trans (h.result hi)
  vcomCfg hi := (h'.vcomCfg hi).trans (h.vcomCfg hi)
  xbuf hi := (h'.xbuf hi).trans (h.xbuf hi)
  init hi :=
    have ⟨hphase, hinfo, hstg⟩ := h.init hi
    have ⟨hphase', hinfo', hstg'⟩ := h'.init hi
    ⟨hphase'.trans hphase, hinfo'.trans hinfo, hstg'.trans hstg⟩
  infoValid hi hr := (h'.infoValid hi hr).trans (h.infoValid hi hr)

/-- The effect of a micro-step an instruction may hold. -/
theorem writesOwn_effect {i : Instr} {m : Micro} (s : State) (hm : mayHold i m = true) :
    WritesOwn i s (effect m s) := by
  have hnone := WritesOwn.refl i s
  cases m with
  | setResult => exact { hnone with result := fun hi => by simp [mayHold, hi] at hm }
  | setVcomCfg v => exact { hnone with vcomCfg := fun hi => by simp [mayHold, hi] at hm }
  | storeWords base =>
    rw [effect_storeWords]
    exact { hnone with xbuf := fun hi => by simp [mayHold, hi] at hm }
  | clearInfoValid => exact { hnone with infoValid := fun _ hi => by simp [mayHold, hi] at hm }
  | parseDevInfo => exact { hnone with init := fun hi => by simp [mayHold, hi] at hm }
  | enterPhase p =>
    exact { hnone with
      init := fun hi => by simp [mayHold, hi] at hm
      infoValid := fun hi _ => by simp [mayHold, hi] at hm }
  | commit =>
    exact { hnone with
      init := fun hi => by simp [mayHold, hi] at hm
      infoValid := fun hi _ => by simp [mayHold, hi] at hm }
  | _ => exact { hnone with }

/-- Between two turns of instruction `i` that began at `s`. -/
structure OwnTurn (i : Instr) (s t : State) : Prop where
  owned : Owned t
  runs : RunsOrStarts i t
  writes : WritesOwn i s t

/-- An Engine that goes idle holds nothing. -/
theorem OwnTurn.idle {i : Instr} {s t : State} (hq : t.seq = .idle) (h : WritesOwn i s t) : OwnTurn i s t :=
  ⟨by simp [Owned, hq], by simp [RunsOrStarts, hq], h⟩

theorem OwnTurn.goOn {i : Instr} {s t : State} {todo : List Micro} (htodo : todo.all (mayHold i) = true)
    (h : WritesOwn i s t) : OwnTurn i s (goOn i todo t) where
  owned op todo' hq := by
    rw [goOn_seq] at hq
    cases hq
    exact htodo
  runs op todo' hq := by
    rw [goOn_seq] at hq
    cases hq
    rfl
  writes := { h with }

theorem OwnTurn.microStep {i : Instr} {s u : State} (ha : active u = true) (hu : OwnTurn i s u) :
    OwnTurn i s (microStep u) := by
  obtain ⟨op, todo, hq, ⟨-, h⟩ | ⟨m, rest, rfl, c, -, h⟩⟩ := microStep_outcome ha
  · rw [h]
    exact .idle rfl { hu.writes with }
  · obtain rfl := hu.runs op _ hq
    have howned := hu.owned op _ hq
    rw [List.all_cons, Bool.and_eq_true] at howned
    obtain ⟨hm, hrest⟩ := howned
    have hcontact : WritesOwn op s (c.apply u) := { hu.writes with }
    rcases h with ⟨-, e, h⟩ | ⟨todo, htodo, h⟩ <;> rw [h]
    · exact .idle rfl { hcontact with }
    · exact .goOn (successors_owned hm hrest htodo) (hcontact.trans (writesOwn_effect _ hm))

theorem ownTurn_exec {i : Instr} {s t : State} (howned : Owned s) (hruns : RunsOrStarts i s) (h : exec i s = .next t) :
    OwnTurn i s t := by
  have hturn : ∀ n u, OwnTurn i s u → OwnTurn i s (engineRun n u) := fun n u hu =>
    engineRun_induct (fun _ ha hu => hu.microStep ha) n hu
  rcases exec_next h with ⟨op, todo, -, rfl⟩ | ⟨-, ⟨e, rfl⟩ | ⟨todo, htodo, rfl⟩⟩
  · exact hturn _ s ⟨howned, hruns, .refl i s⟩
  · exact .idle rfl { WritesOwn.refl i s with }
  · exact hturn _ _ (.goOn htodo.owned (.refl i s))

/-- The instructions that write RESULT, named. -/
theorem writesResult_eq_false {i : Instr} (h : i ∉ [.rdData, .rdVcom]) (ha : ∀ a, i ≠ .rdReg a) :
    writesResult i = false := by
  cases i with
  | rdData => simp at h
  | rdVcom => simp at h
  | rdReg a => exact absurd rfl (ha a)
  | _ => rfl

/-- The instructions that write VCOM_CFG, named. -/
theorem writesVcomCfg_eq_false {i : Instr} (h : i ≠ .init) (hv : ∀ v, i ≠ .wrVcom v) : writesVcomCfg i = false := by
  cases i with
  | init => exact absurd rfl h
  | wrVcom v => exact absurd rfl (hv v)
  | _ => rfl

/-- Where neither RESULT nor VCOM_CFG is written, the error registers and XCOUNT are the only host registers that are. -/
theorem regs_exec {i : Instr} {s t : State} (h : exec i s = .next t) (hresult : t.regs.result = s.regs.result)
    (hvcom : t.regs.vcomCfg = s.regs.vcomCfg) :
    t.regs = { s.regs with
      errCode := t.regs.errCode, errInfo0 := t.regs.errInfo0, errInfo1 := t.regs.errInfo1,
      errInfo2 := t.regs.errInfo2, errInfo3 := t.regs.errInfo3, xcount := t.regs.xcount } := by
  have hleft := unwritten_exec h
  simp only [unwritten, Prod.mk.injEq] at hleft
  generalize t.regs = r at *
  cases r
  simp_all only

/-- Settles O56, from what a turn of micro-steps the instruction may hold writes. -/
theorem operationsWriteOnlyTheirOwn : Obligations.OperationsWriteOnlyTheirOwn := by
  intro i s t howned hruns h
  obtain ⟨howned', hruns', hw⟩ := ownTurn_exec howned hruns h
  have hresult : i ∉ [.rdData, .rdVcom] → (∀ a, i ≠ .rdReg a) → t.regs.result = s.regs.result :=
    fun hi ha => hw.result (writesResult_eq_false hi ha)
  have hvcom : i ≠ .init → (∀ v, i ≠ .wrVcom v) → t.regs.vcomCfg = s.regs.vcomCfg :=
    fun hi hv => hw.vcomCfg (writesVcomCfg_eq_false hi hv)
  have hepoch : t.epoch = s.epoch := by
    have hleft := unwritten_exec h
    simp only [unwritten, Prod.mk.injEq] at hleft
    simp only [hleft]
  refine ⟨howned', hruns', hresult, fun hi => ?_, hvcom, hw.init, fun hi => ?_, fun hi ha hv => ?_⟩
  · have hxbuf := hw.xbuf hi
    exact ⟨hxbuf, fun a => by rw [xbufByte, xbufByte, hxbuf, hepoch]⟩
  · simp only [List.mem_cons, List.not_mem_nil, or_false, not_or] at hi
    exact hw.infoValid hi.1 hi.2
  · simp only [List.mem_cons, List.not_mem_nil, or_false, not_or] at hi
    obtain ⟨hinit, hdata, hvcomRead, -⟩ := hi
    exact regs_exec h (hresult (by simp [hdata, hvcomRead]) ha) (hvcom hinit hv)

end Sys2Proof.Proofs
end

section
/-! PROOFS. The invariant of the engine (10_state.md rules R24 to R34), kept by every micro-step. While an operation runs
it falls into what it says of the data and what it says of the sequencer position; each is followed on its own. -/

namespace Sys2Proof.Proofs

open Sys2Proof.Machine

/-! ### The invariant of a running operation -/

/-- What the invariant says of everything but the sequencer position, while an operation runs. -/
structure RunData (s : State) : Prop where
  xbufWf : Memory.wf s.xbuf
  xbufWithin : Memory.within s.params.xbufBytes s.xbuf
  busy : s.stat.busy = true
  done : s.stat.done = false
  csHigh : s.stat.csN = true
  errClear : s.regs.errCode = 0 ∧ s.regs.errInfo0 = 0 ∧ s.regs.errInfo1 = 0 ∧ s.regs.errInfo2 = 0 ∧ s.regs.errInfo3 = 0
  phaseRange : s.stat.initPhase.toNat ≤ 7
  lengths : s.info.fwLen.toNat ≤ 16 ∧ s.info.lutLen.toNat ≤ 16 ∧ s.stg.fwLen.toNat ≤ 16 ∧ s.stg.lutLen.toNat ≤ 16
  times : s.tWait ≤ s.now ∧ s.tOp ≤ s.now ∧ s.tDelay ≤ s.now

/-- What the invariant says of INIT with the micro-steps `todo` still to run: at its end, at its start, or between. -/
def InitAt (todo : List Micro) (s : State) : Prop :=
  todo = [] ∨ todo = [.enterPhase .hardReset] ∨ InitRuns todo s

/-- INIT's bookkeeping is read from INFO_VALID and INIT_PHASE alone. -/
theorem InitAt.congr {todo : List Micro} {s t : State} (h : InitAt todo s)
    (hvalid : t.stat.infoValid = s.stat.infoValid) (hphase : t.stat.initPhase = s.stat.initPhase) : InitAt todo t := by
  rcases h with hend | hstart | hr
  · exact .inl hend
  · exact .inr (.inl hstart)
  · exact .inr (.inr ⟨hvalid.trans hr.unset, hphase.trans hr.phase, hr.enters, hphase ▸ hr.fails⟩)

/-- What the invariant says of an operation `op` with the micro-steps `todo` still to run. -/
structure RunPosition (op : Instr) (todo : List Micro) (s : State) : Prop where
  speedScope : s.speed = .data → inBatch todo = true
  resetScope : s.stat.resetN = false → inPulse todo = true
  infoPhase : s.stat.infoValid = true → s.stat.initPhase = 7 ∧ noLaterPhase todo = true
  initRuns : op = .init → InitAt todo s

theorem runData_of_inv {s : State} (h : Machine.Inv s) (hq : s.seq ≠ .idle) : RunData s where
  xbufWf := h.xbufWf
  xbufWithin := h.xbufWithin
  busy := h.busyIff.2 hq
  done := by
    have hbusy := h.busyIff.2 hq
    cases hdone : s.stat.done with
    | false => rfl
    | true => exact absurd (h.doneIdle hdone) (by simp [hbusy])
  csHigh := h.csHigh
  errClear := h.errClear (h.busyIff.2 hq)
  phaseRange := h.phaseRange
  lengths := h.lengths
  times := h.times

theorem runPosition_of_inv {s : State} {op : Instr} {todo : List Micro} (h : Machine.Inv s)
    (hq : s.seq = .run op todo) : RunPosition op todo s where
  speedScope hs := by simpa [hq, todoOf] using h.speedScope hs
  resetScope hs := by simpa [hq, todoOf] using h.resetScope hs
  infoPhase hs := by simpa [hq, todoOf] using h.infoPhase hs
  initRuns hop := h.initRuns todo (hop ▸ hq)

/-- An operation that goes on meets the invariant. -/
theorem inv_goOn {s : State} {op : Instr} {todo : List Micro} (hd : RunData s) (hp : RunPosition op todo s) :
    Machine.Inv (goOn op todo s) where
  xbufWf := hd.xbufWf
  xbufWithin := hd.xbufWithin
  raceScope h := by simp [hd.busy] at h
  busyIff := by simp [hd.busy]
  doneIdle h := by simp [hd.done] at h
  speedScope := hp.speedScope
  csHigh := hd.csHigh
  resetScope := hp.resetScope
  errCodeRange := by simp [hd.errClear.1]
  errClear _ := hd.errClear
  errDone h := absurd hd.errClear.1 h
  phaseRange := hd.phaseRange
  infoPhase := hp.infoPhase
  initRuns todo' hq := by
    rw [goOn_seq] at hq
    injection hq with hop htodo
    subst htodo
    exact (hp.initRuns hop).congr rfl rfl
  lengths := hd.lengths
  times := hd.times

/-- An operation that ends without an error meets the invariant. -/
theorem inv_succeed {s : State} {op : Instr} (hd : RunData s) (hp : RunPosition op [] s) : Machine.Inv (succeed s) where
  xbufWf := hd.xbufWf
  xbufWithin := hd.xbufWithin
  raceScope _ := rfl
  busyIff := by simp
  doneIdle _ := rfl
  speedScope := hp.speedScope
  csHigh := hd.csHigh
  resetScope := hp.resetScope
  errCodeRange := by simp [hd.errClear.1]
  errClear h := by simp at h
  errDone h := absurd hd.errClear.1 h
  phaseRange := hd.phaseRange
  infoPhase := hp.infoPhase
  initRuns todo hq := by simp at hq
  lengths := hd.lengths
  times := hd.times

theorem errCodeOf_range (e : Err) : 1 ≤ (errCodeOf e).toNat ∧ (errCodeOf e).toNat ≤ 9 := by
  cases e <;> simp [errCodeOf]

/-- An operation that ends with an error outside a reset pulse meets the invariant. -/
theorem inv_raise {s : State} (e : Err) (hd : RunData s) (hreset : s.stat.resetN = true)
    (hphase : s.stat.infoValid = true → s.stat.initPhase = 7) : Machine.Inv (raise e s) where
  xbufWf := hd.xbufWf
  xbufWithin := hd.xbufWithin
  raceScope _ := rfl
  busyIff := by simp
  doneIdle _ := rfl
  speedScope h := by simp at h
  csHigh := hd.csHigh
  resetScope h := by simp [hreset] at h
  errCodeRange := (errCodeOf_range e).2
  errClear h := by simp at h
  errDone _ := rfl
  phaseRange := hd.phaseRange
  infoPhase h := ⟨hphase h, rfl⟩
  initRuns todo hq := by simp at hq
  lengths := hd.lengths
  times := hd.times

/-! ### The data -/

theorem RunData.contact {s : State} {c : Contact} (h : RunData s) (hc : c.At s) : RunData (c.apply s) where
  xbufWf := h.xbufWf
  xbufWithin := h.xbufWithin
  busy := h.busy
  done := h.done
  csHigh := hc.cs.elim (fun hcs => hcs.trans h.csHigh) id
  errClear := h.errClear
  phaseRange := h.phaseRange
  lengths := h.lengths
  times := ⟨hc.wait.elim (fun hw => hw.trans_le h.times.1) fun hw => hw.le, h.times.2⟩

theorem phaseNumber_range (p : InitPhase) : (phaseNumber p).toNat ≤ 7 := by
  cases p <;> decide

theorem firstZero_le (bs : List Byte) : firstZero bs ≤ bs.length := List.findIdx_le_length

/-- The version strings of the identification are eight words long (42_device.md rule R205). -/
theorem parseDevInfo_lengths (ws : List Word16) :
    (parseDevInfo ws).fwLen.toNat ≤ 16 ∧ (parseDevInfo ws).lutLen.toNat ≤ 16 := by
  have hlen : ∀ f : Nat → Word16,
      (BitVec.ofNat 5 (firstZero (versionBytes ((List.range 8).map f)))).toNat ≤ 16 := fun f => by
    have hle := firstZero_le (versionBytes ((List.range 8).map f))
    rw [versionBytes, le16_length, List.length_map, List.length_range] at hle
    rw [BitVec.toNat_ofNat]
    exact (Nat.mod_le _ _).trans hle
  exact ⟨hlen _, hlen _⟩

theorem RunData.effect {s : State} (h : RunData s) (m : Micro) : RunData (effect m s) := by
  have hlen := h.lengths
  have htimes := h.times
  cases m with
  | delay ms => exact { h with times := ⟨htimes.1, htimes.2.1, le_rfl⟩ }
  | startPoll => exact { h with times := ⟨htimes.1, le_rfl, htimes.2.2⟩ }
  | enterPhase p => exact { h with phaseRange := phaseNumber_range p }
  | parseDevInfo => exact { h with lengths := ⟨hlen.1, hlen.2.1, parseDevInfo_lengths s.words⟩ }
  | commit =>
    exact { h with
      phaseRange := le_refl 7
      lengths := ⟨hlen.2.2.1, hlen.2.2.2, hlen.2.2⟩ }
  | storeWords base =>
    have hwf := engineStoreBytes_wf base (s.words.flatMap le16) h.xbufWf
    have hwithin := engineStoreBytes_within base (s.words.flatMap le16) h.xbufWithin
    rw [effect_storeWords]
    exact { h with xbufWf := hwf, xbufWithin := hwithin }
  | _ => exact { h with }

/-! ### The position -/

/-- A contact reaches nothing the position is held to. -/
theorem RunPosition.contact {s : State} {op : Instr} {todo : List Micro} (h : RunPosition op todo s) (c : Contact) :
    RunPosition op todo (c.apply s) :=
  { h with initRuns := fun hop => (h.initRuns hop).congr rfl rfl }

theorem successors_contact (c : Contact) (s : State) (rest : List Micro) (m : Micro) :
    successors (c.apply s) rest m = successors s rest m := by
  cases m with
  | enterPhase p => cases p <;> rfl
  | _ => rfl

/-- DATA speed stays inside its scope: a bulk write opens it, goes from chunk to chunk and closes it (R42). -/
theorem speedScope_step {s : State} {m : Micro} {rest todo : List Micro} (h : todo ∈ successors s rest m)
    (hscope : s.speed = .data → inBatch (m :: rest) = true) : (effect m s).speed = .data → inBatch todo = true := by
  cases m with
  | waitReady | resample =>
    intro hs
    simp only [successors, List.mem_cons, List.not_mem_nil, or_false] at h
    rcases h with rfl | rfl
    · exact hscope hs
    · exact hscope hs
  | openBatch src => intro _; rw [List.mem_singleton.1 h]; rfl
  | xferChunk src k =>
    intro _
    rw [List.mem_singleton.1 h]
    rcases afterChunk_cases s.params src k with hc | ⟨k', hc⟩ <;> rw [hc] <;> rfl
  | closeBatch => intro hs; cases hs
  | delay ms | hold ms => intro hs; rw [List.mem_singleton.1 h]; exact hscope hs
  | storeWords base =>
    rw [effect_storeWords]
    exact fun hs => nomatch hscope hs
  | _ => exact fun hs => nomatch hscope hs

/-- RESET_N stays low inside its pulse only (40_framer.md rule R163). -/
theorem resetScope_step {s : State} {m : Micro} {rest todo : List Micro} (h : todo ∈ successors s rest m)
    (hscope : s.stat.resetN = false → inPulse (m :: rest) = true) :
    (effect m s).stat.resetN = false → inPulse todo = true := by
  cases m with
  | pulseLow => intro _; rw [List.mem_singleton.1 h]; rfl
  | pulseHigh => intro hs; cases hs
  | delay ms | hold ms => intro hs; rw [List.mem_singleton.1 h]; exact hscope hs
  | storeWords base =>
    rw [effect_storeWords]
    exact fun hs => nomatch hscope hs
  | _ => exact fun hs => nomatch hscope hs

/-- After an INIT that completed, no operation but a new INIT enters a phase (R26, R29). -/
theorem infoPhase_step {s : State} {m : Micro} {rest todo : List Micro} (h : todo ∈ successors s rest m)
    (hinfo : s.stat.infoValid = true → s.stat.initPhase = 7 ∧ noLaterPhase (m :: rest) = true) :
    (effect m s).stat.infoValid = true → (effect m s).stat.initPhase = 7 ∧ noLaterPhase todo = true := by
  cases m with
  | waitReady | resample | vcomSync | lutTest =>
    intro hs
    obtain ⟨hphase, hlater⟩ := hinfo hs
    simp only [successors, List.mem_cons, List.not_mem_nil, or_false] at h
    rcases h with rfl | rfl <;> exact ⟨hphase, hlater⟩
  | xferChunk src k =>
    intro hs
    obtain ⟨hphase, hlater⟩ := hinfo hs
    rw [List.mem_singleton.1 h]
    rcases afterChunk_cases s.params src k with hc | ⟨k', hc⟩ <;> rw [hc] <;> exact ⟨hphase, hlater⟩
  | clearInfoValid => intro hs; cases hs
  | enterPhase p =>
    intro hs
    cases p with
    | hardReset => cases hs
    | _ => cases (hinfo hs).2
  | commit => intro _; rw [List.mem_singleton.1 h]; exact ⟨rfl, rfl⟩
  | storeWords base =>
    rw [effect_storeWords, List.mem_singleton.1 h]
    exact hinfo
  | _ => rw [List.mem_singleton.1 h]; exact hinfo

/-! ### INIT's bookkeeping -/

/-- Micro-steps that enter no phase leave the phase the rest stands in. -/
theorem phaseOf_append {a : List Micro} (rest : List Micro) (ha : ∀ p, .enterPhase p ∉ a) :
    phaseOf (a ++ rest) = phaseOf rest ∧ entersLast (a ++ rest) = entersLast rest := by
  induction a with
  | nil => exact ⟨rfl, rfl⟩
  | cons m a ih =>
    have ih := ih fun p hp => ha p (List.mem_cons_of_mem m hp)
    cases m with
    | enterPhase p => exact absurd List.mem_cons_self (ha p)
    | _ => exact ih

/-- INIT goes on past a micro-step that enters no phase, with others like it put before the rest. -/
theorem initRuns_past {m : Micro} {rest : List Micro} {s : State} (h : InitRuns (m :: rest) s)
    (hm : ∀ p, m ≠ .enterPhase p) (a : List Micro) (ha : ∀ p, .enterPhase p ∉ a)
    (hfail : a.any canFail = true → canFail m = true) :
    InitRuns (a ++ rest) s := by
  obtain ⟨hphase, henters⟩ := phaseOf_append rest ha
  obtain ⟨hphase', henters'⟩ := phaseOf_append (a := [m]) rest (by simpa [eq_comm] using hm)
  refine ⟨h.unset, by rw [hphase, ← hphase']; exact h.phase, by rw [henters, ← henters']; exact h.enters, fun hany => ?_⟩
  refine h.fails ?_
  rw [List.any_append, Bool.or_eq_true] at hany
  rw [List.any_cons, Bool.or_eq_true]
  exact hany.imp_left hfail

/-- The entry of a phase: its number, INFO_VALID 0, and the micro-steps up to the next entry (42_device.md rules R202,
R203). -/
theorem initRuns_enterPhase {p : InitPhase} {s : State} (h : p = .hardReset ∨ s.stat.infoValid = false) :
    InitRuns (phaseBody s p) (enterPhase p s) where
  unset := by rcases h with rfl | h <;> simp [*]
  phase := by cases p <;> rfl
  enters := by cases p <;> rfl
  fails := by
    cases p with
    | hardReset | settle => exact fun hany => nomatch hany
    | _ =>
      intro _
      show 3 ≤ (phaseNumber _).toNat
      decide

theorem initRuns_step {s : State} {m : Micro} {rest todo : List Micro} (h : todo ∈ successors s rest m)
    (hinit : InitAt (m :: rest) s) : InitAt todo (effect m s) := by
  rcases hinit with hend | hstart | hr
  · cases hend
  · injection hstart with hm hrest
    subst hm hrest
    rw [List.mem_singleton.1 h, List.append_nil]
    exact .inr (.inr (initRuns_enterPhase (.inl rfl)))
  · have hpast : ∀ a : List Micro, (∀ p, m ≠ .enterPhase p) → (∀ p, .enterPhase p ∉ a) →
        (a.any canFail = true → canFail m = true) → InitAt (a ++ rest) s :=
      fun a hm ha hfail => .inr (.inr (initRuns_past hr hm a ha hfail))
    cases m with
    | waitReady | resample =>
      simp only [successors, List.mem_cons, List.not_mem_nil, or_false] at h
      rcases h with rfl | rfl
      · exact hpast [] (by simp) (by simp) (by simp)
      · exact hpast [.delay s.params.hrdyPollMs, .resample] (by simp) (by simp) (fun _ => rfl)
    | vcomSync =>
      simp only [successors, List.mem_cons, List.not_mem_nil, or_false] at h
      rcases h with rfl | rfl
      · exact hpast [] (by simp) (by simp) (by simp)
      · exact hpast (vcomWrite s.lat.vcfg ++ [.setVcomCfg s.lat.vcfg]) (by simp)
          (by simp [vcomWrite, sendCmd, sendData]) (fun _ => rfl)
    | lutTest =>
      simp only [successors, List.mem_cons, List.not_mem_nil, or_false] at h
      rcases h with rfl | rfl
      · exact hpast [] (by simp) (by simp) (by simp)
      · exact hpast (.delay s.params.drdyPollMs :: lutPoll) (by simp)
          (by simp [lutPoll, regRead, sendCmd, sendData, readData]) (fun _ => rfl)
    | openBatch src =>
      rw [List.mem_singleton.1 h]
      exact (hpast [.waitReady, .xferChunk src 0] (by simp) (by simp) (fun _ => rfl)).congr rfl rfl
    | xferChunk src k =>
      rw [List.mem_singleton.1 h]
      refine hpast (afterChunk s.params src k) (by simp) (fun p => ?_) (fun _ => rfl)
      rcases afterChunk_cases s.params src k with hc | ⟨k', hc⟩ <;> simp [hc]
    | pulseLow =>
      rw [List.mem_singleton.1 h]
      exact (hpast (resetPulseRest s.params) (by simp) (by simp [resetPulseRest]) nofun).congr rfl rfl
    | delay ms =>
      rw [List.mem_singleton.1 h]
      exact (hpast [.hold ms] (by simp) (by simp) nofun).congr rfl rfl
    | enterPhase p =>
      obtain rfl : rest = [] := List.isEmpty_iff.1 hr.enters
      rw [List.mem_singleton.1 h, List.append_nil]
      exact .inr (.inr (initRuns_enterPhase (.inr hr.unset)))
    | commit => rw [List.mem_singleton.1 h]; exact .inl rfl
    | clearInfoValid =>
      rw [List.mem_singleton.1 h]
      exact (hpast [] (by simp) (by simp) (by simp)).congr hr.unset.symm rfl
    | storeWords base =>
      rw [List.mem_singleton.1 h]
      rw [effect_storeWords]
      exact (hpast [] (by simp) (by simp) (by simp)).congr rfl rfl
    | _ =>
      rw [List.mem_singleton.1 h]
      exact (hpast [] (by simp) (by simp) (by simp)).congr rfl rfl

theorem RunPosition.step {s : State} {op : Instr} {m : Micro} {rest todo : List Micro}
    (hp : RunPosition op (m :: rest) s) (h : todo ∈ successors s rest m) : RunPosition op todo (effect m s) where
  speedScope := speedScope_step h hp.speedScope
  resetScope := resetScope_step h hp.resetScope
  infoPhase := infoPhase_step h hp.infoPhase
  initRuns hop := initRuns_step h (hp.initRuns hop)

/-- A micro-step that can fail stands outside every reset pulse. -/
theorem RunPosition.resetN_of_canFail {s : State} {op : Instr} {m : Micro} {rest : List Micro}
    (hp : RunPosition op (m :: rest) s) (hm : canFail m = true) : s.stat.resetN = true := by
  by_contra hn
  have hpulse := hp.resetScope (by simpa using hn)
  cases m with
  | pulseHigh | delay | hold => cases hm
  | _ => cases hpulse

/-- Every micro-step keeps the invariant. -/
theorem inv_microStep (u : State) (ha : active u = true) (hu : Machine.Inv u) : Machine.Inv (microStep u) := by
  obtain ⟨op, todo, hq, ⟨rfl, h⟩ | ⟨m, rest, rfl, c, hc, h⟩⟩ := microStep_outcome ha
  all_goals
    have hd := runData_of_inv hu (by simp [hq])
    have hp := runPosition_of_inv hu hq
  · rw [h]
    exact inv_succeed hd hp
  · have hd := hd.contact hc
    have hp := hp.contact c
    rcases h with ⟨hm, e, h⟩ | ⟨todo, htodo, h⟩ <;> rw [h]
    · exact inv_raise e hd (hp.resetN_of_canFail hm) fun hinfo => (hp.infoPhase hinfo).1
    · rw [← successors_contact c] at htodo
      exact inv_goOn (hd.effect m) (hp.step htodo)

/-! ### A turn of the Engine -/

theorem todoOf_atStart {s : State} (hs : AtStart s) : todoOf s.seq = [] := by
  cases hq : s.seq with
  | run op todo => exact absurd hq (hs op todo)
  | _ => rfl

/-- An accepted operation that ends with an error before it has started meets the invariant. -/
theorem inv_raise_atStart {s : State} (e : Err) (h : Machine.Inv s) (hq : s.seq ≠ .idle) (hs : AtStart s) :
    Machine.Inv (raise e s) := by
  have hreset : s.stat.resetN = true := by
    by_contra hn
    have hpulse := h.resetScope (by simpa using hn)
    rw [todoOf_atStart hs] at hpulse
    cases hpulse
  exact inv_raise e (runData_of_inv h hq) hreset fun hi => (h.infoPhase hi).1

/-- An accepted instruction that has not started meets the invariant at the micro-steps of its start. -/
theorem runPosition_start {i : Instr} {s : State} {todo : List Micro} (h : Machine.Inv s) (hs : AtStart s)
    (hstart : startOf i s = .ok todo) : RunPosition i todo s := by
  have hscope := h.speedScope
  have hpulse := h.resetScope
  rw [todoOf_atStart hs] at hscope hpulse
  refine ⟨fun hd => absurd (hscope hd) Bool.noConfusion, fun hn => absurd (hpulse hn) Bool.noConfusion,
    fun hi => ⟨(h.infoPhase hi).1, (startOf_ok hstart).noPhase⟩, fun hi => ?_⟩
  subst hi
  injection hstart with hstart
  exact .inr (.inl hstart.symm)

/-- An instruction keeps the invariant, at its start or running. -/
theorem inv_exec {i : Instr} {s t : State} (h : Machine.Inv s) (hq : s.seq ≠ .idle) (hexec : exec i s = .next t) :
    Machine.Inv t := by
  by_cases hs : AtStart s
  · rcases exec_started hs hexec with ⟨e, rfl⟩ | ⟨todo, hstart, rfl⟩
    · exact inv_raise_atStart e h hq hs
    · exact engineRun_induct inv_microStep _ (inv_goOn (runData_of_inv h hq) (runPosition_start h hs hstart))
  · rcases exec_next hexec with ⟨op, todo, -, rfl⟩ | ⟨hs', -⟩
    · exact engineRun_induct inv_microStep _ h
    · exact absurd hs' hs

end Sys2Proof.Proofs
end

section
/-! PROOFS. The invariant of the engine over a step of any agent (00_scope.md rule R8): the Host, the Clock and an engine
reset keep it beside the Engine. -/

namespace Sys2Proof.Proofs

open Sys2Proof.Machine

/-! ### The Host -/

/-- What the host writes of its own leaves the clause on INIT as it is. -/
theorem initRuns_frame {s t : State} (h : Machine.Inv s) (hseq : t.seq = s.seq)
    (hvalid : t.stat.infoValid = s.stat.infoValid) (hphase : t.stat.initPhase = s.stat.initPhase) :
    ∀ todo, t.seq = .run .init todo → InitAt todo t :=
  fun todo hq => InitAt.congr (h.initRuns todo (hseq ▸ hq)) hvalid hphase

theorem inv_acceptGo {s : State} (h : Machine.Inv s) (hbusy : s.stat.busy = false) : Machine.Inv (acceptGo s) where
  xbufWf := h.xbufWf
  xbufWithin := h.xbufWithin
  raceScope hb := by simp at hb
  busyIff := by simp
  doneIdle hd := by simp at hd
  speedScope hs := by
    have hidle : s.seq = .idle := by simpa [hbusy] using h.busyIff
    simpa [hidle, todoOf] using h.speedScope hs
  csHigh := h.csHigh
  resetScope hr := by
    have hidle : s.seq = .idle := by simpa [hbusy] using h.busyIff
    simpa [hidle, todoOf] using h.resetScope hr
  errCodeRange := Nat.zero_le 9
  errClear _ := ⟨rfl, rfl, rfl, rfl, rfl⟩
  errDone he := absurd rfl he
  phaseRange := h.phaseRange
  infoPhase hi := ⟨(h.infoPhase hi).1, rfl⟩
  initRuns todo hq := by simp at hq
  lengths := h.lengths
  times := h.times

theorem inv_writeCtrl (v : Word32) {s : State} (h : Machine.Inv s) : Machine.Inv (writeCtrl v s) := by
  unfold writeCtrl
  split
  · split
    · exact { h with initRuns := initRuns_frame h rfl rfl rfl }
    · exact inv_acceptGo h (by simpa using ‹¬s.stat.busy = true›)
  · exact h

theorem inv_writeReg (off : Nat) (v : Word32) {s : State} (h : Machine.Inv s) : Machine.Inv (writeReg off v s) := by
  fun_cases writeReg off v s
  case case1 => exact inv_writeCtrl v h
  case case12 =>
    unfold writeVcomCfg
    split
    · exact h
    · exact { h with initRuns := initRuns_frame h rfl rfl rfl }
  case case13 => exact h
  all_goals exact { h with initRuns := initRuns_frame h rfl rfl rfl }

/-- A window store races on no byte while no operation runs (20_memory.md rule R93). -/
theorem inv_hostByteStores (a : Nat) (bs : List Byte) {s : State} (h : Machine.Inv s) :
    Machine.Inv (hostByteStores s a bs) := by
  have hwf := hostByteStores_wf a bs h.xbufWf
  have hwithin := hostByteStores_within a bs h.xbufWithin
  have hrace : s.stat.busy = false → (hostByteStores s a bs).xbufRace = [] := fun hbusy => by
    have hidle : s.seq = .idle := by simpa [hbusy] using h.busyIff
    rw [hostByteStores_idle hidle, xbufStoreBytes_spec]
    exact h.raceScope hbusy
  rw [hostByteStores_spec]
  exact { h with
    xbufWf := hwf
    xbufWithin := hwithin
    raceScope := hrace
    initRuns := initRuns_frame h rfl rfl rfl }

theorem inv_countRace (races : Bool) {s : State} (h : Machine.Inv s) : Machine.Inv (countRace races s) := by
  unfold countRace
  split
  · exact { h with initRuns := initRuns_frame h rfl rfl rfl }
  · exact h

theorem inv_hostLoad {off : Nat} {s t : State} (h : Machine.Inv s) (hload : hostLoad off s = .next t) :
    Machine.Inv t := by
  have hdata : ∀ w, Machine.Inv { s with hostData := w } :=
    fun w => { h with initRuns := initRuns_frame h rfl rfl rfl }
  unfold hostLoad at hload
  split at hload
  · injection hload with hload
    exact hload ▸ inv_countRace _ (hdata _)
  · split at hload
    · cases hload
    · injection hload with hload
      exact hload ▸ hdata _

theorem inv_hostStore {off : Nat} {v : Word32} {s t : State} (h : Machine.Inv s) (hstore : hostStore off v s = .next t) :
    Machine.Inv t := by
  unfold hostStore at hstore
  split at hstore <;> injection hstore with hstore <;> subst hstore
  · exact inv_countRace _ (inv_hostByteStores _ _ h)
  · exact inv_writeReg off v h

theorem inv_hostTurn {a : HostAccess} {s t : State} (h : Machine.Inv s) (hturn : hostTurn a s = .next t) :
    Machine.Inv t := by
  unfold hostTurn at hturn
  split at hturn
  · split at hturn
    · exact inv_hostStore h hturn
    · exact inv_hostLoad h hturn
  · cases hturn

theorem inv_runHostOp {op : HostOp} {s t : State} (h : Machine.Inv s) (hrun : runHostOp op s = .next t) :
    Machine.Inv t := by
  cases op with
  | access a => exact inv_hostTurn h hrun
  | merge word off bs => exact inv_hostTurn h hrun
  | waitDone =>
    simp only [runHostOp] at hrun
    split at hrun <;> cases hrun
    have hpoll := inv_hostTurn h ‹_›
    split
    · exact hpoll
    · exact { hpoll with initRuns := initRuns_frame hpoll rfl rfl rfl }
  | keep word off n =>
    simp only [runHostOp] at hrun
    split at hrun <;> cases hrun
    have hload := inv_hostTurn h ‹_›
    exact { hload with initRuns := initRuns_frame hload rfl rfl rfl }

theorem inv_hostStep {s t : State} (h : Machine.Inv s) (hstep : hostStep s = .next t) : Machine.Inv t := by
  unfold hostStep at hstep
  split at hstep
  · cases hstep
    exact h
  · refine inv_runHostOp (s := { s with hostProg := _ }) ?_ hstep
    exact { h with initRuns := initRuns_frame h rfl rfl rfl }

/-! ### The Clock, engine reset and the Engine -/

theorem inv_tick {s : State} (h : Machine.Inv s) : Machine.Inv (tick s) :=
  { h with
    initRuns := initRuns_frame h rfl rfl rfl
    times := ⟨Nat.le_succ_of_le h.times.1, Nat.le_succ_of_le h.times.2.1, Nat.le_succ_of_le h.times.2.2⟩ }

/-- After an engine reset the invariant holds whatever came before (70_reset_and_hazards.md rules R310, R311). -/
theorem inv_engineReset (s : State) : Machine.Inv (engineReset s) where
  xbufWf := List.Pairwise.nil
  xbufWithin := nofun
  raceScope _ := rfl
  busyIff := by simp [engineReset, State.afterReset]
  doneIdle := nofun
  speedScope := nofun
  csHigh := rfl
  resetScope := nofun
  errCodeRange := Nat.zero_le 9
  errClear := nofun
  errDone he := absurd rfl he
  phaseRange := Nat.zero_le 7
  infoPhase := nofun
  initRuns := nofun
  lengths := ⟨Nat.zero_le 16, Nat.zero_le 16, Nat.zero_le 16, Nat.zero_le 16⟩
  times := ⟨Nat.zero_le s.now, Nat.zero_le s.now, Nat.zero_le s.now⟩

theorem inv_engineStep {s t : State} (h : Machine.Inv s) (hstep : engineStep s = .next t) : Machine.Inv t := by
  unfold engineStep at hstep
  split at hstep
  case h_1 =>
    cases hstep
    exact h
  case h_2 hq =>
    split at hstep
    · exact inv_exec h (by simp [hq]) hstep
    · cases hstep
      exact inv_raise_atStart _ h (by simp [hq]) (by simp [AtStart, hq])
  case h_3 hq =>
    split at hstep
    · exact inv_exec h (by simp [hq]) hstep
    · cases hstep
  case h_4 hq =>
    split at hstep
    · cases hstep
      exact h
    · exact inv_exec h (by simp [hq]) hstep

theorem inv_takeTurn {w : Turn} {s t : State} (h : Machine.Inv s) (hturn : takeTurn w s = .next t) : Machine.Inv t := by
  cases w with
  | engine => exact inv_engineStep h hturn
  | clock => cases hturn; exact inv_tick h
  | program => exact inv_hostStep h hturn
  | host a => exact inv_hostTurn h hturn
  | engineReset => cases hturn; exact inv_engineReset s

/-- Settles O50, agent by agent; the Engine's turn by induction over its micro-steps. -/
theorem invariantKept : Obligations.InvariantKept := by
  intro s t h hstep
  unfold step turn at hstep
  split at hstep
  · split at hstep
    · exact inv_takeTurn h hstep
    · refine inv_takeTurn (s := { s with agenda := _ }) ?_ hstep
      exact { h with initRuns := initRuns_frame h rfl rfl rfl }
  · cases hstep

end Sys2Proof.Proofs
end

section
/-! PROOFS. The results of an operation are written last (60_exceptions.md rule R284): the micro-steps that write one come
after all that can fail, so an operation that ends with an error has written none. -/

namespace Sys2Proof.Proofs

open Sys2Proof.Machine

/-! ### Writes stand last -/

/-- A micro-step that puts no condition on what comes after it. -/
def isPlain : Micro → Bool
  | .enterPhase _ => false
  | .vcomSync => false
  | m => !isWrite m

theorem writesLast_cons {m : Micro} (rest : List Micro) (hm : isPlain m = true) :
    writesLast (m :: rest) = writesLast rest := by
  cases m with
  | enterPhase | vcomSync | setVcomCfg | commit | setResult | storeWords => cases hm
  | _ => rfl

theorem writesLast_append {a : List Micro} (rest : List Micro) (ha : a.all isPlain = true) :
    writesLast (a ++ rest) = writesLast rest := by
  induction a with
  | nil => rfl
  | cons m a ih =>
    rw [List.all_cons, Bool.and_eq_true] at ha
    rw [List.cons_append, writesLast_cons _ ha.1, ih ha.2]

theorem writesLast_of_plain {a : List Micro} (ha : a.all isPlain = true) : writesLast a = true := by
  rw [← List.append_nil a, writesLast_append [] ha]
  rfl

/-- Behind a write come writes only. -/
theorem all_isWrite_of_writesLast {m : Micro} {rest : List Micro} (hm : isWrite m = true)
    (h : writesLast (m :: rest) = true) : rest.all isWrite = true := by
  cases m with
  | setVcomCfg | commit | setResult | storeWords => exact h
  | _ => cases hm

theorem writesLast_of_all_isWrite {todo : List Micro} (h : todo.all isWrite = true) : writesLast todo = true := by
  cases todo with
  | nil => rfl
  | cons m rest =>
    rw [List.all_cons, Bool.and_eq_true] at h
    obtain ⟨hm, hrest⟩ := h
    cases m with
    | setVcomCfg | commit | setResult | storeWords => exact hrest
    | _ => cases hm

theorem isPlain_sendDataBatch (src : WordSrc) : (sendDataBatch src).all isPlain = true := by
  unfold sendDataBatch
  split <;> rfl

theorem isPlain_sendCmdArgs (op : Word16) (src : WordSrc) : (sendCmdArgs op src).all isPlain = true := by
  rw [sendCmdArgs, List.all_append, isPlain_sendDataBatch]
  rfl

theorem isPlain_loadStart (addr : Word32) (fl : Word16) (a : Area) : (loadStart addr fl a).all isPlain = true := by
  rw [loadStart, List.all_append, isPlain_sendCmdArgs]
  rfl

theorem isPlain_fillBody (s : State) (a : Area) (v : Byte) : (fillBody s a v).all isPlain = true := by
  rw [fillBody, List.all_append, List.all_append, isPlain_loadStart, isPlain_sendDataBatch]
  rfl

theorem isPlain_loadImageBody (s : State) (f : PixelFormat) : (loadImageBody s f).all isPlain = true := by
  rw [loadImageBody, List.all_append, List.all_append, isPlain_loadStart, isPlain_sendDataBatch]
  rfl

/-- Every instruction starts with its writes last. -/
theorem startOf_writesLast {i : Instr} {s : State} {todo : List Micro} (h : startOf i s = .ok todo) :
    writesLast todo = true := by
  have ok : ∀ l : List Micro, writesLast l = true → (Except.ok l : Start) = .ok todo → writesLast todo = true := by
    intro l hl he
    cases he
    exact hl
  have plain : ∀ l : List Micro, l.all isPlain = true → (Except.ok l : Start) = .ok todo → writesLast todo = true :=
    fun l hl => ok l (writesLast_of_plain hl)
  cases i with
  | wrDataBatch => exact plain _ (isPlain_sendDataBatch _) (checkRange_ok h)
  | rdDataBatch =>
    refine ok (readBatch s) ?_ (checkRange_ok (checkReadCount_ok h))
    unfold readBatch
    split <;> rfl
  | wrCmdArgs imm => exact plain _ (isPlain_sendCmdArgs _ _) (checkRange_ok h)
  | wrUcmdArgs imm => exact plain _ (isPlain_sendCmdArgs _ _) (checkRange_ok h)
  | wrVcom v => exact ok _ rfl (checkVcom_ok h)
  | clear v => exact plain _ (isPlain_fillBody _ _ _) (checkArea_ok (requireInit_ok h))
  | fillArea v => exact plain _ (isPlain_fillBody _ _ _) (checkArea_ok (requireInit_ok h))
  | refresh m => exact plain _ (isPlain_sendCmdArgs _ _) (checkArea_ok (requireInit_ok h))
  | refreshArea m => exact plain _ (isPlain_sendCmdArgs _ _) (checkArea_ok (requireInit_ok h))
  | loadImage fmt =>
    simp only [startOf] at h
    split at h
    · exact plain _ (isPlain_loadImageBody s _) (checkImageLength_ok (checkArea_ok (requireInit_ok (checkRange_ok h))))
    · cases h
  | preWriteData ws =>
    refine ok (bareDataFrame ws) ?_ h
    unfold bareDataFrame
    split <;> rfl
  | _ => exact ok _ rfl h

/-- Past a write only writes are to run. -/
theorem successors_all_isWrite {m : Micro} {rest todo : List Micro} {s : State} (hm : isWrite m = true)
    (hrest : rest.all isWrite = true) (h : todo ∈ successors s rest m) : todo.all isWrite = true := by
  cases m with
  | commit => rw [List.mem_singleton.1 h]; rfl
  | setVcomCfg v | setResult | storeWords base => rw [List.mem_singleton.1 h]; exact hrest
  | _ => cases hm

/-- Every micro-step leaves the writes last. -/
theorem successors_writesLast {m : Micro} {rest todo : List Micro} {s : State} (hw : writesLast (m :: rest) = true)
    (h : todo ∈ successors s rest m) : writesLast todo = true := by
  cases m with
  | waitReady | resample | lutTest =>
    simp only [successors, List.mem_cons, List.not_mem_nil, or_false] at h
    rcases h with rfl | rfl <;> exact hw
  | xferChunk src k =>
    rw [List.mem_singleton.1 h]
    rcases afterChunk_cases s.params src k with hc | ⟨k', hc⟩ <;> rw [hc] <;> exact hw
  | enterPhase p =>
    obtain rfl : rest = [] := List.isEmpty_iff.1 hw
    rw [List.mem_singleton.1 h]
    cases p <;> rfl
  | vcomSync =>
    simp only [successors, List.mem_cons, List.not_mem_nil, or_false] at h
    rcases h with rfl | rfl
    · exact writesLast_of_all_isWrite hw
    · exact hw
  | setVcomCfg v | setResult | storeWords base =>
    rw [List.mem_singleton.1 h]
    exact writesLast_of_all_isWrite hw
  | commit => rw [List.mem_singleton.1 h]; rfl
  | _ => rw [List.mem_singleton.1 h]; exact hw

/-! ### The results -/

/-- The results of the operations: RESULT, XBUF, VCOM_CFG and the device-information file. -/
def results (s : State) := (s.regs.result, s.xbuf, s.regs.vcomCfg, s.info)

theorem results_effect {m : Micro} (s : State) (hm : isWrite m = false) : results (effect m s) = results s := by
  cases m with
  | setVcomCfg | commit | setResult | storeWords => cases hm
  | _ => rfl

theorem errCode_effect (m : Micro) (s : State) : (effect m s).regs.errCode = s.regs.errCode := by
  cases m with
  | storeWords base => rw [effect_storeWords]
  | _ => rfl

/-- What can fail writes no result. -/
theorem isWrite_of_canFail {m : Micro} (hm : canFail m = true) : isWrite m = false := by
  cases m with
  | setVcomCfg | commit | setResult | storeWords => cases hm
  | _ => rfl

/-- The state an error leaves (R284). -/
structure ErrorEnd (s : State) : Prop where
  speed : s.speed = .cmd
  busy : s.stat.busy = false
  done : s.stat.done = true
  seq : s.seq = .idle

theorem errorEnd_raise (e : Err) (s : State) : ErrorEnd (raise e s) := ⟨rfl, rfl, rfl, rfl⟩

/-- Of an operation that began at `s`: its writes stand last, and while something else is still to do, or an error has
ended it, the results are those of `s`. -/
structure LateWrites (s t : State) : Prop where
  last : writesLast (todoOf t.seq) = true
  kept : (todoOf t.seq).all isWrite = false ∨ t.regs.errCode ≠ 0 → results t = results s
  errorEnd : t.regs.errCode ≠ 0 → ErrorEnd t

theorem LateWrites.raise {s t : State} (e : Err) (h : results t = results s) :
    LateWrites s (Machine.raise e t) :=
  ⟨rfl, fun _ => h, fun _ => errorEnd_raise e t⟩

theorem LateWrites.goOn {s t : State} (op : Instr) {todo : List Micro} (hlast : writesLast todo = true)
    (herr : t.regs.errCode = 0) (h : todo.all isWrite = false → results t = results s) :
    LateWrites s (Machine.goOn op todo t) :=
  ⟨hlast, fun hc => hc.elim h fun hne => absurd herr hne, fun hne => absurd herr hne⟩

theorem LateWrites.microStep {s u : State} (ha : active u = true) (hu : LateWrites s u) :
    LateWrites s (microStep u) := by
  obtain ⟨op, todo, hq, hstep⟩ := microStep_outcome ha
  have herr : u.regs.errCode = 0 := by
    by_contra hne
    cases hq.symm.trans (hu.errorEnd hne).seq
  obtain ⟨hlast, hkept, -⟩ := hu
  rw [hq] at hlast hkept
  rcases hstep with ⟨-, h⟩ | ⟨m, rest, rfl, c, -, h⟩
  · rw [h]
    exact ⟨rfl, fun hc => hc.elim nofun fun hne => absurd herr hne, fun hne => absurd herr hne⟩
  · have hbefore : isWrite m = false → results (c.apply u) = results s :=
      fun hm => hkept (.inl (by simp [todoOf, hm]))
    rcases h with ⟨hm, e, h⟩ | ⟨todo, htodo, h⟩ <;> rw [h]
    · exact .raise e (hbefore (isWrite_of_canFail hm))
    · refine .goOn op (successors_writesLast hlast htodo) ((errCode_effect m _).trans herr) fun hall => ?_
      cases hm : isWrite m with
      | false => exact (results_effect _ hm).trans (hbefore hm)
      | true =>
        rw [successors_all_isWrite hm (all_isWrite_of_writesLast hm hlast) htodo] at hall
        cases hall

theorem lateWrites_exec {i : Instr} {s t : State} (hlast : writesLast (todoOf s.seq) = true)
    (herr : s.regs.errCode = 0) (h : exec i s = .next t) : LateWrites s t := by
  have hturn : ∀ n u, LateWrites s u → LateWrites s (engineRun n u) := fun n u hu =>
    engineRun_induct (fun _ ha hu => hu.microStep ha) n hu
  by_cases hs : AtStart s
  · rcases exec_started hs h with ⟨e, rfl⟩ | ⟨todo, htodo, rfl⟩
    · exact .raise e rfl
    · exact hturn _ _ (.goOn i (startOf_writesLast htodo) herr fun _ => rfl)
  · rcases exec_next h with ⟨op, todo, -, rfl⟩ | ⟨hs', -⟩
    · exact hturn _ s ⟨hlast, fun _ => rfl, fun hne => absurd herr hne⟩
    · exact absurd hs' hs

/-! ### A failing INIT -/

theorem runsOrStarts_microStep {i : Instr} {u : State} (ha : active u = true) (hu : RunsOrStarts i u) :
    RunsOrStarts i (microStep u) := by
  obtain ⟨op, todo, hq, ⟨-, h⟩ | ⟨m, rest, -, c, -, ⟨-, e, h⟩ | ⟨todo', -, h⟩⟩⟩ := microStep_outcome ha
  · rw [h]
    exact nofun
  · rw [h]
    exact nofun
  · rw [h]
    intro op' todo'' hq'
    injection hq' with hop
    exact hop ▸ hu op todo hq

theorem runsOrStarts_of_seq {i : Instr} {s : State} {todo : List Micro} (hq : s.seq = .run i todo) :
    RunsOrStarts i s := by
  intro op todo' hq'
  rw [hq] at hq'
  injection hq' with hop
  exact hop.symm

theorem phaseOf_le (todo : List Micro) : (phaseOf todo).toNat ≤ 6 := by
  induction todo with
  | nil => decide
  | cons m rest ih =>
    cases m with
    | enterPhase p =>
      show (phaseNumber p - 1).toNat ≤ 6
      cases p <;> decide
    | _ => exact ih

/-- Where a micro-step of INIT fails, INIT is past its start and stays in its phase (42_device.md rule R211). -/
theorem init_fails {u : State} (ha : active u = true) (hu : Machine.Inv u) (hruns : RunsOrStarts .init u)
    (herr : (microStep u).regs.errCode ≠ 0) :
    ∃ todo, u.seq = .run .init todo ∧ InitRuns todo (microStep u) ∧ 3 ≤ u.stat.initPhase.toNat ∧
      (microStep u).stat.initPhase = u.stat.initPhase := by
  obtain ⟨op, todo, hq, hstep⟩ := microStep_outcome ha
  obtain rfl := hruns op todo hq
  have hclear := (runData_of_inv hu (by simp [hq])).errClear.1
  refine ⟨todo, hq, ?_⟩
  rcases hstep with ⟨-, h⟩ | ⟨m, rest, rfl, c, -, ⟨hm, e, h⟩ | ⟨todo', -, h⟩⟩ <;> rw [h] at herr ⊢
  · exact absurd hclear herr
  · rcases hu.initRuns _ hq with hend | hstart | hr
    · cases hend
    · injection hstart with hstart
      subst hstart
      cases hm
    · exact ⟨⟨hr.unset, hr.phase, hr.enters, hr.fails⟩, hr.fails (by simp [hm]), rfl⟩
  · exact absurd ((errCode_effect m (c.apply u)).trans hclear) herr

/-- What a failed INIT leaves of its bookkeeping: INFO_VALID 0 and INIT_PHASE one of the phases that can fail. -/
def FailedInit (s : State) : Prop :=
  s.stat.infoValid = false ∧ 3 ≤ s.stat.initPhase.toNat ∧ s.stat.initPhase.toNat ≤ 6

theorem failedInit_microStep {u : State} (ha : active u = true) (hu : Machine.Inv u) (hruns : RunsOrStarts .init u)
    (herr : (microStep u).regs.errCode ≠ 0) : FailedInit (microStep u) := by
  obtain ⟨todo, -, hr, hphase, hsame⟩ := init_fails ha hu hruns herr
  exact ⟨hr.unset, by rw [hsame]; exact hphase, by rw [hr.phase]; exact phaseOf_le todo⟩

theorem failedInit_engineRun (n : Nat) {s : State} {todo : List Micro} (hq : s.seq = .run .init todo)
    (hinv : Machine.Inv s) (herr : (engineRun n s).regs.errCode ≠ 0) : FailedInit (engineRun n s) := by
  have hclear := (runData_of_inv hinv (by simp [hq])).errClear.1
  exact (engineRun_induct (P := fun u => Machine.Inv u ∧ RunsOrStarts .init u ∧ (u.regs.errCode ≠ 0 → FailedInit u))
    (fun u ha ⟨hu, hr, _⟩ => ⟨inv_microStep u ha hu, runsOrStarts_microStep ha hr, failedInit_microStep ha hu hr⟩)
    n ⟨hinv, runsOrStarts_of_seq hq, fun hne => absurd hclear hne⟩).2.2 herr

/-- A single micro-step of INIT that fails leaves INIT_PHASE at the phase it was in. -/
theorem failedInit_phase {s : State} {todo : List Micro} (hq : s.seq = .run .init todo) (hinv : Machine.Inv s)
    (herr : (engineRun 1 s).regs.errCode ≠ 0) :
    (engineRun 1 s).stat.initPhase = s.stat.initPhase ∧ s.stat.initPhase = phaseOf todo := by
  have hclear := (runData_of_inv hinv (by simp [hq])).errClear.1
  cases ha : active s with
  | false => exact absurd hclear (by rwa [engineRun_of_inactive ha] at herr)
  | true =>
    have hrun : engineRun 1 s = microStep s := by simp [engineRun, ha]
    rw [hrun] at herr ⊢
    obtain ⟨todo', hq', hr, -, hsame⟩ := init_fails ha hinv (runsOrStarts_of_seq hq) herr
    rw [hq] at hq'
    injection hq' with _ htodo
    exact ⟨hsame, by rw [← hsame, hr.phase, htodo]⟩

/-- Settles O57: the results by the order of the micro-steps, INIT's bookkeeping by the invariant. -/
theorem failedOperationsWriteNothing : Obligations.FailedOperationsWriteNothing := by
  intro i s t hlast herr h
  obtain ⟨hlast', hresults, hend⟩ := lateWrites_exec hlast herr h
  refine ⟨hlast', fun hc => ?_, fun hne => ?_, fun todo hi hq hinv hne => ?_⟩
  · simpa only [results, Prod.mk.injEq] using hresults hc
  · obtain ⟨hspeed, hbusy, hdone, hidle⟩ := hend hne
    exact ⟨hspeed, hbusy, hdone, hidle⟩
  · subst hi
    rw [exec_running hq rfl] at h
    injection h with h
    subst h
    obtain ⟨hunset, hge, hle⟩ := failedInit_engineRun _ hq hinv hne
    refine ⟨hunset, hge, hle, fun hburst => ?_⟩
    rw [hburst] at hne ⊢
    exact failedInit_phase hq hinv hne

end Sys2Proof.Proofs
end

section
/-! PROOFS. The host's view of STATUS and VER_LEN, of CTRL and of its stops (10_state.md rules R21 to R23, R46, 20_memory.md
rule R84). -/

namespace Sys2Proof.Proofs

open Sys2Proof.Machine

/-! ### STATUS and VER_LEN -/

/-- The value of a word written as two fields. -/
theorem toNat_append_eq {m n : Nat} (x : BitVec m) (y : BitVec n) : (x ++ y).toNat = x.toNat * 2 ^ n + y.toNat := by
  rw [BitVec.toNat_append, ← Nat.shiftLeft_add_eq_or_of_lt y.isLt, Nat.shiftLeft_eq]

/-- VER_LEN holds FW_LEN in its low byte and LUT_LEN in the next (R21, R39). -/
theorem verLenWord_toNat (i : InfoFile) : (verLenWord i).toNat = i.lutLen.toNat * 256 + i.fwLen.toNat := by
  simp only [verLenWord, toNat_append_eq, BitVec.ofNat_eq_ofNat, BitVec.toNat_ofNat]
  omega

/-- The bits of STATUS from the twelfth on are 0 (R23). -/
theorem statusWord_lt (s : State) : (statusWord s).toNat < 2 ^ 12 := by
  have hphase := s.stat.initPhase.isLt
  have hbit : ∀ b, (BitVec.ofBool b).toNat ≤ 1 := fun b => Nat.le_of_lt_succ (BitVec.ofBool b).isLt
  have h7 := hbit s.stat.hrdyLast
  have h6 := hbit s.stat.resetN
  have h5 := hbit s.stat.csN
  have h4 := hbit (busFast s)
  have h3 := hbit s.stat.collide
  have h2 := hbit s.stat.infoValid
  have h1 := hbit s.stat.done
  have h0 := hbit s.stat.busy
  simp only [statusWord, toNat_append_eq, BitVec.ofNat_eq_ofNat, BitVec.toNat_ofNat]
  omega

theorem getLsbD_snoc_zero {n : Nat} (x : BitVec n) (b : Bool) : (x ++ BitVec.ofBool b).getLsbD 0 = b := by
  rw [BitVec.getLsbD_append, if_pos Nat.zero_lt_one]
  cases b <;> rfl

theorem getLsbD_snoc_succ {n : Nat} (x : BitVec n) (b : Bool) (k : Nat) :
    (x ++ BitVec.ofBool b).getLsbD (k + 1) = x.getLsbD k := by
  rw [BitVec.getLsbD_append, if_neg (by omega), Nat.add_sub_cancel]

theorem extractLsb'_snoc_succ {n : Nat} (x : BitVec n) (b : Bool) (k l : Nat) :
    (x ++ BitVec.ofBool b).extractLsb' (k + 1) l = x.extractLsb' k l := by
  apply BitVec.eq_of_getLsbD_eq
  intro j hj
  rw [BitVec.getLsbD_extractLsb', BitVec.getLsbD_extractLsb', Nat.add_right_comm, getLsbD_snoc_succ]

/-- INIT_PHASE stands in bits 11 to 8 of STATUS (R23). -/
theorem statusWord_initPhase (s : State) : (statusWord s).extractLsb' 8 4 = s.stat.initPhase := by
  simp only [statusWord, extractLsb'_snoc_succ]
  exact BitVec.extractLsb'_append_eq_right

/-- Settles O13, bit by bit. -/
theorem statusBitPositions : Obligations.StatusBitPositions := by
  intro s
  have hfast : busFast s = decide (s.speed = .data) := by cases h : s.speed <;> simp [busFast, h]
  refine ⟨?_, ?_, ?_, ?_, ?_, ?_, ?_, ?_, statusWord_initPhase s, statusWord_lt s, verLenWord_toNat s.info⟩
  all_goals simp only [statusWord, hfast, getLsbD_snoc_succ, getLsbD_snoc_zero]

/-! ### CTRL -/

/-- Settles O16: the three outcomes of `writeCtrl`, and the access that brings the write. -/
theorem goIsAcceptedOrRejected : Obligations.GoIsAcceptedOrRejected := by
  intro s v
  refine ⟨fun hgo => ?_, fun hgo hbusy => ?_, fun hgo hbusy => ?_, rfl, fun a ha hstore hdata => ?_⟩
  · simp only [writeReg, writeCtrl, hgo, Bool.false_eq_true, if_false]
  · simp only [writeReg, writeCtrl, hgo, hbusy, if_true]
  · simp only [writeReg, writeCtrl, hgo, hbusy, if_true]
    rfl
  · rw [← hdata]
    exact hostTurn_store_register ha (by simp [inWindow]) hstore

/-! ### Stops of the host -/

theorem hostLoad_info {s : State} {off : Nat} (hlo : 0x060 ≤ off) (hhi : off < 0x090) :
    hostLoad off s =
      if s.stat.infoValid then .next { s with hostData := readReg s off } else .fault (.deviceInfoUnset off) := by
  have hwindow : inWindow s off = false := by simp [inWindow]; omega
  have hinfo : isInfoOffset off = true := by simp [isInfoOffset]; omega
  cases hvalid : s.stat.infoValid <;> simp [hostLoad, hwindow, hinfo, hvalid]

theorem answersNext_hostLoad (s : State) {off : Nat} (h : off < 0x060 ∨ 0x090 ≤ off) : answersNext (hostLoad off s) := by
  have hinfo : isInfoOffset off = false := by
    simp only [isInfoOffset, Bool.and_eq_false_iff, decide_eq_false_iff_not]
    omega
  unfold hostLoad
  split
  · exact ⟨_, rfl⟩
  · rw [hinfo]
    exact ⟨_, rfl⟩

theorem answersNext_hostStore (s : State) (off : Nat) (v : Word32) : answersNext (hostStore off v s) := by
  unfold hostStore
  split <;> exact ⟨_, rfl⟩

/-- Settles O19: the refusal of R84, the fault of R46, and the accesses that do not stop. -/
theorem hostStops : Obligations.HostStops := by
  intro s a
  refine ⟨fun h => ?_, fun off hlo hhi hvalid => ?_, fun off hlo hhi hvalid => ?_,
    fun off h => answersNext_hostLoad s h, answersNext_hostStore s, fun off ha => ⟨hostTurn_reaches ha, fun h => ?_⟩⟩
  · rw [hostTurn, if_neg (by omega)]
  · rw [hostLoad_info hlo hhi, hvalid]
    rfl
  · rw [hostLoad_info hlo hhi, hvalid]
    rfl
  · rw [hostTurn_reaches ha]
    split
    · exact answersNext_hostStore s off a.data
    · by_cases hin : off < 0x060 ∨ 0x090 ≤ off
      · exact answersNext_hostLoad s hin
      · have hvalid : s.stat.infoValid = true := by
          rcases h with hstore | hlo | hhi | hvalid
          · contradiction
          · exact absurd (.inl hlo) hin
          · exact absurd (.inr hhi) hin
          · exact hvalid
        rw [hostLoad_info (by omega) (by omega), hvalid]
        exact ⟨_, rfl⟩

end Sys2Proof.Proofs
end

section
/-! PROOFS. Whose turn a step is (10_state.md rules R43, R44, 70_reset_and_hazards.md rule R328), and which instruction the
Engine's turn runs (10_state.md rule R34, 30_encoding.md rule R105). -/

namespace Sys2Proof.Proofs

open Sys2Proof.Machine

/-! ### Whose step it is -/

/-- With an empty agenda the schedule's turn is taken. -/
theorem step_scheduled {s : State} (hp : paramsOk s.params = true) (ha : s.agenda = []) :
    step s = takeTurn (scheduled s) s := by
  simp only [step, turn, hp, ha, if_true]

/-- Else the agenda's next turn. -/
theorem step_agenda {s : State} {w : Turn} {rest : List Turn} (hp : paramsOk s.params = true) (ha : s.agenda = w :: rest) :
    step s = takeTurn w { s with agenda := rest } := by
  simp only [step, turn, hp, ha, if_true]

/-- Settles O21: the Clock's turn, the schedule's, and the end of a run. -/
theorem clockTicks : Obligations.ClockTicks := by
  intro s hp
  refine ⟨fun rest ha => step_agenda hp ha, fun ha hheld => step_held hp ha hheld, fun ha hq => step_host hp ha hq,
    fun rest ha => step_agenda hp ha, fun hend ha hbusy => ?_, fun hgoing => ?_⟩
  · refine ⟨?_, by rw [endState, if_pos hend]⟩
    simp only [runEnded, Bool.and_eq_true, List.isEmpty_iff, Bool.not_eq_true'] at hend
    obtain ⟨⟨hprog, -⟩, hidle⟩ := hend
    rw [step_host hp ha (by simpa [hidle] using hbusy), hostStep, hprog]
  · have hrun : runEnded s = false := by
      rcases hgoing with hbusy | hprog <;> simp [runEnded, *]
    simp [endState, hrun]

/-! ### Illegal operation words -/

/-- The constraint of a format on operand values (30_encoding.md rule R102). -/
def valueOk (f : Format) (w : Word32) : Bool :=
  match f with
  | .M | .AM => decide ((immField w).toNat ≤ 4)
  | .AF => [2, 3, 4, 8].contains (fmtField w).toNat
  | _ => true

theorem hi8_eq_zero (v : Word16) : (hi8 v == 0) = decide (v.toNat < 256) := by
  rw [Bool.eq_iff_iff, beq_iff_eq, decide_eq_true_iff, ← BitVec.toNat_inj, hi8, BitVec.extractLsb'_toNat,
    Nat.shiftRight_eq_div_pow]
  have := v.isLt
  show v.toNat / 2 ^ 8 % 2 ^ 8 = 0 ↔ v.toNat < 256
  omega

/-- The constraint column of R102 is the bits the table fixes and the constraint on values. -/
theorem formatOk_eq (f : Format) (w : Word32) : formatOk f w = (fixedBitsOk f w && valueOk f w) := by
  cases f <;> simp only [formatOk, fixedBitsOk, valueOk, hi8_eq_zero, Bool.and_true, Bool.and_assoc]
  rw [Bool.and_comm (immField w == 0)]

theorem displayModeOf_isSome (m : Word16) : (displayModeOf m).isSome = decide (m.toNat ≤ 4) := by
  have hval : ∀ k : Word16, m = k ↔ m.toNat = k.toNat := fun k => BitVec.toNat_inj.symm
  rw [Bool.eq_iff_iff, decide_eq_true_iff]
  simp only [displayModeOf, hval]
  split_ifs <;> simp_all
  omega

theorem pixelFormatOf_isSome (fmt : BitVec 4) : (pixelFormatOf fmt).isSome = [2, 3, 4, 8].contains fmt.toNat := by
  revert fmt
  decide

/-- The checks of R105 on an operand's value, in their order. -/
def illegalValue (f : Format) (w : Word32) : Option Nat :=
  if valueOk f w = false then some 2
  else if (opField w = 0x01 ∨ opField w = 0x07) ∧ decodeCmd (immField w) = none then some 3
  else if (opField w = 0x02 ∨ opField w = 0x08) ∧ decodeUcmd (immField w) = none then some 3
  else none

/-- The operations and the formats are defined on the same codes (R104). -/
theorem formatOfOp_isSome (w : Word32) : (formatOfOp (opField w)).isSome = (operationOf w).isSome := by
  unfold formatOfOp
  fun_cases operationOf w
  case case24 =>
    split
    case h_24 => rfl
    all_goals contradiction
  all_goals simp only [*, Option.isSome_some]

/-- The illegal values of an operand are those R105 names. -/
theorem operandDefect_of_operationOf {w : Word32} {i : Instr} {f : Format} (hf : formatOfOp (opField w) = some f)
    (hi : operationOf w = some i) : operandDefect i = illegalValue f w := by
  unfold operationOf at hi
  unfold formatOfOp at hf
  split at hi
  case h_24 => cases hi
  all_goals
    rename_i hop
    rw [hop] at hf
    injection hf with hf
    injection hi with hi
    subst hf hi
    simp only [operandDefect, illegalValue, valueOk, ← BitVec.toNat_inj, hop, displayModeOf_isSome,
      pixelFormatOf_isSome]
  case h_1 | h_7 => cases decodeCmd (immField w) <;> rfl
  case h_2 | h_8 => cases decodeUcmd (immField w) <;> rfl
  case h_21 | h_22 => cases decide ((immField w).toNat ≤ 4) <;> rfl
  case h_23 => cases [2, 3, 4, 8].contains (fmtField w).toNat <;> rfl
  all_goals rfl

/-- The reason of an illegal word is the decoder's, or that of the operand it decodes to (30_encoding.md rule R105). -/
theorem illegalReasonOf_eq (w : Word32) :
    illegalReasonOf w =
      match decodeOpw w with
      | .error e => some (illegalReason e)
      | .ok i => operandDefect i := by
  have hsome := formatOfOp_isSome w
  unfold illegalReasonOf decodeOpw
  cases hf : formatOfOp (opField w) with
  | none => rfl
  | some f =>
    cases hi : operationOf w with
    | none => simp [hf, hi] at hsome
    | some i =>
      simp only [formatOk_eq]
      cases fixedBitsOk f w with
      | false => rfl
      | true => exact (operandDefect_of_operationOf hf hi).symm

/-! ### The Engine's step -/

/-- At Decode an illegal word ends the operation in this very step (30_encoding.md rule R105). -/
theorem engineStep_illegal {s : State} {r : Nat} (hq : s.seq = .decode) (h : illegalReasonOf s.lat.opw = some r) :
    engineStep s = .next (raise (.illegalOp s.lat.opw r) s) := by
  rw [illegalReasonOf_eq] at h
  simp only [engineStep, hq, decode]
  cases hd : decodeOpw s.lat.opw with
  | error e =>
    rw [hd] at h
    injection h with h
    exact h ▸ rfl
  | ok i =>
    rw [hd] at h
    exact exec_illegal (by simp [AtStart, hq]) h

/-- The Engine's turn, by the agenda or by the schedule. -/
def EngineMoves (s u : State) : Prop :=
  (s.agenda = [] ∧ u = s) ∨ ∃ rest, s.agenda = .engine :: rest ∧ u = { s with agenda := rest }

theorem step_engine {s u : State} (hp : paramsOk s.params = true) (hmoves : EngineMoves s u) (hq : s.seq ≠ .idle)
    (hheld : held s = false) : step s = engineStep u := by
  rcases hmoves with ⟨ha, rfl⟩ | ⟨rest, ha, rfl⟩
  · rw [step_scheduled hp ha, scheduled, if_neg hq, hheld]
    rfl
  · exact step_agenda hp ha

/-- What the Engine fetches does not depend on the agenda. -/
theorem EngineMoves.fetch {s u : State} (h : EngineMoves s u) : u.seq = s.seq ∧ u.lat = s.lat ∧ held u = held s := by
  rcases h with ⟨-, rfl⟩ | ⟨rest, -, rfl⟩ <;> exact ⟨rfl, rfl, rfl⟩

/-- Settles O22, position by position of the sequencer. -/
theorem stepRunsDecoded : Obligations.StepRunsDecoded := by
  intro s u hp (hmoves : EngineMoves s u)
  obtain ⟨hseq, hlat, hheldu⟩ := hmoves.fetch
  have hstep : s.seq ≠ .idle → held s = false → step s = engineStep u := step_engine hp hmoves
  refine ⟨fun i hq hd => ?_, fun r hq hr => ?_, fun i bytes hq hd => ?_, fun op todo hq hheld => ?_⟩
  · rw [hstep (by simp [hq]) (by simp [held, hq]), engineStep, hseq, hq, hlat]
    simp only [hd]
  · rw [hstep (by simp [hq]) (by simp [held, hq]), ← hlat, engineStep_illegal (hseq.trans hq) (hlat ▸ hr)]
  · rw [hstep (by simp [hq]) (by simp [held, hq]), engineStep, hseq, hq]
    simp only [hd]
  · rw [hstep (by simp [hq]) hheld, engineStep, hseq, hq, hheldu, hheld]
    rfl

end Sys2Proof.Proofs
end

section
/-! PROOFS. INIT from its identification on (42_device.md rules R202 to R210): the exchanges of each phase, the VCOM
comparison at their end, and what the commit leaves for the host to read (10_state.md rule R39). -/

namespace Sys2Proof.Proofs

open Sys2Proof.Machine

/-! ### The committed identification -/

theorem readWords_getD {n k : Nat} (rx : List Byte) (h : k < n) :
    (readWords n rx).getD k 0 = word16 (rx.getD (4 + 2 * k) 0) (rx.getD (5 + 2 * k) 0) := by
  simp [readWords, List.getD_eq_getElem?_getD, h]

/-- The sixteen bytes of the version string whose first word is word `first` (20_memory.md rule R81). -/
def versionString (rx : List Byte) (first : Nat) : List Byte :=
  versionBytes ((List.range 8).map fun k => (readWords 20 rx).getD (first + k) 0)

theorem versionString_length (rx : List Byte) (first : Nat) : (versionString rx first).length = 16 := by
  rw [versionString, versionBytes, le16_length, List.length_map, List.length_range]

/-- The bytes of a version string in the response: each word's low byte comes first (20_memory.md rules R79, R81). -/
theorem versionString_getD (rx : List Byte) {first n : Nat} (hfirst : first + 8 ≤ 20) (hn : n < 16) :
    (versionString rx first).getD n 0 = versionByte rx first n := by
  have hword : ((List.range 8).map fun k => (readWords 20 rx).getD (first + k) 0).getD (n / 2) 0 =
      word16 (rx.getD (4 + 2 * (first + n / 2)) 0) (rx.getD (5 + 2 * (first + n / 2)) 0) := by
    rw [← readWords_getD (n := 20) rx (by omega)]
    simp [List.getD_eq_getElem?_getD, show n / 2 < 8 by omega]
  obtain ⟨hlow, hhigh⟩ :=
    le16_getD ((List.range 8).map fun k => (readWords 20 rx).getD (first + k) 0) (n / 2) (by simp; omega)
  rw [hword, lo8_word16] at hlow
  rw [hword, hi8_word16] at hhigh
  unfold versionString versionBytes versionByte
  rcases Nat.mod_two_eq_zero_or_one n with hmod | hmod
  · rw [show n = 2 * (n / 2) by omega, hlow]
    congr 1
    omega
  · rw [show n = 2 * (n / 2) + 1 by omega, hhigh]
    congr 1
    omega

/-- A string of sixteen bytes is cut at its first zero byte. -/
theorem cutsAtZero_firstZero {byte : Nat → Byte} {bs : List Byte} (hlen : bs.length = 16)
    (hbyte : ∀ n, n < 16 → bs.getD n 0 = byte n) : CutsAtZero byte (firstZero bs) := by
  have hle : firstZero bs ≤ 16 := hlen ▸ firstZero_le bs
  refine ⟨hle, fun j hj => ?_, fun h => ?_⟩
  · have hne := List.not_of_lt_findIdx hj
    rw [← hbyte j (by omega), List.getD_eq_getElem _ _ (by omega)]
    simpa using hne
  · have hzero := List.findIdx_getElem (xs := bs) (p := (· == 0)) (w := by rw [hlen]; exact h)
    rw [← hbyte _ h, List.getD_eq_getElem _ _ (by omega)]
    exact beq_iff_eq.1 hzero

/-- Byte `4k+j` of a version string stands in bits `[8j+7:8j]` of register `k` (10_state.md rule R39). -/
theorem packVer_byte (bs : List Byte) (k : Nat) {j : Nat} (hj : j < 4) :
    (packVer bs k).extractLsb' (8 * j) 8 = bs.getD (4 * k + j) 0 := by
  rw [packVer, byte_of_append _ _ _ _ _ hj]
  obtain rfl | rfl | rfl | rfl : j = 0 ∨ j = 1 ∨ j = 2 ∨ j = 3 := by omega
  all_goals rfl

theorem readReg_fwVer (s : State) {k : Nat} {bs : List Byte} (hk : k < 4) (hinfo : s.info = infoOfStaging s.stg)
    (hbs : s.stg.fw = bs) : readReg s (0x070 + 4 * k) = packVer bs k := by
  subst hbs
  obtain rfl | rfl | rfl | rfl : k = 0 ∨ k = 1 ∨ k = 2 ∨ k = 3 := by omega
  all_goals simp [readReg, hinfo, infoOfStaging]

theorem readReg_lutVer (s : State) {k : Nat} {bs : List Byte} (hk : k < 4) (hinfo : s.info = infoOfStaging s.stg)
    (hbs : s.stg.lut = bs) : readReg s (0x080 + 4 * k) = packVer bs k := by
  subst hbs
  obtain rfl | rfl | rfl | rfl : k = 0 ∨ k = 1 ∨ k = 2 ∨ k = 3 := by omega
  all_goals simp [readReg, hinfo, infoOfStaging]

section
variable (rx : List Byte)

theorem parseDevInfo_w : (parseDevInfo (readWords 20 rx)).w = word16 (rx.getD 4 0) (rx.getD 5 0) :=
  readWords_getD (n := 20) (k := 0) rx (by decide)

theorem parseDevInfo_h : (parseDevInfo (readWords 20 rx)).h = word16 (rx.getD 6 0) (rx.getD 7 0) :=
  readWords_getD (n := 20) (k := 1) rx (by decide)

theorem parseDevInfo_addr : (parseDevInfo (readWords 20 rx)).addr =
    word16 (rx.getD 10 0) (rx.getD 11 0) ++ word16 (rx.getD 8 0) (rx.getD 9 0) := by
  have hhigh : (readWords 20 rx).getD 3 0 = word16 (rx.getD 10 0) (rx.getD 11 0) := readWords_getD rx (by decide)
  have hlow : (readWords 20 rx).getD 2 0 = word16 (rx.getD 8 0) (rx.getD 9 0) := readWords_getD rx (by decide)
  rw [parseDevInfo, hhigh, hlow]
end

/-- What the host reads after the commit of identification `rx` (10_state.md rule R39, 42_device.md rules R205, R210). -/
theorem committed_of {rx : List Byte} {s : State} (hstg : s.stg = parseDevInfo (readWords 20 rx))
    (hinfo : s.info = infoOfStaging s.stg) (hphase : s.stat.initPhase = 7) (hvalid : s.stat.infoValid = true) :
    Committed rx s where
  panelW := by
    show s.info.panelW.setWidth 32 = _
    rw [hinfo, hstg, ← parseDevInfo_w]
    rfl
  panelH := by
    show s.info.panelH.setWidth 32 = _
    rw [hinfo, hstg, ← parseDevInfo_h]
    rfl
  address := by
    show s.info.imgBufAddr = _
    rw [hinfo, hstg, ← parseDevInfo_addr]
    rfl
  lengths := by
    have hcut : ∀ first, first + 8 ≤ 20 →
        CutsAtZero (versionByte rx first) (firstZero (versionString rx first)) := fun first hfirst =>
      cutsAtZero_firstZero (versionString_length rx first) fun n hn => versionString_getD rx hfirst hn
    refine ⟨_, _, hcut 4 (by omega), hcut 12 (by omega), ?_⟩
    show (verLenWord s.info).toNat = _
    have hfit : ∀ {k : Nat}, k ≤ 16 → (BitVec.ofNat 5 k).toNat = k := fun hk => by
      rw [BitVec.toNat_ofNat, Nat.mod_eq_of_lt (by omega)]
    rw [verLenWord_toNat, hinfo, hstg]
    exact congrArg₂ (fun lut fw => lut * 256 + fw) (hfit (hcut 12 (by omega)).1) (hfit (hcut 4 (by omega)).1)
  firmware k j hk hj := by
    rw [readReg_fwVer s hk hinfo (bs := versionString rx 4) (by rw [hstg]; rfl), packVer_byte _ _ hj,
      versionString_getD rx (by omega) (by omega)]
  lut k j hk hj := by
    rw [readReg_lutVer s hk hinfo (bs := versionString rx 12) (by rw [hstg]; rfl), packVer_byte _ _ hj,
      versionString_getD rx (by omega) (by omega)]
  phase := hphase
  valid := hvalid

/-! ### The phases -/

/-- The marks INIT leaves beside its exchanges: the words read, the staging copy and INIT_PHASE. -/
def withMarks (ws : List Word16) (t : Staging) (ph : BitVec 4) (s : State) : State :=
  { s with words := ws, stg := t, stat := { s.stat with initPhase := ph } }

/-- The marks do not reach the exchanges after them. -/
theorem afterExchanges_withMarks (ws : List Word16) (t : Staging) (ph : BitVec 4) (s : State) (as : List Answer) :
    afterExchanges (withMarks ws t ph s) as = withMarks ws t ph (afterExchanges s as) := by
  induction as generalizing s with
  | nil => rfl
  | cons a as ih => exact ih (afterExchange s a)

/-- A phase of INIT, its micro-steps up to `tail` run. -/
theorem engineRun_phase (n : Nat) {k : Nat} {p : InitPhase} {ms tail : List Micro} {s u : State}
    (hbody : phaseBody s p = ms ++ tail) (h : Runs k .init ms (enterPhase p s) u) :
    engineRun (n + (k + 1)) (goOn .init [.enterPhase p] s) = engineRun n (goOn .init tail u) := by
  rw [← Nat.add_assoc, engineRun_step _ _ _ _ _ (by simp), ← h n tail, ← hbody]
  show engineRun (n + k) (goOn .init (phaseBody s p ++ []) (enterPhase p s)) = _
  rw [List.append_nil]

section
variable (n : Nat) {ws : List Word16} {t : Staging} {ph : BitVec 4} {s : State}

/-- Phase 3: the identification is read and parsed (42_device.md rules R204, R205). -/
theorem engineRun_identify {r1 r2 : List Byte} (hs : s.speed = .cmd) (ha : Answered s [r1, r2]) (hl : 44 ≤ r2.length) :
    engineRun (n + 6) (goOn .init [.enterPhase .identify] s) =
      engineRun n (goOn .init [.enterPhase .address]
        (withMarks (readWords 20 r2) (parseDevInfo (readWords 20 r2)) 3
          (afterExchanges s (atCmd [cmdFrame 0x0302, readFrame 20] [r1, r2])))) := by
  have ha : Answered (enterPhase .identify s) [r1, r2] := ha
  have hquery := runs_sendCmd .init (encodeUcmd .getDevInfo) (enterPhase .identify s) r1 hs ha.first
  have hread := runs_readData .init idWords (afterExchange (enterPhase .identify s) ⟨.cmd, cmdFrame 0x0302, r1⟩) r2 hs
    (ha.rest _) hl
  have hparse := (hquery.append hread).append (.one (m := .parseDevInfo) (by simp) fun _ => rfl)
  exact engineRun_phase n (p := .identify) rfl hparse

/-- Phase 4: the image-buffer address is programmed (R207). -/
theorem engineRun_address {r1 r2 r3 r4 r5 r6 : List Byte} (hs : s.speed = .cmd)
    (ha : Answered s [r1, r2, r3, r4, r5, r6]) :
    engineRun (n + 13) (goOn .init [.enterPhase .address] (withMarks ws t ph s)) =
      engineRun n (goOn .init [.enterPhase .packed]
        (withMarks ws t 4 (afterExchanges s (atCmd (addrFrames t.addr) [r1, r2, r3, r4, r5, r6])))) := by
  have hrun := runs_writeImgBufAddr .init t.addr (withMarks ws t 4 s) r1 r2 r3 r4 r5 r6 hs ha
  rw [afterExchanges_withMarks] at hrun
  exact engineRun_phase n (p := .address) rfl hrun

/-- Phase 5: packed mode is set (R208). -/
theorem engineRun_packed {r1 r2 r3 : List Byte} (hs : s.speed = .cmd) (ha : Answered s [r1, r2, r3]) :
    engineRun (n + 7) (goOn .init [.enterPhase .packed] (withMarks ws t ph s)) =
      engineRun n (goOn .init [.enterPhase .vcom]
        (withMarks ws t 5 (afterExchanges s (atCmd (regWriteFrames 0x0004 s.params.i80cpcrPacked) [r1, r2, r3])))) := by
  have hrun := runs_regWrite .init regI80cpcr s.params.i80cpcrPacked (withMarks ws t 5 s) r1 r2 r3 hs ha
  rw [afterExchanges_withMarks] at hrun
  exact engineRun_phase n (p := .packed) rfl hrun

/-- Phase 6, up to the comparison: VCOM is read (R209). -/
theorem engineRun_vcom {r1 r2 r3 : List Byte} (hs : s.speed = .cmd) (ha : Answered s [r1, r2, r3])
    (hl : 6 ≤ r3.length) :
    engineRun (n + 7) (goOn .init [.enterPhase .vcom] (withMarks ws t ph s)) =
      engineRun n (goOn .init [.vcomSync, .commit]
        (withMarks (readWords 1 r3) t 6 (afterExchanges s (atCmd vcomReadFrames [r1, r2, r3])))) := by
  have hrun := runs_vcomRead .init (withMarks ws t 6 s) r1 r2 r3 hs ha hl
  rw [afterExchanges_withMarks] at hrun
  exact engineRun_phase n (p := .vcom) rfl hrun
end

/-- The state at the comparison of phase 6, the fourteen exchanges done. -/
def atVcomSync (s : State) (rs : List (List Byte)) : State :=
  { afterInitExchanges s rs with stat := { (afterInitExchanges s rs).stat with initPhase := 6 } }

theorem atVcomSync_eq (s : State) (rs : List (List Byte)) :
    atVcomSync s rs =
      withMarks (readWords 1 (rs.getD 13 [])) (parseDevInfo (readWords 20 (rs.getD 1 []))) 6
        (afterExchanges s
          (atCmd (initFrames (parseDevInfo (readWords 20 (rs.getD 1 []))).addr s.params.i80cpcrPacked) rs)) :=
  rfl

theorem exists_fourteen {rs : List (List Byte)} (h : rs.length = 14) :
    ∃ r1 r2 r3 r4 r5 r6 r7 r8 r9 r10 r11 r12 r13 r14,
      rs = [r1, r2] ++ ([r3, r4, r5, r6, r7, r8] ++ ([r9, r10, r11] ++ [r12, r13, r14])) := by
  match rs, h with
  | [r1, r2, r3, r4, r5, r6, r7, r8, r9, r10, r11, r12, r13, r14], _ =>
    exact ⟨r1, r2, r3, r4, r5, r6, r7, r8, r9, r10, r11, r12, r13, r14, rfl⟩

/-- The four phases with exchanges, one after the other. -/
theorem engineRun_initPhases (n : Nat) {s : State} {rs : List (List Byte)} (hs : s.speed = .cmd) (hlen : rs.length = 14)
    (ha : Answered s rs) (hid : 44 ≤ (rs.getD 1 []).length) (hvcom : 6 ≤ (rs.getD 13 []).length) :
    engineRun (n + 33) (goOn .init [.enterPhase .identify] s) =
      engineRun n (goOn .init [.vcomSync, .commit] (atVcomSync s rs)) := by
  obtain ⟨r1, r2, r3, r4, r5, r6, r7, r8, r9, r10, r11, r12, r13, r14, rfl⟩ := exists_fourteen hlen
  have hid : 44 ≤ r2.length := hid
  have hvcom : 6 ≤ r14.length := hvcom
  have hspeed : ∀ as, (afterExchanges s as).speed = .cmd := fun as => (afterExchanges_speed s as).trans hs
  have ha2 := ha.after (atCmd [cmdFrame 0x0302, readFrame 20] [r1, r2])
  have ha3 := ha2.after (atCmd (addrFrames (parseDevInfo (readWords 20 r2)).addr) [r3, r4, r5, r6, r7, r8])
  have ha4 := ha3.after (atCmd (regWriteFrames 0x0004 s.params.i80cpcrPacked) [r9, r10, r11])
  simp only [← afterExchanges_append] at ha3 ha4
  rw [show n + 33 = n + 7 + 7 + 13 + 6 by omega, engineRun_identify _ hs (ha.take 2) hid,
    engineRun_address _ (hspeed _) (ha2.take 6), ← afterExchanges_append,
    engineRun_packed _ (hspeed _) (ha3.take 3), afterExchanges_params, ← afterExchanges_append,
    engineRun_vcom _ (hspeed _) ha4 hvcom, ← afterExchanges_append]
  rw [atVcomSync_eq]
  exact congrArg
    (fun as => engineRun n (goOn .init [.vcomSync, .commit]
      (withMarks (readWords 1 r14) (parseDevInfo (readWords 20 r2)) 6 (afterExchanges s as)))) rfl

/-! ### The comparison and the commit -/

theorem vcomSync_equal (op : Instr) (rest : List Micro) {s : State} (h : readWord s = s.lat.vcfg) :
    vcomSync op rest s = goOn op rest s := by
  rw [vcomSync, if_pos h]

theorem vcomSync_illegal (op : Instr) (rest : List Micro) {s : State} (h : readWord s ≠ s.lat.vcfg)
    (hv : vcomMax < s.lat.vcfg.toNat) : vcomSync op rest s = raise (.invalidVcom s.lat.vcfg) s := by
  rw [vcomSync, if_neg h, if_pos hv]

theorem vcomSync_legal (op : Instr) (rest : List Micro) {s : State} (h : readWord s ≠ s.lat.vcfg)
    (hv : s.lat.vcfg.toNat ≤ vcomMax) :
    vcomSync op rest s = goOn op (vcomWrite s.lat.vcfg ++ .setVcomCfg s.lat.vcfg :: rest) s := by
  rw [vcomSync, if_neg h, if_neg (Nat.not_lt.2 hv)]

/-- The commit is the last micro-step of INIT (42_device.md rule R210). -/
theorem engineRun_commit (n : Nat) (op : Instr) (s : State) :
    engineRun (n + 2) (goOn op [.commit] s) = succeed (commitInfo s) := by
  rw [engineRun_step (n + 1) op .commit [] s (by simp)]
  exact engineRun_done n op (commitInfo s)

section
variable (n : Nat) {s : State}

theorem engineRun_vcomSync_equal (h : readWord s = s.lat.vcfg) :
    engineRun (n + 3) (goOn .init [.vcomSync, .commit] s) = succeed (commitInfo s) := by
  rw [engineRun_step (n + 2) _ .vcomSync _ s (by simp), runMicro, vcomSync_equal _ _ h, engineRun_commit]

theorem engineRun_vcomSync_illegal (h : readWord s ≠ s.lat.vcfg) (hv : vcomMax < s.lat.vcfg.toNat) :
    engineRun (n + 1) (goOn .init [.vcomSync, .commit] s) = raise (.invalidVcom s.lat.vcfg) s := by
  rw [engineRun_step n _ .vcomSync _ s (by simp), runMicro, vcomSync_illegal _ _ h hv, engineRun_raise]

theorem engineRun_vcomSync_legal {r1 r2 r3 : List Byte} (hs : s.speed = .cmd) (ha : Answered s [r1, r2, r3])
    (h : readWord s ≠ s.lat.vcfg) (hv : s.lat.vcfg.toNat ≤ vcomMax) :
    engineRun (n + 10) (goOn .init [.vcomSync, .commit] s) =
      succeed (commitInfo
        (effect (.setVcomCfg s.lat.vcfg) (afterExchanges s (atCmd (vcomWriteFrames s.lat.vcfg) [r1, r2, r3])))) := by
  rw [engineRun_step (n + 9) _ .vcomSync _ s (by simp), runMicro, vcomSync_legal _ _ h hv,
    runs_vcomWrite .init s.lat.vcfg s r1 r2 r3 hs ha (n + 3), engineRun_step (n + 2) _ (.setVcomCfg _) _ _ (by simp)]
  exact engineRun_commit n .init _
end

/-- The commit writes INIT_PHASE anew, whatever it was at the exchanges before. -/
theorem commit_phase (v : Word16) (ph : BitVec 4) (s : State) (as : List Answer) :
    commitInfo (effect (.setVcomCfg v) (afterExchanges { s with stat := { s.stat with initPhase := ph } } as)) =
      commitInfo
        { afterExchanges s as with regs := { (afterExchanges s as).regs with vcomCfg := v } } := by
  induction as generalizing s with
  | nil => rfl
  | cons a as ih => exact ih (afterExchange s a)

/-! ### The obligations -/

theorem atVcomSync_lat (s : State) (rs : List (List Byte)) : (atVcomSync s rs).lat = s.lat :=
  (afterExchanges_frame s _).2.2.1

theorem afterInitExchanges_xbuf (s : State) (rs : List (List Byte)) : (afterInitExchanges s rs).xbuf = s.xbuf :=
  (afterExchanges_frame s _).1

theorem atVcomSync_speed (s : State) (rs : List (List Byte)) : (atVcomSync s rs).speed = s.speed :=
  afterExchanges_speed s _

/-- Exchanges write no result. -/
theorem afterInitExchanges_regs (s : State) (rs : List (List Byte)) :
    (afterInitExchanges s rs).regs = { s.regs with xcount := (afterInitExchanges s rs).regs.xcount } := by
  obtain ⟨-, -, -, -, -, -, -, -, hregs⟩ := afterExchanges_frame s
    (atCmd (initFrames (parseDevInfo (readWords 20 (rs.getD 1 []))).addr s.params.i80cpcrPacked) rs)
  exact hregs

/-- INIT from the end of the settle delay comes to the comparison of phase 6. -/
theorem exec_init_settled {s : State} {rs : List (List Byte)} (hq : s.seq = .run .init [.hold 100, .enterPhase .identify])
    (hdelay : 100 ≤ s.now - s.tDelay) (hs : s.speed = .cmd) (hburst : 64 ≤ s.burst) (hlen : rs.length = 14)
    (ha : Answered s rs) (hid : 44 ≤ (rs.getD 1 []).length) (hvcom : 6 ≤ (rs.getD 13 []).length) :
    ∃ n, exec .init s = .next (engineRun (n + 10) (goOn .init [.vcomSync, .commit] (atVcomSync s rs))) := by
  obtain ⟨n, hn⟩ := Nat.exists_eq_add_of_le' hburst
  have hpassed := engineRun_hold_passed s.burst .init 100 [.enterPhase .identify] s hdelay
  rw [goOn_of_seq hq, hn, show n + 64 = n + 21 + 10 + 33 by omega,
    engineRun_initPhases (n + 21 + 10) hs hlen ha hid hvcom] at hpassed
  refine ⟨n + 21, ?_⟩
  rw [exec_running hq rfl, ← hpassed, hn]

theorem readWord_atVcomSync (s : State) (rs : List (List Byte)) :
    readWord (atVcomSync s rs) = wordOf (rs.getD 13 []) := rfl

/-- The answers after the fourteen exchanges are left at the comparison. -/
theorem answered_atVcomSync {s : State} {rs rs' : List (List Byte)} (hlen : rs.length = 14)
    (ha : Answered s (rs ++ rs')) : Answered (atVcomSync s rs) rs' := by
  have hafter := ha.after
    (atCmd (initFrames (parseDevInfo (readWords 20 (rs.getD 1 []))).addr s.params.i80cpcrPacked) rs)
  have hcount : ∀ addr packed, (atCmd (initFrames addr packed) rs).length = rs.length := fun addr packed => by
    rw [atCmd, List.length_zipWith, hlen]
    rfl
  rw [hcount, List.drop_left] at hafter
  exact hafter.congr rfl rfl rfl rfl

/-- Settles O40: the phases, the comparison that finds no difference, the commit. -/
theorem initCompletes : Obligations.InitCompletes := by
  intro s rs hq hdelay hs hburst hlen ha hid hvcom hequal
  obtain ⟨n, hexec⟩ := exec_init_settled hq hdelay hs hburst hlen ha hid hvcom
  have hlat := atVcomSync_lat s rs
  rw [engineRun_vcomSync_equal (n + 7) (by rw [readWord_atVcomSync, hlat, hequal])] at hexec
  have hvcomCfg : (afterInitExchanges s rs).regs.vcomCfg = s.regs.vcomCfg := by rw [afterInitExchanges_regs]
  have hresult : (afterInitExchanges s rs).regs.result = s.regs.result := by rw [afterInitExchanges_regs]
  exact ⟨_, hexec, rfl, committed_of rfl rfl rfl rfl, hvcomCfg, hresult, afterInitExchanges_xbuf s rs⟩

/-- Settles O41: the phases, and the comparison that finds a difference, with a legal target and with an illegal one. -/
theorem initSynchronizesVcom : Obligations.InitSynchronizesVcom := by
  intro s rs hq hdelay hs hburst hlen ha hid hvcom hdiffers
  obtain ⟨n, hexec⟩ := exec_init_settled hq hdelay hs hburst hlen ha hid hvcom
  have hlat := atVcomSync_lat s rs
  have hne : readWord (atVcomSync s rs) ≠ (atVcomSync s rs).lat.vcfg := by rwa [readWord_atVcomSync, hlat]
  refine ⟨fun r1 r2 r3 hlegal hwrites => ?_, fun hillegal => ?_⟩
  · rw [engineRun_vcomSync_legal n (s := atVcomSync s rs) ((atVcomSync_speed s rs).trans hs)
      (answered_atVcomSync hlen hwrites) hne (by rw [hlat]; exact hlegal), hlat] at hexec
    obtain ⟨-, -, -, -, hstg, -⟩ :=
      afterExchanges_frame (afterInitExchanges s rs) (atCmd (vcomWriteFrames s.lat.vcfg) [r1, r2, r3])
    rw [atVcomSync, commit_phase] at hexec
    exact ⟨_, _, rfl, hexec, rfl, committed_of hstg rfl rfl rfl, rfl⟩
  · rw [engineRun_vcomSync_illegal (n + 9) hne (by rw [hlat]; exact hillegal), hlat] at hexec
    exact ⟨_, rfl, hexec⟩

end Sys2Proof.Proofs
end

section
/-! PROOFS. The words of a bulk write (43_display.md rules R247, R248): the fill and the image by pairs of bytes, with the
last byte alone where their number is odd. -/

namespace Sys2Proof.Proofs

open Sys2Proof.Machine

/-! ### Pairs and a half pair -/

theorem ceilDiv_two (n : Nat) : ceilDiv n 2 = n / 2 + n % 2 := by
  unfold ceilDiv
  omega

/-- Over `n` bytes taken in pairs, the last one alone when `n` is odd. -/
theorem map_range_pairs {α : Type} (f : Nat → α) (n : Nat) :
    (List.range (ceilDiv n 2)).map f = (List.range (n / 2)).map f ++ if n % 2 = 1 then [f (n / 2)] else [] := by
  rw [ceilDiv_two]
  rcases Nat.mod_two_eq_zero_or_one n with h | h
  · simp [h]
  · simp [h, List.range_succ]

/-! ### Fills and images -/

theorem srcWords_fill (s : State) (pc : Nat) (v : Byte) : srcWords s (.fill pc v) = fillWords pc v := by
  have hpair : (List.range (pc / 2)).map (srcWord s (.fill pc v)) = List.replicate (pc / 2) (word16 v v) := by
    refine List.eq_replicate_iff.2 ⟨by simp, fun w hw => ?_⟩
    obtain ⟨i, hi, rfl⟩ := List.mem_map.1 hw
    exact if_pos (List.mem_range.1 hi)
  have hlast : srcWord s (.fill pc v) (pc / 2) = word16 0 v := if_neg (Nat.lt_irrefl _)
  rw [srcWords, srcCount, map_range_pairs, hpair, hlast, fillWords]

theorem srcWords_image (s : State) (b n : Nat) : srcWords s (.image b n) = repack s b n := by
  have hpair : (List.range (n / 2)).map (srcWord s (.image b n)) = (List.range (n / 2)).map (xWord s b) :=
    List.map_congr_left fun i hi => if_pos (by have := List.mem_range.1 hi; omega)
  rw [srcWords, srcCount, map_range_pairs, hpair, repack]
  split
  · have hlast : srcWord s (.image b n) (n / 2) = word16 0 (engineByte s (b + 2 * (n / 2))) := if_neg (by omega)
    rw [hlast, show b + 2 * (n / 2) = b + n - 1 by omega]
  · rfl

/-! ### Words of XBUF without a race -/

theorem xWord_of_no_race {s : State} {b i : Nat} (h0 : raceOthers s (b + 2 * i) = [])
    (h1 : raceOthers s (b + 2 * i + 1) = []) :
    xWord s b i = word16 (xbufByte s (b + 2 * i + 1)) (xbufByte s (b + 2 * i)) := by
  rw [xWord, engineByte_of_no_race h0, engineByte_of_no_race h1]

theorem repack_getLast_odd (s : State) (b : Nat) {n : Nat} (h : n % 2 = 1) :
    (repack s b n).getLast? = some (word16 0 (engineByte s (b + n - 1))) := by
  simp [repack, h]

/-- Settles O8: the words pair by pair, their number from the source's, the bytes where nothing raced. -/
theorem bulkWords : Obligations.BulkWords := by
  intro s pc b n v
  refine ⟨srcWords_fill s pc v, ?_, srcWords_image s b n, ?_, fun hrace => ⟨fun i => ?_, fun hodd => ?_⟩⟩
  · rw [← srcWords_fill s, srcWords_length]
    rfl
  · rw [← srcWords_image, srcWords_length]
    rfl
  · exact xWord_of_no_race (raceOthers_of_nil hrace _) (raceOthers_of_nil hrace _)
  · rw [repack_getLast_odd s b hodd, engineByte_of_no_race (raceOthers_of_nil hrace _)]

end Sys2Proof.Proofs
end

section
/-! PROOFS. XBUF's canonical form over a step of any agent (20_memory.md rule R72): the Engine writes XBUF by its own
stores, the Host by one store of bytes. -/

namespace Sys2Proof.Proofs

open Sys2Proof.Machine

/-! ### The Engine -/

/-- XBUF lists its bytes in rising order, and only bytes that exist. -/
def XbufForm (s : State) : Prop := Memory.wf s.xbuf ∧ Memory.within s.params.xbufBytes s.xbuf

theorem XbufForm.effect {s : State} (h : XbufForm s) (m : Micro) : XbufForm (effect m s) := by
  obtain ⟨hwf, hwithin⟩ := id h
  cases m with
  | storeWords base =>
    rw [effect_storeWords]
    exact ⟨engineStoreBytes_wf base _ hwf, engineStoreBytes_within base _ hwithin⟩
  | _ => exact h

/-- An instruction writes XBUF by the Engine's stores alone. -/
theorem XbufForm.exec {i : Instr} {s t : State} (h : XbufForm s) (hexec : exec i s = .next t) : XbufForm t :=
  exec_keeps (fun _ _ hu => hu) (fun _ _ _ hu => hu)
    (microStep_keeps (fun _ _ hu => hu) (fun _ hu => hu) (fun _ _ _ hu => hu) (fun _ _ _ hu => hu)
      (fun m _ hu => hu.effect m))
    hexec h

theorem XbufForm.engineStep {s t : State} (h : XbufForm s) (hstep : engineStep s = .next t) : XbufForm t := by
  unfold Machine.engineStep at hstep
  split at hstep
  case h_1 =>
    cases hstep
    exact h
  case h_2 =>
    split at hstep
    · exact h.exec hstep
    · cases hstep
      exact h
  case h_3 =>
    split at hstep
    · exact h.exec hstep
    · cases hstep
  case h_4 =>
    split at hstep
    · cases hstep
      exact h
    · exact h.exec hstep

/-! ### The Host -/

/-- All the Host does to XBUF from `s` to `t`: nothing, or one store of bytes. -/
def HostWrites (s t : State) : Prop :=
  t.params = s.params ∧ (t.xbuf = s.xbuf ∨ ∃ a bs, t.xbuf = (hostByteStores s a bs).xbuf)

theorem HostWrites.keepsForm {s t : State} (h : XbufForm s) (hw : HostWrites s t) : XbufForm t := by
  obtain ⟨hwf, hwithin⟩ := h
  obtain ⟨hparams, hx | ⟨a, bs, hx⟩⟩ := hw <;> rw [XbufForm, hparams, hx]
  · exact ⟨hwf, hwithin⟩
  · exact ⟨hostByteStores_wf a bs hwf, hostByteStores_within a bs hwithin⟩

/-- A register write does not reach XBUF. -/
theorem hostWrites_writeReg (off : Nat) (v : Word32) (s : State) : HostWrites s (writeReg off v s) := by
  fun_cases writeReg off v s
  case case1 =>
    unfold writeCtrl
    split
    · split <;> exact ⟨rfl, .inl rfl⟩
    · exact ⟨rfl, .inl rfl⟩
  case case12 =>
    unfold writeVcomCfg
    split <;> exact ⟨rfl, .inl rfl⟩
  all_goals exact ⟨rfl, .inl rfl⟩

/-- Counting a race writes nothing else. -/
theorem countRace_spec (races : Bool) (s : State) : countRace races s = { s with raceNo := (countRace races s).raceNo } := by
  cases races <;> rfl

theorem hostWrites_hostTurn {a : HostAccess} {s t : State} (h : hostTurn a s = .next t) : HostWrites s t := by
  unfold hostTurn at h
  split at h
  · split at h
    · unfold hostStore at h
      split at h <;> injection h with h <;> subst h
      · rw [countRace_spec, hostByteStores_spec]
        exact ⟨rfl, .inr ⟨_, _, rfl⟩⟩
      · exact hostWrites_writeReg _ _ s
    · unfold hostLoad at h
      split at h
      · injection h with h
        rw [← h, countRace_spec]
        exact ⟨rfl, .inl rfl⟩
      · split at h <;> cases h
        exact ⟨rfl, .inl rfl⟩
  · cases h

theorem hostWrites_runHostOp {op : HostOp} {s t : State} (h : runHostOp op s = .next t) : HostWrites s t := by
  cases op with
  | access a => exact hostWrites_hostTurn h
  | merge word off bs => exact hostWrites_hostTurn h
  | waitDone =>
    simp only [runHostOp] at h
    split at h <;> cases h
    have hpoll := hostWrites_hostTurn ‹_›
    split <;> exact hpoll
  | keep word off n =>
    simp only [runHostOp] at h
    split at h <;> cases h
    have hload := hostWrites_hostTurn ‹_›
    exact hload

theorem XbufForm.hostStep {s t : State} (h : XbufForm s) (hstep : hostStep s = .next t) : XbufForm t := by
  unfold Machine.hostStep at hstep
  split at hstep
  · cases hstep
    exact h
  · refine HostWrites.keepsForm (s := { s with hostProg := _ }) ?_ (hostWrites_runHostOp hstep)
    exact h

/-! ### Every agent -/

theorem XbufForm.takeTurn {w : Turn} {s t : State} (h : XbufForm s) (hturn : takeTurn w s = .next t) : XbufForm t := by
  cases w with
  | engine => exact h.engineStep hturn
  | clock => cases hturn; exact h
  | program => exact h.hostStep hturn
  | host a => exact (hostWrites_hostTurn hturn).keepsForm h
  | engineReset => cases hturn; exact ⟨List.Pairwise.nil, nofun⟩

/-- Settles O58, agent by agent. -/
theorem memoryFormKept : Obligations.MemoryFormKept := by
  intro s t hwf hwithin hstep
  unfold step turn at hstep
  split at hstep
  · split at hstep
    · exact XbufForm.takeTurn ⟨hwf, hwithin⟩ hstep
    · refine XbufForm.takeTurn (s := { s with agenda := _ }) ?_ hstep
      exact ⟨hwf, hwithin⟩
  · cases hstep

end Sys2Proof.Proofs
end

section
/-! PROOFS. RD_DATA_BATCH (41_transport.md rule R177): one exchange, then the store of its words, low byte first
(20_memory.md rule R73). -/

namespace Sys2Proof.Proofs

open Sys2Proof.Machine

/-! ### The start -/

/-- A count and a range within the bounds of R171 and R177 start the read. -/
theorem startOf_rdDataBatch {s : State} (hcount : s.lat.len.toNat ≤ rdMaxWords s.params)
    (hrange : 2 * s.lat.len.toNat ≠ 0 → s.lat.bufoff.toNat + 2 * s.lat.len.toNat ≤ s.params.xbufBytes) :
    startOf .rdDataBatch s = .ok (readBatch s) := by
  have hin : ¬ (2 * s.lat.len.toNat ≠ 0 ∧ s.params.xbufBytes < s.lat.bufoff.toNat + 2 * s.lat.len.toNat) :=
    fun ⟨hne, hlt⟩ => absurd (hrange hne) (by omega)
  simp only [startOf, checkReadCount, checkRange, if_neg hin, if_neg (Nat.not_lt.2 hcount)]

/-- A zero count does nothing (R177). -/
theorem exec_rdDataBatch_zero {s : State} (hstart : AtStart s) (hburst : 1 ≤ s.burst) (hlen : s.lat.len.toNat = 0) :
    exec .rdDataBatch s = .next (succeed s) := by
  obtain ⟨n, hn⟩ := Nat.exists_eq_add_of_le' hburst
  rw [exec_start hstart rfl rfl (startOf_rdDataBatch (by omega) (by omega)), readBatch, if_pos hlen, hn, engineRun_done]

/-! ### The read and its store -/

/-- The state after the read of RD_DATA_BATCH: its exchange, and the words of the response in hand. -/
def afterRead (s : State) (rx : List Byte) : State :=
  { afterExchange s ⟨.cmd, readFrame s.lat.len.toNat, rx⟩ with words := readWords s.lat.len.toNat rx }

/-- The bytes the response `rx` brings for `n` words, low byte of each word first. -/
def storedBytes (n : Nat) (rx : List Byte) : List Byte := (readWords n rx).flatMap le16

theorem storedBytes_length (n : Nat) (rx : List Byte) : (storedBytes n rx).length = 2 * n := by
  rw [storedBytes, le16_length, readWords, List.length_map, List.length_range]

theorem storedBytes_getD {n i : Nat} (rx : List Byte) (hi : i < n) :
    (storedBytes n rx).getD (2 * i) 0 = rx.getD (5 + 2 * i) 0 ∧
    (storedBytes n rx).getD (2 * i + 1) 0 = rx.getD (4 + 2 * i) 0 := by
  obtain ⟨hlo, hhi⟩ := le16_getD (readWords n rx) i (by simpa [readWords] using hi)
  rw [storedBytes, hlo, hhi, readWords_getD rx hi, lo8_word16, hi8_word16]
  exact ⟨rfl, rfl⟩

/-- The state after the store of RD_DATA_BATCH, before its success end. -/
def afterStore (s : State) (rx : List Byte) : State :=
  engineStoreBytes (afterRead s rx) s.lat.bufoff.toNat (storedBytes s.lat.len.toNat rx)

theorem exec_rdDataBatch {s : State} {rx : List Byte} (hcount : s.lat.len.toNat ≤ rdMaxWords s.params)
    (hlen : 1 ≤ s.lat.len.toNat) (hrange : s.lat.bufoff.toNat + 2 * s.lat.len.toNat ≤ s.params.xbufBytes)
    (hserved : Served s [rx] 4) (hrx : 4 + 2 * s.lat.len.toNat ≤ rx.length) :
    exec .rdDataBatch s = .next (succeed (afterStore s rx)) := by
  obtain ⟨hstart, hspeed, hburst, ha⟩ := hserved
  have hread := runs_readData .rdDataBatch s.lat.len.toNat s rx hspeed ha hrx
  have hstore : Runs 1 .rdDataBatch [.storeWords s.lat.bufoff.toNat] (afterRead s rx) (afterStore s rx) :=
    Runs.one (by simp) fun _ => rfl
  rw [exec_start hstart rfl rfl (startOf_rdDataBatch hcount fun _ => hrange), readBatch, if_neg (by omega),
    (hread.append hstore).done _ (by omega)]

section
variable {s : State} (rx : List Byte) (hrange : s.lat.bufoff.toNat + 2 * s.lat.len.toNat ≤ s.params.xbufBytes)
include hrange

theorem xbufByte_afterStore_outside {a : Nat}
    (ha : a < s.lat.bufoff.toNat ∨ s.lat.bufoff.toNat + 2 * s.lat.len.toNat ≤ a) :
    xbufByte (afterStore s rx) a = xbufByte s a := by
  have hstored := storedBytes_length s.lat.len.toNat rx
  obtain ⟨hframe, -⟩ := xbufByte_engineStoreBytes (afterRead s rx) s.lat.bufoff.toNat a
    (storedBytes s.lat.len.toNat rx) (by rw [hstored]; exact hrange)
  exact hframe (by omega)

/-- A byte of the range takes the response's value, or keeps its own where the host has raced on it (R93). -/
theorem xbufByte_afterStore {j : Nat} (hj : j < 2 * s.lat.len.toNat) :
    xbufByte (afterStore s rx) (s.lat.bufoff.toNat + j) = (storedBytes s.lat.len.toNat rx).getD j 0 ∨
      raceOthers s (s.lat.bufoff.toNat + j) ≠ [] ∧
        xbufByte (afterStore s rx) (s.lat.bufoff.toNat + j) = xbufByte s (s.lat.bufoff.toNat + j) := by
  have hstored := storedBytes_length s.lat.len.toNat rx
  obtain ⟨-, hbyte⟩ := xbufByte_engineStoreBytes (afterRead s rx) s.lat.bufoff.toNat (s.lat.bufoff.toNat + j)
    (storedBytes s.lat.len.toNat rx) (by rw [hstored]; exact hrange)
  rw [Nat.add_sub_cancel_left] at hbyte
  exact hbyte (by omega) (by omega)
end

/-- Settles O34: with LEN = 0 the success end at once; else the exchange, then each byte of the words it brought. -/
theorem rdDataBatchCompletes : Obligations.RdDataBatchCompletes := by
  intro s rx hcount
  refine ⟨fun hlen hstart hburst => exec_rdDataBatch_zero hstart hburst hlen, fun hlen hrange hserved hrx => ?_⟩
  refine ⟨_, exec_rdDataBatch hcount hlen hrange hserved hrx, fun i hi => ?_, fun a ha => ?_, ?_⟩
  · obtain ⟨hlo, hhi⟩ := storedBytes_getD rx hi
    have hlow := xbufByte_afterStore rx hrange (j := 2 * i) (by omega)
    have hhigh := xbufByte_afterStore rx hrange (j := 2 * i + 1) (by omega)
    rw [hlo] at hlow
    rw [hhi] at hhigh
    refine ⟨hlow, hhigh, fun hrace => ?_⟩
    have hlow := hlow.resolve_right fun h => h.1 (raceOthers_of_nil hrace _)
    have hhigh := hhigh.resolve_right fun h => h.1 (raceOthers_of_nil hrace _)
    rw [xWord_of_no_race rfl rfl, readWords_getD rx hi]
    exact congrArg₂ word16 hhigh hlow
  · exact xbufByte_afterStore_outside rx hrange ha
  · rw [afterStore, engineStoreBytes_spec]
    rfl

end Sys2Proof.Proofs
end

section
/-! PROOFS. The host's XBUF window (20_memory.md rules R72, R87, R88, R93): which bytes are in use, and what a store and a
load do to a word with and without such bytes. -/

namespace Sys2Proof.Proofs

open Sys2Proof.Machine

/-! ### The bytes in use -/

/-- Operation `op` is accepted and has not ended: it runs, or it stands at Decode and is legal. -/
def Accepted (s : State) (op : Instr) : Prop :=
  (∃ todo, s.seq = .run op todo) ∨ s.seq = .decode ∧ decode (.opw s.lat.opw) = .ok op ∧ operandDefect op = none

/-- Operation `op` reads (`use = false`) or writes (`use = true`) the `n` bytes of XBUF at BUFOFF (41_transport.md rule
R171). -/
def UsesBytes (l : Latches) (op : Instr) (use : Bool) (n : Nat) : Prop :=
  use = true ∧ op = .rdDataBatch ∧ n = 2 * l.len.toNat ∨
    use = false ∧ (op = .wrDataBatch ∨ (∃ c, op = .wrCmdArgs c) ∨ (∃ c, op = .wrUcmdArgs c)) ∧ n = 2 * l.len.toNat ∨
    use = false ∧ (∃ fmt, op = .loadImage fmt) ∧ n = l.len.toNat

theorem xbufUse_eq_some {l : Latches} {op : Instr} {use : Bool} {lo hi : Nat} :
    xbufUse l op = some (use, lo, hi) ↔ lo = l.bufoff.toNat ∧ ∃ n, hi = lo + n ∧ UsesBytes l op use n := by
  cases op with
  | wrDataBatch | rdDataBatch | wrCmdArgs | wrUcmdArgs | loadImage =>
    simp only [xbufUse, UsesBytes, Option.some.injEq, Prod.mk.injEq]
    constructor
    · rintro ⟨rfl, rfl, rfl⟩
      exact ⟨rfl, _, rfl, by simp⟩
    · rintro ⟨rfl, n, rfl, h⟩
      simp_all
  | _ => simp [xbufUse, UsesBytes]

theorem busyUse_eq_some {s : State} {u : Bool × Nat × Nat} :
    busyUse s = some u ↔ ∃ op, Accepted s op ∧ xbufUse s.lat op = some u := by
  unfold busyUse Accepted
  cases hq : s.seq with
  | idle => simp
  | wire bytes => simp
  | run op todo => simp
  | decode =>
    cases hd : decodeOpw s.lat.opw with
    | error e => simp [decode, hd, Except.toOption]
    | ok i => cases hdef : operandDefect i <;> simp [decode, hd, hdef, Except.toOption]

theorem byteUse_eq_some {s : State} {b : Nat} {use : Bool} :
    byteUse s b = some use ↔ ∃ lo hi, busyUse s = some (use, lo, hi) ∧ lo ≤ b ∧ b < hi ∧ hi ≤ s.params.xbufBytes := by
  unfold byteUse
  cases busyUse s with
  | none => simp
  | some u =>
    obtain ⟨writes, lo, hi⟩ := u
    simp only [Option.ite_none_right_eq_some, Option.some.injEq, Prod.mk.injEq]
    constructor
    · rintro ⟨hin, rfl⟩
      exact ⟨lo, hi, ⟨rfl, rfl, rfl⟩, hin⟩
    · rintro ⟨_, _, ⟨rfl, rfl, rfl⟩, hin⟩
      exact ⟨hin, rfl⟩

/-- The bytes in use are those the accepted operation reads or writes, where they lie in XBUF. -/
theorem byteUse_iff {s : State} {b : Nat} {use : Bool} :
    byteUse s b = some use ↔
      ∃ op lo n, Accepted s op ∧ lo = s.lat.bufoff.toNat ∧ lo ≤ b ∧ b < lo + n ∧ lo + n ≤ s.params.xbufBytes ∧
        UsesBytes s.lat op use n := by
  rw [byteUse_eq_some]
  constructor
  · rintro ⟨lo, hi, hbusy, hlo, hhi, hin⟩
    obtain ⟨op, hop, huse⟩ := busyUse_eq_some.1 hbusy
    obtain ⟨hlo', n, rfl, hn⟩ := xbufUse_eq_some.1 huse
    exact ⟨op, lo, n, hop, hlo', hlo, hhi, hin, hn⟩
  · rintro ⟨op, lo, n, hop, hlo', hlo, hhi, hin, hn⟩
    exact ⟨lo, lo + n, busyUse_eq_some.2 ⟨op, hop, xbufUse_eq_some.2 ⟨hlo', n, rfl, hn⟩⟩, hlo, hhi, hin⟩

/-! ### The bytes of a word -/

theorem storeRaces_eq_false {s : State} {a : Nat} : storeRaces s a = false ↔ ∀ i, i < 4 → byteUse s (a + i) = none := by
  simp [storeRaces]

theorem loadRaces_eq_false {s : State} {a : Nat} : loadRaces s a = false ↔ ∀ i, i < 4 → hostOthers s (a + i) = [] := by
  simp [loadRaces]

theorem le32_length (v : Word32) : (le32 v).length = 4 := rfl

/-- Each byte of a word as the host loads it (20_memory.md rule R72). -/
theorem hostWindowWord_byte (s : State) (a : Nat) {i : Nat} (h : i < 4) :
    (hostWindowWord s a).extractLsb' (8 * i) 8 = hostByte s (a + i) := by
  rw [hostWindowWord, byte_of_append _ _ _ _ _ h]
  interval_cases i <;> rfl

/-- A window word is known by its four bytes. -/
theorem xbufWindowWord_eq {s : State} {a : Nat} {v : Word32}
    (h : ∀ i, i < 4 → xbufByte s (a + i) = v.extractLsb' (8 * i) 8) : xbufWindowWord s a = v := by
  rw [xbufWindowWord, h 3 (by omega), h 2 (by omega), h 1 (by omega), ← Nat.add_zero a, h 0 (by omega)]
  exact word_of_bytes v

/-! ### Loads -/

section
variable {s : State} {a : Nat} (ha : a < s.params.xbufBytes)
include ha

theorem hostLoad_window :
    hostLoad (0x1000 + a) s = .next (countRace (loadRaces s a) { s with hostData := hostWindowWord s a }) := by
  rw [hostLoad, inWindow_window ha, if_pos rfl, Nat.add_sub_cancel_left]

/-- A load that does not race gives the word XBUF holds (R72). -/
theorem hostLoad_window_free (h : loadRaces s a = false) :
    hostLoad (0x1000 + a) s = .next { s with hostData := xbufWindowWord s a } := by
  have hbyte : ∀ i, i < 4 → hostByte s (a + i) = xbufByte s (a + i) :=
    fun i hi => hostByte_of_no_race (loadRaces_eq_false.1 h i hi)
  have hword : xbufWindowWord s a = hostWindowWord s a :=
    xbufWindowWord_eq fun i hi => by rw [hostWindowWord_byte s a hi, hbyte i hi]
  rw [hostLoad_window ha, h, hword]
  rfl

theorem hostStore_window (v : Word32) :
    hostStore (0x1000 + a) v s = .next (countRace (storeRaces s a) (hostByteStores s a (le32 v))) := by
  rw [hostStore, inWindow_window ha, if_pos rfl, Nat.add_sub_cancel_left]
end

/-! ### Stores -/

/-- Where none of the bytes is in use, a host store of bytes is the plain store. -/
theorem hostByteStores_unused {s : State} {a : Nat} {bs : List Byte}
    (h : ∀ i, i < bs.length → byteUse s (a + i) = none) : hostByteStores s a bs = xbufStoreBytes s a bs := by
  induction bs generalizing s a with
  | nil => rfl
  | cons b bs ih =>
    have hfirst : hostByteStore s a b = xbufStore s a b := by
      rw [hostByteStore, show byteUse s a = none from h 0 (Nat.succ_pos _)]
      rfl
    rw [hostByteStores, xbufStoreBytes, hfirst]
    refine ih fun i hi => ?_
    rw [xbufStore_spec, show a + 1 + i = a + (i + 1) by omega]
    exact h (i + 1) (Nat.succ_lt_succ hi)

/-- The state after a store of the word `v` to bytes none of which is in use. -/
def afterStore32 (s : State) (a : Nat) (v : Word32) : State := xbufStoreBytes s a (le32 v)

/-- A store that does not race writes XBUF alone (R87, R88). -/
theorem afterStore32_spec (s : State) (a : Nat) (v : Word32) :
    afterStore32 s a v = { s with xbuf := (afterStore32 s a v).xbuf } := xbufStoreBytes_spec s a (le32 v)

section
variable {s : State} {a : Nat} (v : Word32) (ha : a + 4 ≤ s.params.xbufBytes)
include ha

theorem xbufByte_afterStore32 {i : Nat} (hi : i < 4) :
    xbufByte (afterStore32 s a v) (a + i) = v.extractLsb' (8 * i) 8 := by
  rw [afterStore32, xbufByte_storeBytes s a (a + i) (le32 v) ha, if_pos ⟨by omega, by rw [le32_length]; omega⟩,
    Nat.add_sub_cancel_left, le32_getD v i hi]

theorem xbufByte_afterStore32_outside {b : Nat} (hb : b < a ∨ a + 4 ≤ b) :
    xbufByte (afterStore32 s a v) b = xbufByte s b := by
  rw [afterStore32, xbufByte_storeBytes s a b (le32 v) ha, if_neg (by rw [le32_length]; omega)]

theorem hostStore_window_free (h : storeRaces s a = false) :
    hostStore (0x1000 + a) v s = .next (afterStore32 s a v) := by
  rw [hostStore_window (by omega), h, hostByteStores_unused (bs := le32 v) (storeRaces_eq_false.1 h)]
  rfl

/-- A load of the word just stored returns it (R88). -/
theorem hostLoad_afterStore32 (h : storeRaces s a = false) :
    hostLoad (0x1000 + a) (afterStore32 s a v) = .next { afterStore32 s a v with hostData := v } := by
  have hfree : loadRaces (afterStore32 s a v) a = false :=
    loadRaces_eq_false.2 fun i hi => hostOthers_of_unused <| by
      rw [afterStore32_spec]
      exact storeRaces_eq_false.1 h i hi
  rw [hostLoad_window_free (by rw [afterStore32_spec]; show a < s.params.xbufBytes; omega) hfree,
    xbufWindowWord_eq fun _ hi => xbufByte_afterStore32 v ha hi]
end

/-- Settles O18: the store and the load without a race, then each with one, byte by byte; and the bytes in use. -/
theorem hostWindow : Obligations.HostWindow := by
  intro s a v _ ha
  refine ⟨fun hfree => ?store, hostLoad_window_free (by omega), fun hrace => ?raceStore, fun hrace => ?raceLoad,
    fun b => chooseByte_mem _ _ _, fun b use => ?use⟩
  case store =>
    exact ⟨_, hostStore_window_free v ha hfree, fun _ => xbufByte_afterStore32 v ha,
      fun _ => xbufByte_afterStore32_outside v ha, afterStore32_spec s a v, hostLoad_afterStore32 v ha hfree⟩
  case raceStore =>
    have hbytes := fun b => xbufByte_hostByteStores s a b (le32 v) ha
    refine ⟨_, by rw [hostStore_window (by omega), hrace], fun i hi hunused => ?_, fun i hi hused => ?_, fun b hb => ?_, ?_⟩
    · obtain ⟨-, hnew, -⟩ := hbytes (a + i)
      rw [Nat.add_sub_cancel_left, le32_getD v i hi] at hnew
      exact hnew (by omega) (Nat.add_lt_add_left hi a) hunused
    · obtain ⟨-, -, heither⟩ := hbytes (a + i)
      rw [Nat.add_sub_cancel_left, le32_getD v i hi] at heither
      exact heither (by omega) (Nat.add_lt_add_left hi a) hused
    · obtain ⟨hframe, -, -⟩ := hbytes b
      exact hframe hb
    · rw [hostByteStores_spec]
      rfl
  case raceLoad =>
    refine ⟨hostWindowWord s a, by rw [hostLoad_window (by omega), hrace]; rfl, fun i hi => ?_⟩
    rw [hostWindowWord_byte s a hi]
    exact hostByte_mem s (a + i)
  case use => exact byteUse_iff

end Sys2Proof.Proofs
end

section
/-! PROOFS. The encoding (30_encoding.md rules R101 to R120): an operation word and its four fields, a big-endian byte
string and its words, and how decoder and encoder invert each other on operation words, command words and frames. -/

namespace Sys2Proof.Proofs

open Sys2Proof.Machine

/-! ### The fields of an operation word -/

/-- A bit vector is known by its value. -/
theorem eq_ofNat_of_toNat {n k : Nat} {x : BitVec n} (h : x.toNat = k) : x = BitVec.ofNat n k := by
  rw [← h, BitVec.ofNat_toNat, BitVec.setWidth_eq]

theorem opwWord_toNat (op : BitVec 8) (fmt : BitVec 4) (imm : Word16) :
    (opwWord op fmt imm).toNat = imm.toNat * 2 ^ 16 + fmt.toNat * 2 ^ 8 + op.toNat := by
  simp only [opwWord, toNat_append_eq, BitVec.ofNat_eq_ofNat, BitVec.toNat_ofNat]
  omega

theorem opField_toNat (w : Word32) : (opField w).toNat = w.toNat % 2 ^ 8 := by
  rw [opField, BitVec.extractLsb'_toNat, Nat.shiftRight_zero]

theorem fmtField_toNat (w : Word32) : (fmtField w).toNat = w.toNat / 2 ^ 8 % 2 ^ 4 := by
  rw [fmtField, BitVec.extractLsb'_toNat, Nat.shiftRight_eq_div_pow]

theorem rsvField_toNat (w : Word32) : (rsvField w).toNat = w.toNat / 2 ^ 12 % 2 ^ 4 := by
  rw [rsvField, BitVec.extractLsb'_toNat, Nat.shiftRight_eq_div_pow]

theorem immField_toNat (w : Word32) : (immField w).toNat = w.toNat / 2 ^ 16 % 2 ^ 16 := by
  rw [immField, BitVec.extractLsb'_toNat, Nat.shiftRight_eq_div_pow]

section
variable (op : BitVec 8) (fmt : BitVec 4) (imm : Word16)

@[simp] theorem opField_opwWord : opField (opwWord op fmt imm) = op := by
  rw [← BitVec.toNat_inj, opField_toNat, opwWord_toNat]
  omega

@[simp] theorem fmtField_opwWord : fmtField (opwWord op fmt imm) = fmt := by
  rw [← BitVec.toNat_inj, fmtField_toNat, opwWord_toNat]
  omega

@[simp] theorem rsvField_opwWord : rsvField (opwWord op fmt imm) = 0 := by
  rw [← BitVec.toNat_inj, rsvField_toNat, opwWord_toNat]
  show _ = 0
  omega

@[simp] theorem immField_opwWord : immField (opwWord op fmt imm) = imm := by
  rw [← BitVec.toNat_inj, immField_toNat, opwWord_toNat]
  omega
end

/-- A word whose RSV is 0 is the word of its other three fields (R101). -/
theorem opwWord_fields {w : Word32} (h : rsvField w = 0) : opwWord (opField w) (fmtField w) (immField w) = w := by
  have hrsv : w.toNat / 2 ^ 12 % 2 ^ 4 = 0 := by rw [← rsvField_toNat, h]; rfl
  rw [← BitVec.toNat_inj, opwWord_toNat, opField_toNat, fmtField_toNat, immField_toNat]
  omega

/-! ### Operation words -/

/-- An operation word decodes to the operation of its OP code, where the bits the format fixes are as they should be
(R105). -/
theorem decodeOpw_eq_ok {w : Word32} {i : Instr} :
    decodeOpw w = .ok i ↔ operationOf w = some i ∧ ∃ f, formatOfOp (opField w) = some f ∧ fixedBitsOk f w = true := by
  unfold decodeOpw
  cases formatOfOp (opField w) with
  | none => simp
  | some f => cases operationOf w <;> cases hbits : fixedBitsOk f w <;> simp [hbits]

/-- The word of an operation code and its operand fields decodes to that operation. -/
theorem decode_opwWord {op : BitVec 8} {fmt : BitVec 4} {imm : Word16} {f : Format} {i : Instr}
    (hf : formatOfOp op = some f) (hi : operationOf (opwWord op fmt imm) = some i)
    (hbits : fixedBitsOk f (opwWord op fmt imm) = true) : decode (.opw (opwWord op fmt imm)) = .ok i :=
  decodeOpw_eq_ok.2 ⟨hi, f, by rw [opField_opwWord]; exact hf, hbits⟩

/-- A word that decodes is given by its OP code and the operand field of its format: its other fields are 0 (R102). -/
theorem encode_of_decodeOpw {w : Word32} {i : Instr} (h : decodeOpw w = .ok i) : encode i = .opw w := by
  obtain ⟨hi, f, hf, hbits⟩ := decodeOpw_eq_ok.1 h
  have hgray : hi8 (immField w) = 0 → word16 0 (lo8 (immField w)) = immField w := fun h0 => by
    rw [← h0, word16_hi8_lo8]
  unfold operationOf at hi
  unfold formatOfOp at hf
  split at hi
  case h_24 => cases hi
  all_goals
    rename_i hop
    rw [hop] at hf
    injection hf with hf
    injection hi with hi
    subst hf hi
    simp only [fixedBitsOk, Bool.and_eq_true, beq_iff_eq] at hbits
    have hw := opwWord_fields hbits.1
    have hop := eq_ofNat_of_toNat hop
    simp_all [encode]

/-! ### Words and bytes of the wire -/

@[simp] theorem be16_word16 (h l : Byte) : be16 (word16 h l) = [h, l] := by
  rw [be16, hi8_word16, lo8_word16]

/-- Words laid out big-endian are read back (R110). -/
theorem wordsOfBytes_flatMap_be16 (ws : List Word16) : wordsOfBytes (ws.flatMap be16) = some ws := by
  induction ws with
  | nil => rfl
  | cons w ws ih => simp [be16, wordsOfBytes, ih]

/-- The words of a byte string are laid out as that string. -/
theorem flatMap_be16_of_wordsOfBytes {bs : List Byte} {ws : List Word16} (h : wordsOfBytes bs = some ws) :
    ws.flatMap be16 = bs := by
  fun_induction wordsOfBytes bs generalizing ws with
  | case1 => cases h; rfl
  | case2 b => cases h
  | case3 h l rest ih =>
    obtain ⟨vs, hvs, rfl⟩ := Option.map_eq_some_iff.1 h
    rw [List.flatMap_cons, be16_word16, ih hvs]
    rfl

/-! ### Frames -/

theorem frameOf_writeCommand (op : Word16) : frameOf preambleWriteCommand (be16 op) = some (.preWriteCommand op) := by
  rw [frameOf, if_pos rfl, show be16 op = [op].flatMap be16 from rfl, wordsOfBytes_flatMap_be16]

theorem frameOf_writeData {ws : List Word16} (h : ws ≠ []) :
    frameOf preambleWriteData (ws.flatMap be16) = some (.preWriteData ws) := by
  obtain ⟨w, ws, rfl⟩ := List.exists_cons_of_ne_nil h
  rw [frameOf, if_neg (by decide), if_pos rfl, wordsOfBytes_flatMap_be16]

/-- The zero words behind a read preamble: the dummy and one for each word asked for (R120). -/
theorem zeroWords_bytes (n : Nat) :
    (List.replicate n (0 : Word16)).flatMap be16 = List.replicate (2 * n) (0 : Byte) := by
  induction n with
  | zero => rfl
  | succ n ih =>
    rw [List.replicate_succ, List.flatMap_cons, ih]
    rfl

theorem frameOf_readData (n : Nat) :
    frameOf preambleReadData ([0, 0] ++ List.replicate (2 * (n + 1)) 0) = some (.preReadData (n + 1)) := by
  have hbytes : ([0, 0] ++ List.replicate (2 * (n + 1)) 0 : List Byte) =
      (0 :: 0 :: List.replicate n (0 : Word16)).flatMap be16 := by
    rw [List.flatMap_cons, ← List.replicate_succ, zeroWords_bytes]
    rfl
  rw [frameOf, if_neg (by decide), if_neg (by decide), if_pos rfl, hbytes, wordsOfBytes_flatMap_be16]
  simp

/-- A frame is laid out as its preamble and the bytes after it (R117 to R120). -/
theorem encode_of_frameOf {v : Word16} {rest : List Byte} {i : Instr} (h : frameOf v rest = some i) :
    encode i = .wire (be16 v ++ rest) := by
  unfold frameOf at h
  split_ifs at h with hcmd hdata hread
  · subst hcmd
    split at h
    case h_1 op hw =>
      cases h
      rw [← flatMap_be16_of_wordsOfBytes hw]
      rfl
    case h_2 => cases h
  · subst hdata
    split at h
    case h_1 w ws hw =>
      cases h
      rw [← flatMap_be16_of_wordsOfBytes hw]
      rfl
    case h_2 => cases h
  · subst hread
    split at h
    case h_1 d z zs hw =>
      split_ifs at h with hzero
      cases h
      have hrep := List.eq_replicate_of_mem (a := 0) (l := d :: z :: zs) (by simpa using hzero)
      rw [← flatMap_be16_of_wordsOfBytes hw, hrep, zeroWords_bytes]
      rfl
    case h_2 => cases h

/-- A command word is laid out as its value (R112, R113). -/
theorem encode_of_wireCommandOf {v : Word16} {i : Instr} (h : wireCommandOf v = some i) :
    encode i = .wire (be16 v) := by
  unfold wireCommandOf at h
  split at h
  case h_17 => cases h
  all_goals
    rename_i hv
    have hv := eq_ofNat_of_toNat hv
    subst hv
    cases h
    rfl

/-! ### Wire bytes -/

/-- Wire bytes are read as a bare command word or else as a frame. -/
theorem decodeWire_eq_ok {v : Word16} {rest : List Byte} {i : Instr} :
    decodeWire (be16 v ++ rest) = .ok i ↔
      ((if rest = [] then wireCommandOf v else none) <|> frameOf v rest) = some i := by
  simp only [be16, List.cons_append, List.nil_append, decodeWire, word16_hi8_lo8]
  cases (if rest = [] then wireCommandOf v else none) <|> frameOf v rest <;> simp

/-- More than two bytes are a frame. -/
theorem decodeWire_frame {v : Word16} {rest : List Byte} {i : Instr} (hrest : rest ≠ []) (h : frameOf v rest = some i) :
    decodeWire (be16 v ++ rest) = .ok i := by
  rw [decodeWire_eq_ok, if_neg hrest]
  exact h

/-- Wire bytes that decode are laid out as they were. -/
theorem encode_of_decodeWire {bytes : List Byte} {i : Instr} (h : decodeWire bytes = .ok i) :
    encode i = .wire bytes := by
  match bytes with
  | [] => cases h
  | [_] => cases h
  | a :: b :: rest =>
    have hbytes : a :: b :: rest = be16 (word16 a b) ++ rest := by rw [be16_word16]; rfl
    rw [hbytes, decodeWire_eq_ok] at h
    rw [hbytes]
    cases hcmd : (if rest = [] then wireCommandOf (word16 a b) else none) with
    | some j =>
      rw [hcmd] at h
      cases h
      split_ifs at hcmd with hnil
      rw [hnil, List.append_nil]
      exact encode_of_wireCommandOf hcmd
    | none =>
      rw [hcmd] at h
      exact encode_of_frameOf h

/-! ### The obligations -/

/-- Settles O1: an operation word field by field, a command word by its value, a frame by its words. -/
theorem decodeEncodeWellFormed : Obligations.DecodeEncodeWellFormed := by
  intro p i hwf
  cases i with
  | wrCmd | wrUcmd | wrData | wrCmdArgs | wrUcmdArgs | rdReg | wrReg | wrVcom | clear | fillArea | refresh
  | refreshArea | loadImage =>
    exact decode_opwWord rfl (by simp [operationOf]) (by simp [fixedBitsOk])
  | preWriteCommand op => exact decodeWire_frame (by simp [be16]) (frameOf_writeCommand op)
  | preWriteData ws =>
    cases ws with
    | nil => simp [Instr.wellFormed, frameLengthOk] at hwf
    | cons w ws => exact decodeWire_frame (by simp [be16]) (frameOf_writeData (List.cons_ne_nil w ws))
  | preReadData n =>
    cases n with
    | zero => simp [Instr.wellFormed, frameLengthOk] at hwf
    | succ n => exact decodeWire_frame (by simp) (frameOf_readData n)
  | _ => rfl

/-- Settles O2: what decodes is laid out field by field, word by word, byte by byte as it was. -/
theorem encodeDecode : Obligations.EncodeDecode := by
  intro c i h
  cases c with
  | opw w => exact encode_of_decodeOpw h
  | wire bytes => exact encode_of_decodeWire h

/-- Settles O4, word by word. -/
theorem sampleWordsDecode : Obligations.SampleWordsDecode :=
  ⟨rfl, rfl, rfl, rfl, rfl, rfl, rfl, rfl, rfl, rfl⟩

/-- Settles O5: an illegal word has the reason R105 gives it; a word without one decodes to legal operands. -/
theorem illegalWordsEndAtDecode : Obligations.IllegalWordsEndAtDecode := by
  intro s hq
  refine ⟨fun r hr => engineStep_illegal hq hr, fun hlegal => ?_⟩
  rw [illegalReasonOf_eq] at hlegal
  cases hd : decodeOpw s.lat.opw with
  | error e => simp [hd] at hlegal
  | ok i =>
    simp only [hd] at hlegal
    exact ⟨i, hd, hlegal, by simp only [engineStep, hq, decode, hd]⟩

end Sys2Proof.Proofs
end

section
/-! PROOFS. The fixed numbers of the wire: the command codes and their decoders (30_encoding.md rules R112 to R116), the
lengths of the frames (R124) and the flags word of an image load (R122). -/

namespace Sys2Proof.Proofs

open Sys2Proof.Machine

/-! ### Command codes -/

section
variable {α : Type} {codes : List α} {code : α → Word16} (hall : ∀ c, c ∈ codes)
include hall

/-- Codes that do not repeat tell the commands of a complete list apart. -/
theorem code_injective (hnodup : (codes.map code).Nodup) : Function.Injective code :=
  fun c d h => List.inj_on_of_nodup_map hnodup (hall c) (hall d) h

/-- A search for a code finds the command that has it (R116). -/
theorem find?_code_eq_some (hnodup : (codes.map code).Nodup) {c : α} {v : Word16} :
    codes.find? (fun d => code d == v) = some c ↔ code c = v := by
  constructor
  · intro h
    simpa using List.find?_some h
  · rintro rfl
    cases h : codes.find? (fun d => code d == code c) with
    | none => exact absurd (List.find?_eq_none.1 h c (hall c)) (by simp)
    | some d =>
      have hd : code d = code c := by simpa using List.find?_some h
      rw [code_injective hall hnodup hd]

/-- It finds none where no command has it. -/
theorem find?_code_eq_none {v : Word16} : codes.find? (fun d => code d == v) = none ↔ ∀ c, code c ≠ v := by
  simp [List.find?_eq_none, hall]
end

theorem mem_allTconCmds (c : TconCmd) : c ∈ allTconCmds := by
  cases c <;> decide

theorem mem_allUserCmds (u : UserCmd) : u ∈ allUserCmds := by
  cases u <;> decide

theorem encodeCmd_nodup : (allTconCmds.map encodeCmd).Nodup := by decide

theorem encodeUcmd_nodup : (allUserCmds.map encodeUcmd).Nodup := by decide

/-- No code is in both sets (R115). -/
theorem encodeCmd_ne_encodeUcmd (c : TconCmd) (u : UserCmd) : encodeCmd c ≠ encodeUcmd u := by
  have hdisjoint : ∀ c ∈ allTconCmds, ∀ u ∈ allUserCmds, encodeCmd c ≠ encodeUcmd u := by decide
  exact hdisjoint c (mem_allTconCmds c) u (mem_allUserCmds u)

/-- Settles O3: the values of each list, and what a search through a complete list without repetitions finds. -/
theorem commandCodes : Obligations.CommandCodes :=
  ⟨rfl, rfl, mem_allTconCmds, mem_allUserCmds, encodeCmd_ne_encodeUcmd,
    fun _ _ => find?_code_eq_some mem_allTconCmds encodeCmd_nodup,
    fun _ _ => find?_code_eq_some mem_allUserCmds encodeUcmd_nodup,
    fun _ => find?_code_eq_none mem_allTconCmds, fun _ => find?_code_eq_none mem_allUserCmds⟩

/-! ### Frame lengths -/

theorem flatMap_be16_length (ws : List Word16) : (ws.flatMap be16).length = 2 * ws.length := by
  simp [List.length_flatMap, be16, Nat.mul_comm]

theorem chunkFrame_length (ws : List Word16) : (chunkFrame ws).length = 2 + 2 * ws.length := by
  rw [chunkFrame, List.length_append, flatMap_be16_length]
  rfl

/-- The constraint of R6 on the bus. -/
theorem busMaxBytes_ge {p : Params} (h : paramsOk p = true) : 44 ≤ p.busMaxBytes := by
  simp only [paramsOk, Bool.and_eq_true, decide_eq_true_eq] at h
  omega

/-- Settles O6, from the lengths of the frames and the least bus. -/
theorem frameLengths : Obligations.FrameLengths := by
  intro p w ws n hp
  have hbus := busMaxBytes_ge hp
  rw [chunkFrame_length, readFrame_length, chunkWords, rdMaxWords]
  refine ⟨rfl, rfl, ?_, rfl, rfl, ?_, ?_, ?_, ?_⟩ <;> omega

/-! ### The flags word -/

/-- Settles O7: the fields side by side, and the four words of the default codes. -/
theorem flagsWord_holds : Obligations.FlagsWord := by
  refine ⟨fun endian pf rot => ?_, fun _ _ => rfl, rfl, rfl, rfl, rfl⟩
  rw [packedFlags, toNat_append_eq, toNat_append_eq]
  omega

end Sys2Proof.Proofs
end

section
/-! PROOFS. Operations that run to their end in one turn when the device answers (41_transport.md rules R180, R181,
42_device.md rule R212), and the framer's bare command words and frames (30_encoding.md rules R112 to R120; log 8). -/

namespace Sys2Proof.Proofs

open Sys2Proof.Machine

/-! ### One turn from start to end -/

/-- An instruction whose micro-steps run to their end within its turn succeeds. -/
theorem exec_of_runs {i : Instr} {s u : State} {todo : List Micro} {k : Nat} (hs : AtStart s)
    (hf : frameLengthOk s.params i = true) (hd : operandDefect i = none) (hstart : startOf i s = .ok todo)
    (hruns : Runs k i todo s u) (hk : k < s.burst) : exec i s = .next (succeed u) := by
  rw [exec_start hs hf hd hstart, hruns.done s.burst hk]

/-! ### Register and VCOM accesses -/

/-- Settles O31. -/
theorem wrRegCompletes : Obligations.WrRegCompletes := by
  intro a s r1 r2 r3 ⟨hs, hspeed, hburst, ha⟩
  exact exec_of_runs hs rfl rfl rfl (runs_regWrite (.wrReg a) a s.lat.arg0 s r1 r2 r3 hspeed ha) hburst

/-- A single word `w` read goes into RESULT, beside what the read itself left in `u` (10_state.md rule R31). -/
def withResult (w : Word16) (u : State) : State := { u with words := [w], regs := { u.regs with result := w } }

/-- The read of a single word, and its store into RESULT. -/
theorem runs_setResult {k : Nat} {op : Instr} {ms : List Micro} {s u : State} {rx : List Byte}
    (h : Runs k op ms s { u with words := readWords 1 rx }) :
    Runs (k + 1) op (ms ++ [.setResult]) s (withResult (wordOf rx) u) :=
  h.append (Runs.one (by simp) fun _ => rfl)

/-- Settles O30: the register read, and its word stored. -/
theorem rdRegCompletes : Obligations.RdRegCompletes := by
  intro a s r1 r2 r3 ⟨hs, hspeed, hburst, ha⟩ hl
  exact exec_of_runs hs rfl rfl rfl (runs_setResult (runs_regRead (.rdReg a) a s r1 r2 r3 hspeed ha hl)) hburst

/-- Settles O35: the VCOM read, and its word stored. -/
theorem rdVcomCompletes : Obligations.RdVcomCompletes := by
  intro s r1 r2 r3 ⟨hs, hspeed, hburst, ha⟩ hl
  exact exec_of_runs hs rfl rfl rfl (runs_setResult (runs_vcomRead .rdVcom s r1 r2 r3 hspeed ha hl)) hburst

/-! ### Bare command words and frames -/

/-- A framer instruction with a command word is `SendCmd` of that word (40_framer.md rule R150). -/
theorem startOf_wireOpcode {i : Instr} {c : Word16} (h : wireOpcode i = some c) (s : State) :
    frameLengthOk s.params i = true ∧ operandDefect i = none ∧ startOf i s = .ok (sendCmd c) := by
  cases i <;> cases h <;> exact ⟨rfl, rfl, rfl⟩

/-- Settles O26: every command word is sent by the one procedure. -/
theorem wireCommandsComplete : Obligations.WireCommandsComplete := by
  intro i c s rx hc ⟨hs, hspeed, hburst, ha⟩
  obtain ⟨hf, hd, hstart⟩ := startOf_wireOpcode hc s
  exact exec_of_runs hs hf hd hstart (runs_sendCmd i c s rx hspeed ha) hburst

theorem setSpeed_self {s : State} {sp : Speed} (h : s.speed = sp) : setSpeed sp s = s := by
  rw [setSpeed, ← h]

/-- Words that fit one chunk are sent as it, with nothing behind it (R152). -/
theorem chunkPayload_lit {s : State} {ws : List Word16} (h : ws.length ≤ chunkWords s.params) :
    chunkPayload s (.lit ws) 0 = ws ∧ afterChunk s.params (.lit ws) 0 = [.closeBatch] := by
  rw [chunkPayload_eq, srcWords_lit, List.drop_zero, List.take_of_length_le h]
  refine ⟨rfl, if_neg ?_⟩
  simp only [chunkSize, srcCount]
  omega

/-- A bare data frame is one exchange at the speed it finds (R118, R119). -/
theorem runs_bareDataFrame (op : Instr) {ws : List Word16} {s : State} {rx : List Byte}
    (hlen : ws.length ≤ chunkWords s.params) (hspeed : s.speed = .cmd) (ha : Answered s [rx]) :
    ∃ k, k ≤ 3 ∧ Runs k op (bareDataFrame ws) s (afterExchange s ⟨.cmd, chunkFrame ws, rx⟩) := by
  fun_cases bareDataFrame ws
  case case1 w => exact ⟨2, by omega, runs_sendData op w s rx hspeed ha⟩
  case case2 =>
    refine ⟨3, le_rfl, fun n rest => ?_⟩
    obtain ⟨hpayload, hafter⟩ := chunkPayload_lit hlen
    obtain ⟨hready, hbus⟩ := ha.head
    refine (engineRun_chunk (n + 1) op (.lit ws) 0 rest s rx hready hbus).trans ?_
    rw [hpayload, hafter, hspeed, List.singleton_append, engineRun_step n op .closeBatch rest _ (by simp), runMicro]
    exact congrArg (fun u => engineRun n (goOn op rest u)) (setSpeed_self (s := afterExchange s _) hspeed)

/-- Settles O28: a frame of an admitted length by its procedure, another by its length. -/
theorem wireDataFramesComplete : Obligations.WireDataFramesComplete := by
  refine ⟨?write, ?read, ?writeRefused, ?readRefused⟩
  case write =>
    intro ws s rx hne hlen ⟨hs, hspeed, hburst, ha⟩
    obtain ⟨k, hk, hruns⟩ := runs_bareDataFrame (.preWriteData ws) hlen hspeed ha
    exact exec_of_runs hs (by simp [frameLengthOk, hne, hlen]) rfl rfl hruns (by omega)
  case read =>
    intro n s rx hne hlen ⟨hs, hspeed, hburst, ha⟩ hl
    exact exec_of_runs hs (by simp [frameLengthOk, hne, hlen]) rfl rfl
      (runs_readData (.preReadData n) n s rx hspeed ha hl) hburst
  case writeRefused =>
    intro ws s h
    refine exec_refused _ _ ?_
    rcases h with rfl | h
    · rfl
    · simp [frameLengthOk, h]
  case readRefused =>
    intro n s h
    refine exec_refused _ _ ?_
    rcases h with rfl | h
    · rfl
    · simp [frameLengthOk, h]

end Sys2Proof.Proofs
end

section
/-! PROOFS. RESET (42_device.md rule R201, 40_framer.md rule R163): its turn up to the hold, its turn from the hold's
end, and the run under the reference schedule with the Clock's steps between them. -/

namespace Sys2Proof.Proofs

open Sys2Proof.Machine

/-- The constraint of R6 on RESET_HOLD_MS. -/
theorem resetHoldMs_pos {p : Params} (h : paramsOk p = true) : 0 < p.resetHoldMs := by
  simp only [paramsOk, Bool.and_eq_true, decide_eq_true_eq] at h
  omega

/-- RESET held, RESET_N low. -/
def resetHeld (s : State) : State :=
  { s with
    stat := { s.stat with infoValid := false, resetN := false }
    trace := s.trace ++ [.lineResetN false]
    tDelay := s.now
    seq := .run .reset [.hold s.params.resetHoldMs, .pulseHigh] }

/-- From its start RESET runs up to its hold. -/
theorem exec_reset_start {s : State} (hs : AtStart s) (hp : paramsOk s.params = true) (hburst : 3 ≤ s.burst) :
    exec .reset s = .next (resetHeld s) := by
  obtain ⟨n, hn⟩ := Nat.exists_eq_add_of_le' hburst
  rw [exec_start hs rfl rfl rfl, hn, engineRun_step (n + 2) .reset .clearInfoValid resetPulse s (by simp), runMicro,
    resetPulse, engineRun_step (n + 1) .reset .pulseLow [] _ (by simp), runMicro]
  exact congrArg _ (engineRun_delay n .reset s.params.resetHoldMs [.pulseHigh] _ (resetHoldMs_pos hp))

/-- RESET_N is high again. -/
def resetReleased (s : State) : State :=
  { s with stat := { s.stat with resetN := true }, trace := s.trace ++ [.lineResetN true] }

/-- From the end of its hold RESET runs to its success. -/
theorem exec_reset_release {s : State} {ms : Nat} (hq : s.seq = .run .reset [.hold ms, .pulseHigh])
    (hover : ms ≤ s.now - s.tDelay) (hburst : 2 ≤ s.burst) : exec .reset s = .next (succeed (resetReleased s)) := by
  obtain ⟨n, hn⟩ := Nat.exists_eq_add_of_le' hburst
  have hpassed := engineRun_hold_passed s.burst .reset ms [.pulseHigh] s hover
  rw [goOn_of_seq hq] at hpassed
  rw [exec_running hq rfl, hpassed, hn, engineRun_step (n + 1) .reset .pulseHigh [] s (by simp), runMicro]
  exact congrArg _ (engineRun_done n .reset _)

/-- The hold of RESET under the reference schedule: RESET_HOLD_MS steps of the Clock. -/
def resetWaited (s : State) : State :=
  { resetHeld s with
    now := s.now + s.params.resetHoldMs
    trace := s.trace ++ [.lineResetN false] ++ List.replicate s.params.resetHoldMs .tick }

theorem step_reset_release {s : State} (hp : paramsOk s.params = true) (ha : s.agenda = []) (hburst : 2 ≤ s.burst) :
    step (resetWaited s) = .next (succeed (resetReleased (resetWaited s))) := by
  have hover : s.params.resetHoldMs ≤ s.now + s.params.resetHoldMs - s.now := by omega
  have hfree : held (resetWaited s) = false := by simp [held, resetWaited, resetHeld]
  rw [step_running (s := resetWaited s) hp ha rfl rfl hfree, ← exec_running (i := .reset) (s := resetWaited s) rfl rfl]
  exact exec_reset_release rfl hover hburst

/-- Settles O38: the turn up to the hold, the Clock's steps, the turn from its end. -/
theorem resetRuns : Obligations.ResetRuns := by
  intro s hq hd ha hp hburst
  obtain ⟨hdecoded, -⟩ := stepRunsDecoded s s hp (.inl ⟨ha, rfl⟩)
  have hstart : step s = .next (resetHeld s) := by
    rw [hdecoded .reset hq hd, exec_reset_start (by simp [AtStart, hq]) hp hburst]
  have hticks := run_ticks s.params.resetHoldMs 1 (resetHeld s) .reset s.params.resetHoldMs [.pulseHigh] hp ha rfl
    (by simp [resetHeld]) le_rfl
  rw [run_next hstart, hticks]
  refine (run_next (step_reset_release hp ha (by omega))).trans ?_
  simp [Host.Core.run, succeed, resetReleased, resetWaited, resetHeld]

end Sys2Proof.Proofs
end

section
/-! PROOFS. CLEAR and REFRESH as FILL_AREA and REFRESH_AREA of the full panel (30_encoding.md rule R129): a turn does
not read the name of the operation it runs. -/

namespace Sys2Proof.Proofs

open Sys2Proof.Machine

/-! ### An operation under another name -/

section
variable (op : Instr)

theorem relabel_ite (c : Prop) [Decidable c] (s t : State) :
    relabel op (if c then s else t) = if c then relabel op s else relabel op t :=
  apply_ite (relabel op) c s t

theorem sampleHrdy_relabel (op' : Instr) (rest : List Micro) (s : State) :
    relabel op (sampleHrdy op' rest s) = sampleHrdy op rest s := by
  unfold sampleHrdy
  cases hrdyAt s 0 with
  | ioerr code => rfl
  | level v =>
    simp only [relabel_ite]
    rfl

theorem xfer_relabel (tx : List Byte) {k k' : List Byte → State → State} (s : State)
    (hk : ∀ rx u, relabel op (k rx u) = k' rx u) : relabel op (xfer tx k s) = xfer tx k' s := by
  unfold xfer
  cases busAt s 0 with
  | ioerr code => rfl
  | ok rx => exact hk _ _

/-- A micro-step names the operation in the position it leads to, and nowhere else. -/
theorem runMicro_relabel (op' : Instr) {m : Micro} (rest : List Micro) (s : State) (hm : ∀ ms, m ≠ .hold ms) :
    relabel op (runMicro op' m rest s) = runMicro op m rest s := by
  cases m with
  | waitReady => exact sampleHrdy_relabel op op' rest { s with tWait := s.now }
  | resample => exact sampleHrdy_relabel op op' rest s
  | xferCmd c => exact xfer_relabel op _ s fun _ _ => rfl
  | xferData w => exact xfer_relabel op _ s fun _ _ => rfl
  | xferChunk src k => exact xfer_relabel op _ s fun _ _ => rfl
  | xferRead n =>
    refine xfer_relabel op _ s fun rx u => ?_
    simp only [takeResponse, relabel_ite]
    rfl
  | hold ms => exact absurd rfl (hm ms)
  | vcomSync =>
    simp only [runMicro, vcomSync, relabel_ite]
    rfl
  | lutTest =>
    simp only [runMicro, lutTest, relabel_ite]
    rfl
  | _ => rfl

theorem relabel_of_seq {s : State} {op' : Instr} {todo : List Micro} (hq : s.seq = .run op' todo) :
    relabel op s = goOn op todo s := by
  rw [relabel, hq]
  rfl

theorem active_relabel (s : State) : active (relabel op s) = active s := by
  cases hq : s.seq with
  | run op' todo =>
    rw [relabel_of_seq op hq]
    simp only [active, held, goOn_seq, hq]
    cases todo with
    | nil => rfl
    | cons m rest => cases m <;> rfl
  | _ => simp [active, relabel, hq]

theorem microStep_relabel {s : State} (ha : active s = true) :
    microStep (relabel op s) = relabel op (microStep s) := by
  obtain ⟨op', todo, hq, ⟨rfl, h⟩ | ⟨m, rest, rfl, h, hhold⟩⟩ := active_cases ha
  · rw [h, relabel_of_seq op hq]
    rfl
  · rw [h, relabel_of_seq op hq]
    show runMicro op m rest (goOn op (m :: rest) s) = _
    by_cases hm : ∃ ms, m = .hold ms
    · obtain ⟨ms, rfl⟩ := hm
      simp only [runMicro, goOn_now, goOn_tDelay, hhold ms rfl, if_true]
      rfl
    · have hm : ∀ ms, m ≠ .hold ms := fun ms hms => hm ⟨ms, hms⟩
      rw [runMicro_goOn op m rest _ s hm, runMicro_relabel op op' rest s hm]

theorem engineRun_relabel (n : Nat) (s : State) : engineRun n (relabel op s) = relabel op (engineRun n s) := by
  induction n generalizing s with
  | zero => rfl
  | succ n ih =>
    simp only [engineRun, active_relabel]
    split
    · rw [microStep_relabel op ‹_›, ih]
    · rfl

/-- Two instructions with the same checks and the same micro-steps do the same. -/
theorem exec_relabel {i : Instr} {s : State} (hs : AtStart s) (hf : frameLengthOk s.params i = true)
    (hf' : frameLengthOk s.params op = true) (hd : operandDefect op = operandDefect i)
    (hstart : startOf op s = startOf i s) : mapNext (relabel op) (exec i s) = exec op s := by
  have hbegin : begin op (startOf op s) s = relabel op (begin i (startOf i s) s) := by
    rw [hstart]
    unfold begin
    rw [hd]
    cases operandDefect i <;> cases startOf i s <;> rfl
  rw [exec_eq i s hf, exec_eq op s hf', engineTurn_start i _ s hs, engineTurn_start op _ s hs, hbegin,
    engineRun_relabel]
  rfl

end

/-- Settles O59: with the full panel latched the checks and the micro-steps of the two are the same. -/
theorem fullPanelForms : Obligations.FullPanelForms := by
  intro s hs _ hpanel
  refine ⟨fun v => exec_relabel (.clear v) hs rfl rfl rfl ?_, fun m => exec_relabel (.refresh m) hs rfl rfl rfl ?_⟩
  all_goals rw [startOf, startOf, hpanel]

end Sys2Proof.Proofs
end

section
/-! PROOFS. The Host's programs `WAITDONE`, `ISSUE` and `SETAREA`, access by access, while the Engine is idle
(30_encoding.md rules R126 to R128; log 24). -/

namespace Sys2Proof.Proofs

open Sys2Proof.Machine

/-! ### Registers -/

theorem reaches32_load32 (s : State) {off : Nat} (h : off < 2 ^ 32) (h4 : off % 4 = 0) :
    Reaches32 (load32 s.params off) off s :=
  ⟨rfl, hostOffset_add s off h, h4⟩

/-- A program's load of a register below the device-information file. -/
theorem hostTurn_load32_register (s : State) {off : Nat} (h : off < 0x060) (h4 : off % 4 = 0) :
    hostTurn (load32 s.params off) s = .next { s with hostData := readReg s off } := by
  have hwindow : inWindow s off = false := by
    simp [inWindow]
    omega
  exact hostTurn_load_register (reaches32_load32 s (by omega) h4) hwindow rfl (by omega)

/-- A 16-bit operand goes through its 32-bit store unchanged. -/
theorem lo16_setWidth (v : Word16) : lo16 (v.setWidth 32) = v := by
  apply BitVec.eq_of_getLsbD_eq
  intro j hj
  simp [lo16, hj]
  omega

/-! ### WAITDONE -/

/-- `WAITDONE` loads STATUS and stays at the front of the program while BUSY reads 1 (R127). -/
theorem hostStep_waitDone {s : State} {rest : List HostOp} (h : s.hostProg = .waitDone :: rest) :
    hostStep s =
      .next { s with hostData := statusWord s, hostProg := if s.stat.busy then s.hostProg else rest } := by
  have hload := hostTurn_load32_register { s with hostProg := rest } (off := 0x004) (by omega) rfl
  have hdone : sawDone { s with hostProg := rest, hostData := statusWord s } = !s.stat.busy := by
    rw [sawDone, statusWord_busy]
  simp only [hostStep, h, runHostOp, pollStatus]
  rw [hload]
  show Host.Outcome.next (if sawDone { s with hostProg := rest, hostData := statusWord s } then _ else _) = _
  rw [hdone]
  cases s.stat.busy <;> rfl

/-- Once the Engine is idle, `ISSUE` leaves its loop and loads ERR_CODE. -/
theorem run_issue_end {s : State} {rest : List HostOp} (hr : HostRuns s) (hidle : s.stat.busy = false)
    (h : s.hostProg = .waitDone :: .access (load32 s.params 0x02C) :: rest) :
    Host.Core.run Sys2Proof.core 2 s =
      .next { s with hostData := s.regs.errCode.setWidth 32, hostProg := rest } := by
  obtain ⟨hp, ha, hq⟩ := hr
  have hwait : step s = .next
      { s with hostData := statusWord s, hostProg := .access (load32 s.params 0x02C) :: rest } := by
    rw [step_host hp ha hq, hostStep_waitDone h, hidle]
    rfl
  have hload : step { s with hostData := statusWord s, hostProg := .access (load32 s.params 0x02C) :: rest } =
      .next { s with hostData := s.regs.errCode.setWidth 32, hostProg := rest } := by
    rw [step_host (by exact hp) (by exact ha) (by exact hq)]
    exact hostTurn_load32_register { s with hostData := statusWord s, hostProg := rest } (off := 0x02C) (by omega) rfl
  rw [run_next hwait, run_next hload]
  rfl

/-! ### ISSUE -/

/-- A register write does not reach the Host's program. -/
theorem writeReg_hostProg (off : Nat) (v : Word32) (s : State) (prog : List HostOp) :
    writeReg off v { s with hostProg := prog } = { writeReg off v s with hostProg := prog } := by
  fun_cases writeReg off v s
  case case1 =>
    simp only [writeReg, writeCtrl]
    split_ifs <;> rfl
  case case12 =>
    simp only [writeReg, writeVcomCfg]
    split_ifs <;> rfl
  case case13 => exact writeReg_readOnly v _ (by simp_all [writableOffsets])
  all_goals rfl

/-- A program's store to a register is the write of that register. -/
theorem hostDoes_writeReg {s : State} (hr : HostRuns s) (off : Nat) (v : Word32) (h : off < 0x1000) (h4 : off % 4 = 0) :
    HostDoes [.access (store32 s.params off v)] s (writeReg off v s) :=
  hostDoes_register off v hr h h4 (writeReg_hostProg off v s)

/-- One more register store of a program. -/
theorem hostDoes_store {p : List HostOp} {s t : State} (hdoes : HostDoes p s t) (ht : HostRuns t)
    (hp : t.params = s.params) (off : Nat) (v : Word32) (h : off < 0x1000) (h4 : off % 4 = 0) :
    HostDoes (p ++ [.access (store32 s.params off v)]) s (writeReg off v t) :=
  hdoes.append (hp ▸ hostDoes_writeReg ht off v h h4)

/-- The operands a line sets, over those the registers hold (R126). -/
def lineOperands (l : HostLine) (r : HostRegs) : HostRegs :=
  { r with
    arg0 := l.arg0.getD r.arg0
    bufoff := l.buf.getD r.bufoff
    len := l.n.getD r.len
    areaX := (l.area.getD (r.areaX, r.areaY, r.areaW, r.areaH)).1
    areaY := (l.area.getD (r.areaX, r.areaY, r.areaW, r.areaH)).2.1
    areaW := (l.area.getD (r.areaX, r.areaY, r.areaW, r.areaH)).2.2.1
    areaH := (l.area.getD (r.areaX, r.areaY, r.areaW, r.areaH)).2.2.2 }

/-- The operation word a line assembles to, beside its operands. -/
def lineIssued (l : HostLine) (w : Word32) (s : State) : State :=
  { s with regs := { lineOperands l s.regs with opw := w } }

section
variable {s : State} (hr : HostRuns s)
include hr

/-- `SETAREA` (R128). -/
theorem hostDoes_setArea (x y w h : Word16) :
    HostDoes (setArea s.params x y w h) s
      { s with regs := { s.regs with areaX := x, areaY := y, areaW := w, areaH := h } } := by
  have hx := hostDoes_writeReg hr 0x018 (x.setWidth 32) (by omega) rfl
  have hy := hostDoes_store hx hr rfl 0x01C (y.setWidth 32) (by omega) rfl
  have hw := hostDoes_store hy hr rfl 0x020 (w.setWidth 32) (by omega) rfl
  have hh := hostDoes_store hw hr rfl 0x024 (h.setWidth 32) (by omega) rfl
  simp only [writeReg, lo16_setWidth] at hh
  exact hh

/-- The store of an operand that a line may leave out. -/
theorem hostDoes_optional {α : Type} (off : Nat) (word : α → Word32) (after : Option α → State) (h : off < 0x1000)
    (h4 : off % 4 = 0) (hnone : after none = s) (hsome : ∀ x, writeReg off (word x) s = after (some x))
    (v : Option α) : HostDoes (v.toList.map fun x => .access (store32 s.params off (word x))) s (after v) := by
  cases v with
  | none => exact hnone ▸ HostDoes.nil s
  | some x => exact hsome x ▸ hostDoes_writeReg hr off (word x) h h4

theorem hostDoes_bufoff :
    ∀ v : Option Word32, HostDoes (v.toList.map fun x => .access (store32 s.params 0x010 x)) s
      { s with regs := { s.regs with bufoff := v.getD s.regs.bufoff } } :=
  hostDoes_optional hr 0x010 id _ (by omega) rfl rfl fun _ => rfl

theorem hostDoes_len :
    ∀ v : Option Word32, HostDoes (v.toList.map fun x => .access (store32 s.params 0x014 x)) s
      { s with regs := { s.regs with len := v.getD s.regs.len } } :=
  hostDoes_optional hr 0x014 id _ (by omega) rfl rfl fun _ => rfl

theorem hostDoes_arg0 :
    ∀ v : Option Word16, HostDoes (v.toList.map fun x => .access (store32 s.params 0x00C (x.setWidth 32))) s
      { s with regs := { s.regs with arg0 := v.getD s.regs.arg0 } } :=
  hostDoes_optional hr 0x00C (BitVec.setWidth 32) _ (by omega) rfl rfl fun _ => by
    simp only [writeReg, lo16_setWidth]
    rfl

/-- The operand stores of a line leave its operands in the registers. -/
theorem hostDoes_operandStores (l : HostLine) :
    HostDoes (operandStores s.params l) s { s with regs := lineOperands l s.regs } := by
  obtain ⟨instr, arg0, buf, n, area⟩ := l
  cases area with
  | none =>
    exact (((HostDoes.nil s).append (hostDoes_bufoff hr buf)).append (hostDoes_len (by exact hr) n)).append
      (hostDoes_arg0 (by exact hr) arg0)
  | some a =>
    obtain ⟨x, y, w, h⟩ := a
    exact (((hostDoes_setArea hr x y w h).append (hostDoes_bufoff (by exact hr) buf)).append
      (hostDoes_len (by exact hr) n)).append (hostDoes_arg0 (by exact hr) arg0)

/-- `ISSUE` up to its GO (R127). -/
theorem hostDoes_issue (l : HostLine) (w : Word32) (hidle : s.stat.busy = false) :
    HostDoes (operandStores s.params l ++ [.access (store32 s.params 0x008 w), .access (store32 s.params 0x000 1)]) s
      (acceptGo (lineIssued l w s)) := by
  have hopw := hostDoes_writeReg (s := { s with regs := lineOperands l s.regs }) hr 0x008 w (by omega) rfl
  have hgo := hostDoes_writeReg (s := lineIssued l w s) hr 0x000 1 (by omega) rfl
  have haccept : writeReg 0x000 1 (lineIssued l w s) = acceptGo (lineIssued l w s) := by
    have hbusy : (lineIssued l w s).stat.busy = false := hidle
    simp [writeReg, writeCtrl, hbusy]
  rw [haccept] at hgo
  exact (hostDoes_operandStores hr l).append (hopw.append hgo)
end

/-- The program of a line: up to its GO, and from its loop on. -/
theorem issue_eq_some {p : Params} {l : HostLine} {prog : List HostOp} (h : issue p l = some prog) :
    ∃ w, encode l.instr = .opw w ∧
      prog = operandStores p l ++ [.access (store32 p 0x008 w), .access (store32 p 0x000 1)] ++
        [.waitDone, .access (load32 p 0x02C)] := by
  obtain ⟨w, hw, rfl⟩ := Option.map_eq_some_iff.1 h
  refine ⟨w, ?_, by simp [loadErrCode]⟩
  unfold assembleOpw at hw
  cases he : encode l.instr with
  | opw v => rw [he] at hw; cases hw; rfl
  | wire bytes => rw [he] at hw; cases hw

/-- A program that stands at the front of `hostProg` is run. -/
theorem run_of_hostDoes {p : List HostOp} {s t : State} {rest : List HostOp} (h : HostDoes p s t)
    (hp : s.hostProg = p ++ rest) : ∃ n, Host.Core.run Sys2Proof.core n s = .next { t with hostProg := rest } := by
  obtain ⟨n, hn⟩ := h rest
  rw [← hp] at hn
  exact ⟨n, hn⟩

end Sys2Proof.Proofs
end

section
/-! PROOFS. The Host's programs `XPUT` and `XGET`, window word by window word, while the Engine is idle (30_encoding.md
rule R128; log 24), and with them all the Host's programs. -/

namespace Sys2Proof.Proofs

open Sys2Proof.Machine

/-! ### Window words -/

/-- The Host's program does not reach a store of bytes. -/
theorem xbufStoreBytes_hostProg (s : State) (a : Nat) (bs : List Byte) (prog : List HostOp) :
    xbufStoreBytes { s with hostProg := prog } a bs = { xbufStoreBytes s a bs with hostProg := prog } := by
  induction bs generalizing s a with
  | nil => rfl
  | cons b bs ih =>
    have hfirst : xbufStore { s with hostProg := prog } a b = { xbufStore s a b with hostProg := prog } := by
      simp only [xbufStore]
      split_ifs <;> rfl
    rw [xbufStoreBytes, xbufStoreBytes, hfirst, ih]

/-- The constraints of R6 and R71 on XBUF. -/
theorem xbufBytes_bounds {p : Params} (h : paramsOk p = true) :
    p.xbufBytes % 4 = 0 ∧ 0x1000 + p.xbufBytes ≤ 2 ^ 32 := by
  simp only [paramsOk, Bool.and_eq_true, decide_eq_true_eq, beq_iff_eq] at h
  omega

section
variable {s : State} (hr : HostRuns s) {word : Nat} (halign : word % 4 = 0) (hword : word < s.params.xbufBytes)
include hr halign hword

/-- The load of a window word by a program. -/
theorem hostTurn_loadWord (rest : List HostOp) :
    hostTurn (load32 s.params (0x1000 + word)) { s with hostProg := rest } =
      .next { s with hostProg := rest, hostData := xbufWindowWord s word } := by
  obtain ⟨hp, -, hq⟩ := id hr
  obtain ⟨-, hsize⟩ := xbufBytes_bounds hp
  exact (hostTurn_load32 { s with hostProg := rest } (0x1000 + word) (by omega) (by omega)).trans
    (hostLoad_window_idle (s := { s with hostProg := rest }) hq hword)

/-- The store of a window word by a program. -/
theorem hostTurn_storeWord (v : Word32) (rest : List HostOp) :
    hostTurn (store32 s.params (0x1000 + word) v) { s with hostProg := rest } =
      .next { afterStore32 s word v with hostProg := rest } := by
  obtain ⟨hp, -, hq⟩ := id hr
  obtain ⟨-, hsize⟩ := xbufBytes_bounds hp
  rw [afterStore32, ← xbufStoreBytes_hostProg]
  exact (hostTurn_store32 { s with hostProg := rest } (0x1000 + word) v (by omega) (by omega)).trans
    (hostStore_window_idle (s := { s with hostProg := rest }) hq hword v)

/-- A program's load of a window word. -/
theorem hostDoes_loadWord :
    HostDoes [.access (load32 s.params (0x1000 + word))] s { s with hostData := xbufWindowWord s word } :=
  HostDoes.one hr (hostTurn_loadWord hr halign hword)

/-- A program's store of a window word. -/
theorem hostDoes_storeWord (v : Word32) :
    HostDoes [.access (store32 s.params (0x1000 + word) v)] s (afterStore32 s word v) :=
  HostDoes.one hr (hostTurn_storeWord hr halign hword v)

/-- The store that ends a read-modify-write. -/
theorem hostDoes_merge (off : Nat) (bs : List Byte) :
    HostDoes [.merge word off bs] s (afterStore32 s word (mergedWord s.hostData word off bs)) :=
  HostDoes.one hr fun rest => by
    rw [runHostOp, ← hostTurn_storeWord hr halign hword]
end

/-! ### XPUT -/

/-- `t` is `s` after the bytes `bs` meant for `off` were put into the window words `words`: of those words, each byte in
the range is the new one, and nothing else is changed but the word the Host holds. -/
structure PutWords (off : Nat) (bs : List Byte) (words : List Nat) (s t : State) : Prop where
  covered : ∀ b, off ≤ b → b < off + bs.length → (∃ w ∈ words, w ≤ b ∧ b < w + 4) → xbufByte t b = bs.getD (b - off) 0
  other : ∀ b, b < off ∨ off + bs.length ≤ b ∨ (∀ w ∈ words, ¬ (w ≤ b ∧ b < w + 4)) → xbufByte t b = xbufByte s b
  frame : t = { s with xbuf := t.xbuf, hostData := t.hostData }

theorem PutWords.append {off : Nat} {bs : List Byte} {ws ws' : List Nat} {s t u : State} (h : PutWords off bs ws s t)
    (h' : PutWords off bs ws' t u) : PutWords off bs (ws ++ ws') s u := by
  refine ⟨fun b hlo hhi ⟨w, hw, hwb⟩ => ?_, fun b hb => ?_, h'.frame.trans (by rw [h.frame])⟩
  · by_cases hlate : ∃ w ∈ ws', w ≤ b ∧ b < w + 4
    · exact h'.covered b hlo hhi hlate
    · have hws : w ∈ ws := (List.mem_append.1 hw).resolve_right fun hw' => hlate ⟨w, hw', hwb⟩
      rw [h'.other b (.inr (.inr fun w hw hwb => hlate ⟨w, hw, hwb⟩)), h.covered b hlo hhi ⟨w, hws, hwb⟩]
  · simp only [List.forall_mem_append] at hb
    rw [h'.other b (hb.imp_right (.imp_right And.right)), h.other b (hb.imp_right (.imp_right And.left))]

/-- A stored word puts its word, where each of its bytes is the new one or the one XBUF holds. -/
theorem putWords_store {off word : Nat} {bs : List Byte} {s : State} {v : Word32}
    (hword : word + 4 ≤ s.params.xbufBytes)
    (hv : ∀ i, i < 4 → v.extractLsb' (8 * i) 8 =
      if off ≤ word + i ∧ word + i < off + bs.length then bs.getD (word + i - off) 0 else xbufByte s (word + i)) :
    PutWords off bs [word] s (afterStore32 s word v) := by
  refine ⟨fun b hlo hhi ⟨w, hw, hwb⟩ => ?_, fun b hb => ?_, by rw [afterStore32_spec]⟩
  · obtain rfl := List.mem_singleton.1 hw
    obtain ⟨i, rfl⟩ := Nat.exists_eq_add_of_le hwb.1
    rw [xbufByte_afterStore32 v hword (by omega), hv i (by omega), if_pos ⟨hlo, hhi⟩]
  · by_cases hwb : word ≤ b ∧ b < word + 4
    · obtain ⟨i, rfl⟩ := Nat.exists_eq_add_of_le hwb.1
      have hout : ¬ (off ≤ word + i ∧ word + i < off + bs.length) := by
        rcases hb with hb | hb | hb
        · omega
        · omega
        · exact absurd hwb (hb word List.mem_cons_self)
      rw [xbufByte_afterStore32 v hword (by omega), hv i (by omega), if_neg hout]
    · exact xbufByte_afterStore32_outside v hword (by omega)

/-- The word the Host holds is no part of what is put. -/
theorem PutWords.of_hostData {off : Nat} {bs : List Byte} {ws : List Nat} {s t : State} {d : Word32}
    (h : PutWords off bs ws { s with hostData := d } t) : PutWords off bs ws s t :=
  ⟨h.covered, h.other, h.frame⟩

/-- `XPUT` on one window word (R128). -/
theorem hostDoes_xputWord {s : State} (hr : HostRuns s) {word : Nat} (halign : word % 4 = 0)
    (hword : word < s.params.xbufBytes) (off : Nat) (bs : List Byte) :
    ∃ t, HostDoes (xputWord s.params off bs word) s t ∧ PutWords off bs [word] s t := by
  obtain ⟨hsize, -⟩ := xbufBytes_bounds hr.1
  have hword4 : word + 4 ≤ s.params.xbufBytes := by omega
  unfold xputWord
  split
  · refine ⟨_, hostDoes_storeWord hr halign hword _, putWords_store hword4 fun i hi => ?_⟩
    rw [mergedWord_byte 0 word off bs i hi, if_pos (by omega), if_pos (by omega)]
  · have hload := hostDoes_loadWord hr halign hword
    have hmerge := hostDoes_merge (s := { s with hostData := xbufWindowWord s word }) hr halign hword off bs
    refine ⟨_, hload.append hmerge, PutWords.of_hostData (putWords_store hword4 fun i hi => ?_)⟩
    rw [mergedWord_byte _ word off bs i hi, xbufWindowWord_byte s word i hi]
    rfl

theorem hostDoes_xputWords (off : Nat) (bs : List Byte) (words : List Nat) {s : State} (hr : HostRuns s)
    (hwords : ∀ w ∈ words, w % 4 = 0 ∧ w < s.params.xbufBytes) :
    ∃ t, HostDoes (words.flatMap (xputWord s.params off bs)) s t ∧ PutWords off bs words s t := by
  induction words generalizing s with
  | nil => exact ⟨s, HostDoes.nil s, by simp, fun _ _ => rfl, rfl⟩
  | cons w ws ih =>
    obtain ⟨⟨halign, hword⟩, hws⟩ := List.forall_mem_cons.1 hwords
    obtain ⟨t, hdoes, hput⟩ := hostDoes_xputWord hr halign hword off bs
    have hparams : t.params = s.params := by rw [hput.frame]
    have hrt : HostRuns t := by rw [hput.frame]; exact hr
    obtain ⟨u, hdoes', hput'⟩ := ih hrt (hparams ▸ hws)
    rw [hparams] at hdoes'
    exact ⟨u, hdoes.append hdoes', hput.append hput'⟩

/-! ### XGET -/

/-- `XGET` on one window word (R128). -/
theorem hostDoes_keep {s : State} (hr : HostRuns s) {word : Nat} (halign : word % 4 = 0)
    (hword : word < s.params.xbufBytes) (off n : Nat) :
    HostDoes [.keep word off n] s
      { s with
        hostBytes := s.hostBytes ++ keptBytes (xbufWindowWord s word) word off n
        hostData := xbufWindowWord s word } :=
  HostDoes.one hr fun rest => by
    simp only [runHostOp]
    rw [hostTurn_loadWord hr halign hword]

theorem hostDoes_xgetWords (off n : Nat) (words : List Nat) {s : State} (hr : HostRuns s)
    (hwords : ∀ w ∈ words, w % 4 = 0 ∧ w < s.params.xbufBytes) :
    ∃ d, HostDoes (words.map fun w => .keep w off n) s
      { s with
        hostBytes := s.hostBytes ++ words.flatMap fun w => keptBytes (xbufWindowWord s w) w off n
        hostData := d } := by
  induction words generalizing s with
  | nil =>
    refine ⟨s.hostData, ?_⟩
    rw [List.flatMap_nil, List.append_nil]
    exact HostDoes.nil s
  | cons w ws ih =>
    obtain ⟨⟨halign, hword⟩, hws⟩ := List.forall_mem_cons.1 hwords
    have hfirst := hostDoes_keep hr halign hword off n
    obtain ⟨d, hrest⟩ := ih (s := { s with
      hostBytes := s.hostBytes ++ keptBytes (xbufWindowWord s w) w off n
      hostData := xbufWindowWord s w }) hr hws
    refine ⟨d, ?_⟩
    rw [List.flatMap_cons, ← List.append_assoc]
    exact hfirst.append hrest

/-! ### The bytes of a range, word by word -/

/-- Of consecutive numbers, those of an interval among them. -/
theorem filter_range'_between (a k n r : Nat) :
    (List.range' a (k + n + r)).filter (fun x => a + k ≤ x && x < a + k + n) = List.range' (a + k) n := by
  have hsplit : List.range' a (k + n + r) =
      List.range' a k ++ (List.range' (a + k) n ++ List.range' (a + k + n) r) := by
    rw [List.range'_append_1, List.range'_append_1, Nat.add_assoc]
  have hbelow : (List.range' a k).filter (fun x => a + k ≤ x && x < a + k + n) = [] := by
    simp [List.filter_eq_nil_iff]
    omega
  have hin : (List.range' (a + k) n).filter (fun x => a + k ≤ x && x < a + k + n) = List.range' (a + k) n := by
    simp [List.filter_eq_self]
  have habove : (List.range' (a + k + n) r).filter (fun x => a + k ≤ x && x < a + k + n) = [] := by
    simp [List.filter_eq_nil_iff]
    omega
  rw [hsplit, List.filter_append, List.filter_append, hbelow, habove, hin, List.nil_append, List.append_nil]

/-- The offsets in window words that follow one another. -/
theorem flatMap_range'_words (q k : Nat) :
    ((List.range k).map fun j => 4 * (q + j)).flatMap (fun w => List.range' w 4) = List.range' (4 * q) (4 * k) := by
  induction k with
  | zero => rfl
  | succ k ih =>
    rw [List.range_succ, List.map_append, List.flatMap_append, ih]
    simp only [List.map_cons, List.map_nil, List.flatMap_cons, List.flatMap_nil, List.append_nil, Nat.mul_add,
      Nat.mul_one]
    rw [List.range'_append_1]

/-- The bytes kept of a window word are those of the range in it, lowest first. -/
theorem keptBytes_window (s : State) (w off n : Nat) :
    keptBytes (xbufWindowWord s w) w off n =
      ((List.range' w 4).filter fun x => off ≤ x && x < off + n).map (xbufByte s) := by
  rw [List.range'_eq_map_range, List.filter_map, List.map_map]
  refine List.map_congr_left fun i hi => xbufWindowWord_byte s w i ?_
  exact List.mem_range.1 (List.mem_filter.1 hi).1

/-- The words of a range hold its bytes, in order. -/
theorem keptBytes_windowWords (s : State) (off n : Nat) :
    ((windowWords off n).flatMap fun w => keptBytes (xbufWindowWord s w) w off n) =
      (List.range n).map fun i => xbufByte s (off + i) := by
  by_cases hn : n = 0
  · simp [windowWords, hn]
  simp only [keptBytes_window, ← List.map_flatMap, ← List.filter_flatMap]
  obtain ⟨r, hr⟩ : ∃ r, 4 * ((off + n - 1) / 4 - off / 4 + 1) = off % 4 + n + r :=
    Nat.exists_eq_add_of_le (by omega)
  have hfilter := filter_range'_between (4 * (off / 4)) (off % 4) n r
  rw [Nat.div_add_mod] at hfilter
  rw [windowWords, if_neg hn, flatMap_range'_words, hr, hfilter, List.range'_eq_map_range, List.map_map]
  rfl

/-- Settles O60, program by program. -/
theorem hostProgramsRun : Obligations.HostProgramsRun := by
  refine ⟨fun _ _ _ => hostStep_waitDone, ?issue, fun _ _ => run_issue_end, ?xput, ?xget⟩
  case issue =>
    intro s l prog rest hr hidle hissue hprog
    obtain ⟨w, hw, rfl⟩ := issue_eq_some hissue
    rw [List.append_assoc] at hprog
    obtain ⟨n, hn⟩ := run_of_hostDoes (hostDoes_issue hr l w hidle) hprog
    exact ⟨n, _, hn, rfl, rfl, hw, rfl, rfl, rfl, rfl, rfl, rfl, rfl, rfl, rfl, rfl⟩
  case xput =>
    intro s off bs rest hr hin hprog
    obtain ⟨hsize, -⟩ := xbufBytes_bounds hr.1
    obtain ⟨t, hdoes, hput⟩ := hostDoes_xputWords off bs (windowWords off bs.length) hr
      fun w hw => windowWords_inside hsize hin hw
    obtain ⟨n, hn⟩ := run_of_hostDoes hdoes hprog
    refine ⟨n, _, hn, fun i hlo hhi => ?_, fun i hi => ?_, ?_⟩
    · exact hput.covered i hlo hhi (windowWords_cover off bs.length i hlo hhi)
    · exact hput.other i (by omega)
    · exact congrArg (fun u : State => { u with hostProg := rest }) hput.frame
  case xget =>
    intro s off n rest hr hin hprog
    obtain ⟨hsize, -⟩ := xbufBytes_bounds hr.1
    obtain ⟨d, hdoes⟩ := hostDoes_xgetWords off n (windowWords off n) hr fun w hw => windowWords_inside hsize hin hw
    obtain ⟨k, hk⟩ := run_of_hostDoes hdoes hprog
    rw [keptBytes_windowWords] at hk
    exact ⟨k, _, hk, rfl⟩

end Sys2Proof.Proofs
end

section
/-! PROOFS. The gating of exchanges over a step of any agent (40_framer.md rules R140, R150 to R156): a sample, an
exchange and every other micro-step keep the trace gated and leave micro-steps that stay gated behind it; the Host
reaches neither the trace nor a running operation. -/

namespace Sys2Proof.Proofs

open Sys2Proof.Machine

/-! ### Traces and positions -/

theorem gatedFrom_append (ready : Bool) (es es' : List Event) :
    gatedFrom ready (es ++ es') = (gatedFrom ready es && gatedFrom (readyAfter ready es) es') := by
  induction es generalizing ready with
  | nil => simp [gatedFrom, readyAfter]
  | cons e es ih => cases e <;> simp [gatedFrom, readyAfter, ih, Bool.and_assoc]

theorem readyAfter_append (ready : Bool) (es es' : List Event) :
    readyAfter ready (es ++ es') = readyAfter (readyAfter ready es) es' := by
  induction es generalizing ready with
  | nil => simp [readyAfter]
  | cons e es ih => cases e <;> simp [readyAfter, ih]

/-- Every exchange of the trace so far is gated. -/
def TraceGated (s : State) : Prop := gatedFrom false s.trace = true

/-- The trace of `t` is that of `s` and one event more, which may stand there. -/
theorem TraceGated.snoc {s t : State} {e : Event} (h : TraceGated s) (ht : t.trace = s.trace ++ [e])
    (he : gatedFrom (readyAfter false s.trace) [e] = true) : TraceGated t := by
  rw [TraceGated, ht, gatedFrom_append, he, Bool.and_true]
  exact h

theorem gated_raise (e : Err) {s : State} (h : TraceGated s) : Gated (raise e s) := ⟨h, rfl⟩

theorem gated_succeed {s : State} (h : TraceGated s) : Gated (succeed s) := ⟨h, rfl⟩

/-- Micro-steps that take their own sample first may stand behind any gated trace. -/
theorem gated_goOn (op : Instr) {todo : List Micro} {s : State} (h : TraceGated s)
    (htodo : todoGated false todo = true) : Gated (goOn op todo s) :=
  ⟨h, todoGated_of_false _ htodo⟩

/-! ### Samples and exchanges -/

/-- A ready sample stands in front of what it gates; any other outcome leads to a further sample or to none. -/
theorem gated_sampleHrdy (op : Instr) {rest : List Micro} {s : State} (h : TraceGated s)
    (hrest : todoGated true rest = true) : Gated (sampleHrdy op rest s) := by
  rcases sampleHrdy_cases op rest s with ⟨code, -, he⟩ | ⟨-, he⟩ | ⟨-, -, he⟩ | ⟨-, -, he⟩ <;> rw [he]
  · exact gated_raise _ (h.snoc rfl rfl)
  · refine ⟨h.snoc rfl rfl, ?_⟩
    rw [goOn_trace, readyAfter_append]
    exact hrest
  · exact gated_raise _ (h.snoc rfl rfl)
  · exact gated_goOn op (h.snoc rfl rfl) hrest

/-- An exchange behind a ready sample may stand in the trace; what follows it takes its own sample. -/
theorem gated_xfer (tx : List Byte) {k : List Byte → State → State} {op : Instr} {todo : List Micro} {s : State}
    (h : TraceGated s) (hready : readyAfter false s.trace = true) (htodo : todoGated false todo = true)
    (hk : ∀ rx u, (∃ e, k rx u = raise e u) ∨ ∃ ws, k rx u = goOn op todo { u with words := ws }) :
    Gated (xfer tx k s) := by
  rcases xfer_cases tx k s with ⟨code, -, he⟩ | ⟨r, -, he⟩ <;> rw [he]
  · exact gated_raise _ (h.snoc rfl (by rw [hready]; rfl))
  · rcases hk (r.take tx.length) _ with ⟨e, hk⟩ | ⟨ws, hk⟩ <;> rw [hk]
    · exact gated_raise _ (h.snoc rfl (by rw [hready]; rfl))
    · exact gated_goOn op (h.snoc rfl (by rw [hready]; rfl)) htodo

/-! ### Micro-steps -/

theorem todoGated_afterChunk (p : Params) (src : WordSrc) (k : Nat) : todoGated false (afterChunk p src k) = true := by
  rcases afterChunk_cases p src k with h | ⟨k', h⟩ <;> rw [h] <;> rfl

theorem todoGated_phaseBody (s : State) (p : InitPhase) : todoGated false (phaseBody s p) = true := by
  cases p <;> rfl

theorem gated_vcomSync (op : Instr) {rest : List Micro} {s : State} (h : TraceGated s)
    (hrest : todoGated false rest = true) : Gated (vcomSync op rest s) := by
  unfold vcomSync
  split
  · exact gated_goOn op h hrest
  · split
    · exact gated_raise _ h
    · exact gated_goOn op h (todoGated_append false (vcomWrite s.lat.vcfg) (.setVcomCfg s.lat.vcfg :: rest) rfl hrest)

theorem gated_lutTest (op : Instr) {rest : List Micro} {s : State} (h : TraceGated s)
    (hrest : todoGated false rest = true) : Gated (lutTest op rest s) := by
  unfold lutTest
  split
  · exact gated_goOn op h hrest
  · split
    · exact gated_raise _ h
    · exact gated_goOn op h (todoGated_append false lutPoll rest rfl hrest)

/-- A micro-step that is next behind a gated trace leaves a gated state, a hold being passed. -/
theorem gated_runMicro {op : Instr} {m : Micro} {rest : List Micro} {s : State} (h : TraceGated s)
    (hnext : todoGated (readyAfter false s.trace) (m :: rest) = true)
    (hhold : ∀ ms, m = .hold ms → ms ≤ s.now - s.tDelay) : Gated (runMicro op m rest s) := by
  cases m with
  | waitReady => exact gated_sampleHrdy op (s := atFirstSample s) h hnext
  | resample => exact gated_sampleHrdy op h hnext
  | xferCmd c =>
    obtain ⟨hready, hrest⟩ := Bool.and_eq_true_iff.1 hnext
    exact gated_xfer _ h hready hrest fun _ u => .inr ⟨u.words, rfl⟩
  | xferData w =>
    obtain ⟨hready, hrest⟩ := Bool.and_eq_true_iff.1 hnext
    exact gated_xfer _ h hready hrest fun _ u => .inr ⟨u.words, rfl⟩
  | xferChunk src k =>
    obtain ⟨hready, hrest⟩ := Bool.and_eq_true_iff.1 hnext
    exact gated_xfer _ h hready (todoGated_append false _ rest (todoGated_afterChunk s.params src k) hrest)
      fun _ u => .inr ⟨u.words, rfl⟩
  | xferRead n =>
    obtain ⟨hready, hrest⟩ := Bool.and_eq_true_iff.1 hnext
    exact gated_xfer _ h hready hrest (takeResponse_outcome op n rest)
  | openBatch src => exact gated_goOn op (s := setSpeed .data s) h hnext
  | pulseLow =>
    have hfall : TraceGated (driveReset false s) := h.snoc rfl rfl
    exact gated_goOn op hfall (todoGated_append false (resetPulseRest s.params) rest rfl hnext)
  | pulseHigh =>
    have hrise : TraceGated (driveReset true s) := h.snoc rfl rfl
    exact gated_goOn op hrise hnext
  | hold ms =>
    simp only [runMicro, if_pos (hhold ms rfl)]
    exact gated_goOn op h hnext
  | enterPhase p =>
    exact gated_goOn op (s := enterPhase p s) h (todoGated_append false _ rest (todoGated_phaseBody s p) hnext)
  | vcomSync => exact gated_vcomSync op h hnext
  | commit => exact gated_goOn op (s := commitInfo s) h rfl
  | storeWords base =>
    have hstored : TraceGated (effect (.storeWords base) s) := by
      rw [effect_storeWords]
      exact h
    exact gated_goOn op hstored hnext
  | lutTest => exact gated_lutTest op h hnext
  | _ => exact ⟨h, todoGated_of_false _ hnext⟩

theorem gated_microStep (u : State) (ha : active u = true) (hu : Gated u) : Gated (microStep u) := by
  obtain ⟨htrace, hnext⟩ := hu
  obtain ⟨op, todo, hq, ⟨-, hdone⟩ | ⟨m, rest, hcons, hstep, hhold⟩⟩ := active_cases ha
  · rw [hdone]
    exact gated_succeed htrace
  · rw [hq, hcons] at hnext
    rw [hstep]
    exact gated_runMicro htrace hnext hhold

/-! ### The Engine -/

/-- An instruction's own micro-steps are gated; those of one that runs are by the invariant. -/
theorem gated_exec {i : Instr} {s t : State} (h : Gated s) (hexec : exec i s = .next t) : Gated t := by
  rcases exec_next hexec with ⟨op, todo, -, rfl⟩ | ⟨-, ⟨e, rfl⟩ | ⟨todo, hstart, rfl⟩⟩
  · exact engineRun_induct gated_microStep _ h
  · exact gated_raise e h.1
  · exact engineRun_induct gated_microStep _ (gated_goOn i h.1 hstart.gated)

theorem gated_engineStep {s t : State} (h : Gated s) (hstep : engineStep s = .next t) : Gated t := by
  unfold engineStep at hstep
  split at hstep
  case h_1 =>
    cases hstep
    exact h
  case h_2 =>
    split at hstep
    · exact gated_exec h hstep
    · cases hstep
      exact gated_raise _ h.1
  case h_3 =>
    split at hstep
    · exact gated_exec h hstep
    · cases hstep
  case h_4 =>
    split at hstep
    · cases hstep
      exact h
    · exact gated_exec h hstep

/-! ### The Host -/

/-- All the Host does to the trace and the sequencer from `s` to `t`: nothing, or the accept of a GO (10_state.md rule
R22). -/
def HostLeaves (s t : State) : Prop := t.trace = s.trace ∧ (t.seq = s.seq ∨ t.seq = .decode)

theorem HostLeaves.keepsGated {s t : State} (hl : HostLeaves s t) (h : Gated s) : Gated t := by
  obtain ⟨htrace, hseq | hseq⟩ := hl <;> rw [Gated, htrace, hseq]
  · exact h
  · exact ⟨h.1, rfl⟩

theorem hostLeaves_writeReg (off : Nat) (v : Word32) (s : State) : HostLeaves s (writeReg off v s) := by
  fun_cases writeReg off v s
  case case1 =>
    unfold writeCtrl
    split
    · split
      · exact ⟨rfl, .inl rfl⟩
      · exact ⟨rfl, .inr rfl⟩
    · exact ⟨rfl, .inl rfl⟩
  case case12 =>
    unfold writeVcomCfg
    split <;> exact ⟨rfl, .inl rfl⟩
  all_goals exact ⟨rfl, .inl rfl⟩

/-- All one host access can do: a register write, or writes to XBUF, to its raced values and their number, and to
the word the host loads. -/
theorem hostTurn_cases {a : HostAccess} {s t : State} (h : hostTurn a s = .next t) :
    (∃ off v, t = writeReg off v s) ∨
      ∃ x r n d, t = { s with xbuf := x, xbufRace := r, raceNo := n, hostData := d } := by
  unfold hostTurn at h
  split at h
  · split at h
    · unfold hostStore at h
      split at h <;> injection h with h <;> subst h
      · rw [countRace_spec, hostByteStores_spec]
        exact .inr ⟨_, _, _, _, rfl⟩
      · exact .inl ⟨_, _, rfl⟩
    · unfold hostLoad at h
      split at h
      · injection h with h
        rw [← h, countRace_spec]
        exact .inr ⟨_, _, _, _, rfl⟩
      · split at h <;> cases h
        exact .inr ⟨_, _, _, _, rfl⟩
  · cases h

theorem hostLeaves_hostTurn {a : HostAccess} {s t : State} (h : hostTurn a s = .next t) : HostLeaves s t := by
  rcases hostTurn_cases h with ⟨off, v, rfl⟩ | ⟨x, r, n, d, rfl⟩
  · exact hostLeaves_writeReg off v s
  · exact ⟨rfl, .inl rfl⟩

theorem hostLeaves_runHostOp {op : HostOp} {s t : State} (h : runHostOp op s = .next t) : HostLeaves s t := by
  cases op with
  | access a => exact hostLeaves_hostTurn h
  | merge word off bs => exact hostLeaves_hostTurn h
  | waitDone =>
    simp only [runHostOp] at h
    split at h <;> cases h
    have hpoll := hostLeaves_hostTurn ‹_›
    split <;> exact hpoll
  | keep word off n =>
    simp only [runHostOp] at h
    split at h <;> cases h
    have hload := hostLeaves_hostTurn ‹_›
    exact hload

theorem hostLeaves_hostStep {s t : State} (h : hostStep s = .next t) : HostLeaves s t := by
  unfold hostStep at h
  split at h
  · cases h
    exact ⟨rfl, .inl rfl⟩
  · have hop := hostLeaves_runHostOp h
    exact hop

/-! ### Every agent -/

/-- A Clock step keeps a ready sample ready. -/
theorem gated_tick {s : State} (h : Gated s) : Gated (tick s) := by
  obtain ⟨htrace, hnext⟩ := h
  refine ⟨TraceGated.snoc htrace rfl rfl, ?_⟩
  show todoGated (readyAfter false (s.trace ++ [.tick])) (todoOf s.seq) = true
  rw [readyAfter_append]
  exact hnext

theorem gated_takeTurn {w : Turn} {s t : State} (h : Gated s) (hturn : takeTurn w s = .next t) : Gated t := by
  cases w with
  | engine => exact gated_engineStep h hturn
  | clock => cases hturn; exact gated_tick h
  | program => exact (hostLeaves_hostStep hturn).keepsGated h
  | host a => exact (hostLeaves_hostTurn hturn).keepsGated h
  | engineReset => cases hturn; exact ⟨rfl, rfl⟩

/-- Settles O52, agent by agent; the Engine's turn by induction over its micro-steps. -/
theorem exchangesStayGated : Obligations.ExchangesStayGated := by
  intro s t h hstep
  unfold step turn at hstep
  split at hstep
  · split at hstep
    · exact gated_takeTurn h hstep
    · refine gated_takeTurn (s := { s with agenda := _ }) ?_ hstep
      exact h
  · cases hstep

end Sys2Proof.Proofs
end

section
/-! PROOFS. The chunks of a batch (40_framer.md rule R153): their number, contents and sizes. -/

namespace Sys2Proof.Proofs

open Sys2Proof.Machine

/-- Before the last of `ceilDiv n c` chunks fewer than `n` words are sent; it leaves none. -/
theorem ceilDiv_bounds {n c : Nat} (hc : 0 < c) (hn : 0 < n) :
    c * (ceilDiv n c - 1) < n ∧ n ≤ c * (ceilDiv n c - 1) + c := by
  have hlast : ceilDiv n c - 1 = (n - 1) / c := by
    rw [ceilDiv, show n + c - 1 = n - 1 + c by omega, Nat.add_div_right _ hc, Nat.succ_sub_one]
  have hdivmod := Nat.div_add_mod (n - 1) c
  have hmod := Nat.mod_lt (n - 1) hc
  rw [hlast]
  omega

theorem chunkList_length (c : Nat) (ws : List Word16) : (chunkList c ws).length = ceilDiv ws.length c := by
  rw [chunkList, List.length_map, List.length_range]

theorem chunkList_flatten {c : Nat} (hc : 0 < c) (ws : List Word16) : (chunkList c ws).flatten = ws := by
  by_cases hws : ws = []
  · rw [hws, chunkList_nil c hc, List.flatten_nil]
  · have hshorter : (ws.drop c).length < ws.length := by
      have hpos := List.length_pos_iff.2 hws
      rw [List.length_drop]
      omega
    rw [chunkList_step c ws hc hws, List.flatten_cons, chunkList_flatten hc (ws.drop c), List.take_append_drop]
termination_by ws.length

theorem chunkList_getElem?_length {c j : Nat} {ws chunk : List Word16} (h : (chunkList c ws)[j]? = some chunk) :
    chunk.length = min c (ws.length - c * j) := by
  simp only [chunkList, List.getElem?_map, Option.map_eq_some_iff] at h
  obtain ⟨k, hk, rfl⟩ := h
  obtain ⟨-, rfl⟩ := List.getElem?_eq_some_iff.1 hk
  rw [List.getElem_range, List.length_take, List.length_drop, Nat.mul_comm]

/-- Settles O10: the chunks joined by recursion on the words left, their sizes by their position. -/
theorem chunkArithmetic : Obligations.ChunkArithmetic := by
  intro c ws hc hws
  obtain ⟨hlo, hhi⟩ := ceilDiv_bounds hc (List.length_pos_iff.2 hws)
  refine ⟨chunkList_length c ws, chunkList_flatten hc ws, ?payloads, fun j chunk hj hinner => ?inner,
    fun chunk hlast => ?last⟩
  case payloads =>
    conv_rhs => rw [← chunkList_flatten hc ws, List.flatten_eq_flatMap, List.flatMap_assoc]
    rfl
  case inner =>
    have hbefore : c * (j + 1) ≤ c * (ceilDiv ws.length c - 1) := Nat.mul_le_mul_left c (by omega)
    rw [Nat.mul_succ] at hbefore
    rw [chunkList_getElem?_length hj]
    omega
  case last =>
    rw [List.getLast?_eq_getElem?, chunkList_length] at hlast
    rw [chunkList_getElem?_length hlast]
    omega

end Sys2Proof.Proofs
end

section
/-! PROOFS. Operations that send one command, one data word or a batch of XBUF words, or read one word, and run to their
end in one turn when the device answers (41_transport.md rules R171 to R179, 42_device.md rules R215 to R217,
40_framer.md rules R152 to R154, R159). -/

namespace Sys2Proof.Proofs

open Sys2Proof.Machine

/-! ### One frame -/

/-- The code of what a search for `v` finds is `v` (30_encoding.md rule R116). -/
theorem find?_map_code {α : Type} {codes : List α} {code : α → Word16} {v c : Word16}
    (h : (codes.find? fun d => code d == v).map code = some c) :
    v = c ∧ (codes.find? fun d => code d == v).isSome = true := by
  obtain ⟨d, hd, rfl⟩ := Option.map_eq_some_iff.1 h
  have hcode : code d = v := by simpa using List.find?_some hd
  exact ⟨hcode.symm, by rw [hd]; rfl⟩

/-- A host operation with a command word is `SendCmd` of that word, which is one of its closed set. -/
theorem startOf_commandOf {i : Instr} {c : Word16} (h : commandOf i = some c) (s : State) :
    frameLengthOk s.params i = true ∧ operandDefect i = none ∧ startOf i s = .ok (sendCmd c) := by
  cases i with
  | wrCmd imm =>
    obtain ⟨rfl, hsome⟩ := find?_map_code (codes := allTconCmds) (code := encodeCmd) h
    exact ⟨rfl, if_pos hsome, rfl⟩
  | wrUcmd imm =>
    obtain ⟨rfl, hsome⟩ := find?_map_code (codes := allUserCmds) (code := encodeUcmd) h
    exact ⟨rfl, if_pos hsome, rfl⟩
  | _ => cases h <;> exact ⟨rfl, rfl, rfl⟩

/-- Settles O25: every command is sent by the one procedure. -/
theorem commandsComplete : Obligations.CommandsComplete := by
  intro i c s rx hc ⟨hs, hspeed, hburst, ha⟩
  obtain ⟨hf, hd, hstart⟩ := startOf_commandOf hc s
  exact exec_of_runs hs hf hd hstart (runs_sendCmd i c s rx hspeed ha) hburst

/-- Settles O27. -/
theorem wrDataCompletes : Obligations.WrDataCompletes := by
  intro w s rx ⟨hs, hspeed, hburst, ha⟩
  exact exec_of_runs hs rfl rfl rfl (runs_sendData (.wrData w) w s rx hspeed ha) hburst

/-- Settles O29: the read, and its word stored. -/
theorem rdDataCompletes : Obligations.RdDataCompletes := by
  intro s rx ⟨hs, hspeed, hburst, ha⟩ hl
  have hread := runs_setResult (runs_readData .rdData 1 s rx hspeed ha hl)
  exact ⟨_, exec_of_runs hs rfl rfl rfl hread hburst, rfl, rfl⟩

/-! ### A batch of XBUF words -/

theorem chunkWords_pos {p : Params} (h : paramsOk p = true) : 0 < chunkWords p := by
  have hbus := busMaxBytes_ge h
  rw [chunkWords]
  omega

/-- A zero-byte range passes whatever BUFOFF is; another inside XBUF (R171). -/
theorem checkRange_inside {s : State} {n : Nat} (k : Start)
    (h : n = 0 ∨ s.lat.bufoff.toNat + 2 * n ≤ s.params.xbufBytes) : checkRange s (2 * n) k = k := by
  rw [checkRange, if_neg]
  omega

/-- A batch, no words included (R152, R154). -/
theorem runs_sendDataBatch (op : Instr) {src : WordSrc} {s : State} {rs : List (List Byte)}
    (hc : 0 < chunkWords s.params) (hs : s.speed = .cmd)
    (hl : rs.length = ceilDiv (srcCount src) (chunkWords s.params)) (h : Answered s rs) :
    ∃ k, k ≤ 2 * rs.length + 2 ∧
      Runs k op (sendDataBatch src) s
        (afterExchanges s (batchAnswers (chunkWords s.params) (srcWords s src) rs)) := by
  by_cases hz : srcCount src = 0
  · refine ⟨0, Nat.zero_le _, fun n rest => ?_⟩
    have hrs : rs = [] := by
      rw [hz, ceilDiv_zero _ hc] at hl
      exact List.eq_nil_of_length_eq_zero hl
    rw [sendDataBatch, if_pos hz, hrs, batchAnswers, List.zipWith_nil_right]
    rfl
  · exact ⟨_, le_rfl, runs_batch op src s rs hc hs hz hl h⟩

/-- Settles O32: the range check passed, the batch. -/
theorem wrDataBatchCompletes : Obligations.WrDataBatchCompletes := by
  intro s rs hp hrange hl ⟨hs, hspeed, hburst, ha⟩
  obtain ⟨k, hk, hruns⟩ :=
    runs_sendDataBatch .wrDataBatch (src := latchedWords s) (chunkWords_pos hp) hspeed hl ha
  exact exec_of_runs hs rfl rfl (checkRange_inside _ hrange) hruns (by omega)

/-! ### A command and a batch -/

/-- An operation with a command word and words of XBUF behind it is `SendCmdArgs` of them (R159), its range checked
first. -/
theorem startOf_argsCommandOf {i : Instr} {c : Word16} (h : argsCommandOf i = some c) (s : State) :
    frameLengthOk s.params i = true ∧ operandDefect i = none ∧
      startOf i s = checkRange s (2 * s.lat.len.toNat) (.ok (sendCmdArgs c (latchedWords s))) := by
  cases i with
  | wrCmdArgs imm =>
    obtain ⟨rfl, hsome⟩ := find?_map_code (codes := allTconCmds) (code := encodeCmd) h
    exact ⟨rfl, if_pos hsome, rfl⟩
  | wrUcmdArgs imm =>
    obtain ⟨rfl, hsome⟩ := find?_map_code (codes := allUserCmds) (code := encodeUcmd) h
    exact ⟨rfl, if_pos hsome, rfl⟩
  | _ => cases h

/-- Settles O33: the range check passed, the command frame, the batch of the words it has not touched. -/
theorem cmdArgsComplete : Obligations.CmdArgsComplete := by
  intro i c s r rs hp hc hrange hl ⟨hs, hspeed, hburst, ha⟩
  obtain ⟨hf, hd, hstart⟩ := startOf_argsCommandOf hc s
  rw [checkRange_inside _ hrange] at hstart
  have hcommand := runs_sendCmd i c s r hspeed ha.first
  obtain ⟨k, hk, hbatch⟩ :=
    runs_sendDataBatch i (src := latchedWords s) (s := afterExchange s ⟨.cmd, cmdFrame c, r⟩) (chunkWords_pos hp)
      hspeed hl (ha.rest _)
  rw [srcWords_afterExchange] at hbatch
  exact exec_of_runs hs hf hd hstart (hcommand.append hbatch) (by omega)

end Sys2Proof.Proofs
end

section
/-! PROOFS. RESET (42_device.md rule R201) and the start of INIT (R202, R203), turn by turn: the pulse of RESET_N and
the Delays that end a turn (40_framer.md rules R158, R163). -/

namespace Sys2Proof.Proofs

open Sys2Proof.Machine

/-- Settles O37: the turn up to the hold, and the turn from its end. -/
theorem resetCompletes : Obligations.ResetCompletes :=
  ⟨fun _ => exec_reset_start, fun _ _ => exec_reset_release⟩

/-! ### The reset pulse -/

/-- RESET_N is low, and the hold of the pulse has begun. -/
def pulseHeld (s : State) : State :=
  { s with stat := { s.stat with resetN := false }, trace := s.trace ++ [.lineResetN false], tDelay := s.now }

/-- A reset pulse lowers RESET_N and holds the Engine. -/
theorem engineRun_resetPulse (n : Nat) (op : Instr) (rest : List Micro) {s : State} (hp : paramsOk s.params = true) :
    engineRun (n + 2) (goOn op (resetPulse ++ rest) s) =
      goOn op (.hold s.params.resetHoldMs :: .pulseHigh :: rest) (pulseHeld s) := by
  rw [resetPulse, List.singleton_append, engineRun_step (n + 1) op .pulseLow rest s (by simp), runMicro]
  exact engineRun_delay n op s.params.resetHoldMs (.pulseHigh :: rest) (driveReset false s) (resetHoldMs_pos hp)

/-- The end of a pulse raises RESET_N, its hold being over. -/
theorem engineRun_pulse_over (n : Nat) {op : Instr} {ms : Nat} {rest : List Micro} {s : State}
    (hq : s.seq = .run op (.hold ms :: .pulseHigh :: rest)) (hover : ms ≤ s.now - s.tDelay) :
    engineRun (n + 2) s = engineRun n (goOn op rest (resetReleased s)) := by
  have hpassed := engineRun_hold_passed (n + 1) op ms (.pulseHigh :: rest) s hover
  rw [goOn_of_seq hq, engineRun_step n op .pulseHigh rest s (by simp)] at hpassed
  exact hpassed

/-! ### INIT -/

/-- From its start INIT enters phase 1 and runs up to the hold of its pulse. -/
theorem exec_init_start {s : State} (hs : AtStart s) (hp : paramsOk s.params = true) (hburst : 3 ≤ s.burst) :
    exec .init s =
      .next (goOn .init [.hold s.params.resetHoldMs, .pulseHigh, .enterPhase .settle]
        (pulseHeld (enterPhase .hardReset s))) := by
  obtain ⟨n, hn⟩ := Nat.exists_eq_add_of_le' hburst
  rw [exec_start hs rfl rfl rfl, hn, engineRun_step (n + 2) .init (.enterPhase .hardReset) [] s (by simp)]
  exact congrArg _ (engineRun_resetPulse n .init [.enterPhase .settle] (s := enterPhase .hardReset s) hp)

/-- From the end of that hold it raises RESET_N, enters phase 2 and is held to settle. -/
theorem exec_init_release {s : State} {ms : Nat} (hq : s.seq = .run .init [.hold ms, .pulseHigh, .enterPhase .settle])
    (hover : ms ≤ s.now - s.tDelay) (hburst : 3 ≤ s.burst) :
    exec .init s =
      .next (goOn .init [.hold settleMs, .enterPhase .identify]
        { enterPhase .settle (resetReleased s) with tDelay := s.now }) := by
  obtain ⟨n, hn⟩ := Nat.exists_eq_add_of_le' hburst
  have hsettle := engineRun_delay n .init settleMs [.enterPhase .identify] (enterPhase .settle (resetReleased s))
    (by decide)
  rw [exec_running hq rfl, hn, engineRun_pulse_over (n + 2) hq hover,
    engineRun_step (n + 1) .init (.enterPhase .settle) [] _ (by simp)]
  exact congrArg _ hsettle

/-- Settles O39: the turn up to the hold, and the turn from its end up to the settle delay. -/
theorem initStarts : Obligations.InitStarts :=
  ⟨fun _ => exec_init_start, fun _ _ => exec_init_release⟩

end Sys2Proof.Proofs
end

section
/-! PROOFS. The device-access errors at the micro-step where each occurs (40_framer.md rules R140 to R149, R156): the
outcomes of a sample, the I/O error of an exchange, the short response. -/

namespace Sys2Proof.Proofs

open Sys2Proof.Machine

theorem microStep_of_seq {s : State} {op : Instr} {m : Micro} {rest : List Micro} (h : s.seq = .run op (m :: rest)) :
    microStep s = runMicro op m rest s := by
  rw [microStep, h]

/-! ### Samples -/

theorem sampleHrdy_ioerr (op : Instr) (rest : List Micro) {s : State} {code : Word32} (h : hrdyAt s 0 = .ioerr code) :
    sampleHrdy op rest s =
      raise (.io code .hrdySample) { s with hrdyNo := s.hrdyNo + 1, trace := s.trace ++ [.sampleErr code] } := by
  rw [sampleHrdy, h]
  rfl

/-- A ready sample goes on whatever the deadline (R144). -/
theorem sampleHrdy_ready (op : Instr) (rest : List Micro) {s : State} (h : hrdyAt s 0 = .level true) :
    sampleHrdy op rest s =
      goOn op rest
        { s with
          hrdyNo := s.hrdyNo + 1
          stat := { s.stat with hrdyLast := true }
          trace := s.trace ++ [.sample true] } := by
  rw [sampleHrdy, h]
  rfl

/-- A wait takes its start at its first sample and keeps it at the further ones (R140). -/
theorem runMicro_sample (op : Instr) {m : Micro} (rest : List Micro) (s : State)
    (hm : m = .waitReady ∨ m = .resample) :
    runMicro op m rest s =
      sampleHrdy op rest { s with tWait := if m = .waitReady then s.now else s.tWait } := by
  rcases hm with rfl | rfl <;> rfl

/-! ### Exchanges -/

/-- The micro-step `m` at `s` is the exchange of the frame `tx`. -/
def SendsFrame (s : State) (m : Micro) (tx : List Byte) : Prop :=
  (∃ c, m = .xferCmd c ∧ tx = cmdFrame c) ∨ (∃ w, m = .xferData w ∧ tx = dataFrame w) ∨
    (∃ src k, m = .xferChunk src k ∧ tx = chunkFrame (chunkPayload s src k)) ∨
    ∃ n, m = .xferRead n ∧ tx = readFrame n

theorem runMicro_of_sendsFrame (op : Instr) {m : Micro} (rest : List Micro) {s : State} {tx : List Byte}
    (h : SendsFrame s m tx) : ∃ k, runMicro op m rest s = xfer tx k s := by
  rcases h with ⟨c, rfl, rfl⟩ | ⟨w, rfl, rfl⟩ | ⟨src, k, rfl, rfl⟩ | ⟨n, rfl, rfl⟩ <;>
    (rw [runMicro]; exact ⟨_, rfl⟩)

/-- An exchange with an I/O error is not counted (R148, R149). -/
theorem xfer_ioerr (tx : List Byte) (k : List Byte → State → State) {s : State} {code : Word32}
    (h : busAt s 0 = .ioerr code) :
    xfer tx k s =
      raise (.io code .exchange)
        { s with
          busNo := s.busNo + 1
          stat := { s.stat with csN := true }
          trace := s.trace ++ [.xferErr s.speed tx code] } := by
  rw [xfer, h]
  rfl

/-- A completed exchange is counted before its response is looked at (R149). -/
theorem xfer_ok (tx : List Byte) (k : List Byte → State → State) {s : State} {rx : List Byte}
    (h : busAt s 0 = .ok rx) :
    xfer tx k s =
      k (rx.take tx.length)
        { s with
          busNo := s.busNo + 1
          stat := { s.stat with csN := true }
          regs := { s.regs with xcount := s.regs.xcount + 1 }
          trace := s.trace ++ [.xfer s.speed tx (rx.take tx.length)] } := by
  rw [xfer, h]
  rfl

theorem takeResponse_short (op : Instr) {n : Nat} (rest : List Micro) {rx : List Byte} (s : State)
    (h : rx.length < 4 + 2 * n) :
    takeResponse op n rest rx s = raise (.protocol ((max rx.length 4 - 4) / 2) n) s := if_pos h

/-- Settles O48: the outcomes of a sample, then of an exchange, then the short response. -/
theorem deviceErrors : Obligations.DeviceErrors := by
  intro op m rest s hq
  rw [microStep_of_seq hq]
  refine ⟨fun hm => ⟨_, rfl, ?sample⟩, fun tx code hframe hbus => ?ioError, fun n rx hm hbus hshort => ?short⟩
  case sample =>
    rw [runMicro_sample op rest s hm]
    exact ⟨fun _ hd => sampleHrdy_ioerr op rest hd, fun hd => sampleHrdy_ready op rest hd,
      fun hd ht => sampleHrdy_low_late op rest hd ht, fun hd ht => sampleHrdy_low_early op rest hd ht⟩
  case ioError =>
    obtain ⟨k, hk⟩ := runMicro_of_sendsFrame op rest hframe
    rw [hk, xfer_ioerr tx k hbus]
  case short =>
    subst hm
    have hwhole : rx.take (readFrame n).length = rx :=
      List.take_of_length_le (by rw [readFrame_length]; exact hshort.le)
    rw [runMicro, xfer_ok _ _ hbus, hwhole, takeResponse_short op rest _ hshort]

end Sys2Proof.Proofs
end

section
/-! PROOFS. The checks of the batch and display operations, each with the error it answers, and the order they stand in
(41_transport.md rules R171, R177, 43_display.md rules R240, R241, R257, 60_exceptions.md rule R286). -/

namespace Sys2Proof.Proofs

open Sys2Proof.Machine

/-! ### What each check answers -/

section
variable {s : State} {a : Area} (k : Start)

theorem checkRange_outside {n : Nat} (hn : n ≠ 0) (h : s.params.xbufBytes < s.lat.bufoff.toNat + n) :
    checkRange s n k = .error (.badLength s.lat.bufoff s.lat.len) := if_pos ⟨hn, h⟩

theorem checkRange_passed {n : Nat} (h : n = 0 ∨ s.lat.bufoff.toNat + n ≤ s.params.xbufBytes) :
    checkRange s n k = k := if_neg (by omega)

theorem checkReadCount_over (h : rdMaxWords s.params < s.lat.len.toNat) :
    checkReadCount s k = .error (.badLength s.lat.bufoff s.lat.len) := if_pos h

/-- The count check of RD_DATA_BATCH has the error of the range check behind it (R171, R177). -/
theorem checkReadCount_badLength (s : State) :
    checkReadCount s (.error (.badLength s.lat.bufoff s.lat.len)) = .error (.badLength s.lat.bufoff s.lat.len) :=
  ite_self _

theorem requireInit_unset (h : s.stat.infoValid = false) : requireInit s k = .error .notInitialized :=
  if_neg (by rw [h]; decide)

theorem requireInit_set (h : s.stat.infoValid = true) : requireInit s k = k := if_pos h

/-- A valid area has points and lies on the panel (R241). -/
theorem areaValid_iff (a : Area) (panelW panelH : Nat) :
    areaValid a panelW panelH = true ↔ 0 < a.w ∧ 0 < a.h ∧ a.x + a.w ≤ panelW ∧ a.y + a.h ≤ panelH := by
  simp only [areaValid, Bool.and_eq_true, decide_eq_true_eq, and_assoc]

theorem checkArea_invalid
    (h : ¬ (0 < a.w ∧ 0 < a.h ∧ a.x + a.w ≤ s.info.panelW.toNat ∧ a.y + a.h ≤ s.info.panelH.toNat)) :
    checkArea s a k = .error (.invalidArea a.x a.y a.w a.h) := if_neg (mt (areaValid_iff a _ _).1 h)

theorem checkArea_valid
    (h : 0 < a.w ∧ 0 < a.h ∧ a.x + a.w ≤ s.info.panelW.toNat ∧ a.y + a.h ≤ s.info.panelH.toNat) :
    checkArea s a k = k := if_pos ((areaValid_iff a _ _).2 h)

theorem checkImageLength_short {expected : Nat} (h : s.lat.len.toNat < expected) :
    checkImageLength s expected k = .error (.dimensionMismatch s.lat.len.toNat expected) := if_pos h

end

/-! ### The batch operations -/

/-- Settles O47: one range check, behind a count check of the same error in RD_DATA_BATCH. -/
theorem batchRangeChecks : Obligations.BatchRangeChecks := by
  intro i s hs hd
  refine ⟨fun hi hlen hout => ?range, fun hi hcount => ?count⟩
  case range =>
    have hrange (k : Start) := checkRange_outside k (n := 2 * s.lat.len.toNat) (by omega) hout
    rcases hi with rfl | rfl | ⟨c, rfl⟩ | ⟨c, rfl⟩
    · exact exec_error hs rfl hd (hrange _)
    · exact exec_error hs rfl hd (by rw [startOf, hrange, checkReadCount_badLength])
    · exact exec_error hs rfl hd (hrange _)
    · exact exec_error hs rfl hd (hrange _)
  case count =>
    subst hi
    exact exec_error hs rfl hd (checkReadCount_over _ hcount)

/-! ### The display operations -/

/-- The display operation `i` works on the area `a`: the latched one, or the full panel (R253 to R257). -/
def WorksOn (i : Instr) (a : Area) (s : State) : Prop :=
  ((∃ v, i = .fillArea v) ∧ a = latchedArea s) ∨ ((∃ m, i = .refreshArea m) ∧ a = latchedArea s) ∨
    ((∃ v, i = .clear v) ∧ a = fullPanel s) ∨ ((∃ m, i = .refresh m) ∧ a = fullPanel s) ∨
    ((∃ fmt, i = .loadImage fmt) ∧ a = latchedArea s)

/-- The bytes of XBUF a display operation reads: those of the image it loads. -/
def imageRange (i : Instr) (s : State) : Nat :=
  match i with
  | .loadImage _ => s.lat.len.toNat
  | _ => 0

/-- Every display operation starts with the same checks in the same order: range, INFO_VALID, area; an image load has
its length check behind them (R257). -/
theorem startOf_display {i : Instr} {a : Area} {s : State} (hi : WorksOn i a s) (hd : operandDefect i = none) :
    frameLengthOk s.params i = true ∧
      ∃ k, startOf i s = checkRange s (imageRange i s) (requireInit s (checkArea s a k)) ∧
        ∀ fmt f, i = .loadImage fmt → pixelFormatOf fmt = some f →
          k = checkImageLength s (expectedBytes f (a.w * a.h)) (.ok (loadImageBody s f)) := by
  rcases hi with
    ⟨⟨v, rfl⟩, rfl⟩ | ⟨⟨m, rfl⟩, rfl⟩ | ⟨⟨v, rfl⟩, rfl⟩ | ⟨⟨m, rfl⟩, rfl⟩ | ⟨⟨fmt, rfl⟩, rfl⟩
  case inr.inr.inr.inr =>
    cases hf : pixelFormatOf fmt with
    | none => simp [operandDefect, hf] at hd
    | some f =>
      have hstart : startOf (.loadImage fmt) s = loadImageStart s f := by rw [startOf, hf]
      refine ⟨rfl, _, hstart, fun fmt' f' hload hf' => ?_⟩
      cases hload
      cases hf.symm.trans hf'
      rfl
  all_goals exact ⟨rfl, _, (checkRange_passed _ (.inl rfl)).symm, fun _ _ hload => nomatch hload⟩

/-- Only an image load has a range to check. -/
theorem imageRange_passed {i : Instr} {s : State}
    (h : (∃ fmt, i = .loadImage fmt) →
      s.lat.len.toNat = 0 ∨ s.lat.bufoff.toNat + s.lat.len.toNat ≤ s.params.xbufBytes) :
    imageRange i s = 0 ∨ s.lat.bufoff.toNat + imageRange i s ≤ s.params.xbufBytes := by
  cases i with
  | loadImage fmt => exact h ⟨fmt, rfl⟩
  | _ => exact .inl rfl

/-- Settles O46: each check in its place, those before it passed. -/
theorem displayChecks : Obligations.DisplayChecks := by
  intro i a s hs hd hi
  obtain ⟨hframe, k, hstart, hlength⟩ := startOf_display hi hd
  refine ⟨fun ⟨fmt, hload⟩ hlen hout => ?range, fun hin => ?inside⟩
  case range =>
    subst hload
    exact exec_error hs hframe hd (hstart.trans (checkRange_outside _ hlen hout))
  case inside =>
    rw [checkRange_passed _ (imageRange_passed hin)] at hstart
    refine ⟨fun hunset => ?info, fun hset => ?initialized⟩
    case info => exact exec_error hs hframe hd (hstart.trans (requireInit_unset _ hunset))
    case initialized =>
      rw [requireInit_set _ hset] at hstart
      refine ⟨fun hinvalid => ?area, fun hvalid fmt f hload hf hshort => ?length⟩
      case area => exact exec_error hs hframe hd (hstart.trans (checkArea_invalid _ hinvalid))
      case length =>
        rw [checkArea_valid _ hvalid, hlength fmt f hload hf, checkImageLength_short _ hshort] at hstart
        exact exec_error hs hframe hd hstart

end Sys2Proof.Proofs
end

section
/-! PROOFS. The identification (42_device.md rule R205): what ParseDevInfo puts into the staging copy, byte by byte of
its version strings; and WR_VCOM (R213, R214), written or refused by its range check. -/

namespace Sys2Proof.Proofs

open Sys2Proof.Machine

/-! ### Version strings -/

/-- The eight words of a version string, from word `first` of the identification on. -/
def versionWords (ws : List Word16) (first : Nat) : List Word16 := (List.range 8).map fun k => ws.getD (first + k) 0

@[simp] theorem versionWords_length (ws : List Word16) (first : Nat) : (versionWords ws first).length = 8 := by
  rw [versionWords, List.length_map, List.length_range]

theorem versionWords_getD (ws : List Word16) (first : Nat) {k : Nat} (hk : k < 8) :
    (versionWords ws first).getD k 0 = ws.getD (first + k) 0 := by
  simp [versionWords, List.getD_eq_getElem?_getD, hk]

theorem parseDevInfo_fw (ws : List Word16) : (parseDevInfo ws).fw = versionBytes (versionWords ws 4) := rfl

theorem parseDevInfo_lut (ws : List Word16) : (parseDevInfo ws).lut = versionBytes (versionWords ws 12) := rfl

theorem versionBytes_versionWords_length (ws : List Word16) (first : Nat) :
    (versionBytes (versionWords ws first)).length = 16 := by
  rw [versionBytes, le16_length, versionWords_length]

/-- Each word of a version string gives its low byte, then its high byte (20_memory.md rule R81). -/
theorem versionBytes_word (ws : List Word16) (first : Nat) {k : Nat} (hk : k < 8) :
    (versionBytes (versionWords ws first))[2 * k]? = some (lo8 (ws.getD (first + k) 0)) ∧
      (versionBytes (versionWords ws first))[2 * k + 1]? = some (hi8 (ws.getD (first + k) 0)) := by
  have hlen := versionBytes_versionWords_length ws first
  obtain ⟨hlow, hhigh⟩ := le16_getD (versionWords ws first) k (by rwa [versionWords_length])
  rw [versionWords_getD ws first hk, ← versionBytes, List.getD_eq_getElem _ _ (by omega)] at hlow hhigh
  exact ⟨List.getElem?_eq_some_iff.2 ⟨_, hlow⟩, List.getElem?_eq_some_iff.2 ⟨_, hhigh⟩⟩

/-- The length kept in five bits cuts a string of sixteen bytes at its first zero byte. Where it cuts short, the byte
there is zero whatever value `d` is read past the end. -/
theorem ofNat_firstZero_cuts {bs : List Byte} (hlen : bs.length = 16) (d : Byte) :
    (BitVec.ofNat 5 (firstZero bs)).toNat ≤ 16 ∧
      (∀ j, j < (BitVec.ofNat 5 (firstZero bs)).toNat → bs.getD j 0 ≠ 0) ∧
      ((BitVec.ofNat 5 (firstZero bs)).toNat < 16 → bs.getD (BitVec.ofNat 5 (firstZero bs)).toNat d = 0) := by
  obtain ⟨hle, hbefore, hat⟩ := cutsAtZero_firstZero (byte := (bs.getD · 0)) hlen fun _ _ => rfl
  rw [BitVec.toNat_ofNat, Nat.mod_eq_of_lt (by omega)]
  refine ⟨hle, hbefore, fun hlt => ?_⟩
  have hinside : firstZero bs < bs.length := hlen ▸ hlt
  rw [List.getD_eq_getElem _ _ hinside, ← List.getD_eq_getElem _ 0 hinside]
  exact hat hlt

/-- Settles O12: the two strings by their words, their lengths by the first zero byte. -/
theorem parseIdentification : Obligations.ParseIdentification := by
  refine ⟨fun _ _ _ => rfl, fun ws _ => ?_⟩
  have hfw := versionBytes_versionWords_length ws 4
  have hlut := versionBytes_versionWords_length ws 12
  rw [← parseDevInfo_fw] at hfw
  rw [← parseDevInfo_lut] at hlut
  refine ⟨rfl, rfl, toNat_append_eq _ _, hfw, hlut, fun k hk => ?bytes, fun bs len hstring => ?lengths⟩
  case bytes =>
    obtain ⟨hlow, hhigh⟩ := versionBytes_word ws 4 hk
    exact ⟨hlow, hhigh, versionBytes_word ws 12 hk⟩
  case lengths =>
    rcases hstring with ⟨rfl, rfl⟩ | ⟨rfl, rfl⟩
    · exact ofNat_firstZero_cuts hfw 1
    · exact ofNat_firstZero_cuts hlut 1

/-! ### WR_VCOM -/

theorem checkVcom_within {v : Word16} (k : Start) (h : v.toNat ≤ vcomMax) : checkVcom v k = k := if_neg h.not_gt

theorem checkVcom_over {v : Word16} (k : Start) (h : vcomMax < v.toNat) : checkVcom v k = .error (.invalidVcom v) :=
  if_pos h

/-- VCOM_CFG takes the value once the device has it (R213). -/
theorem runs_setVcomCfg {k : Nat} {op : Instr} {ms : List Micro} {s u : State} (v : Word16) (h : Runs k op ms s u) :
    Runs (k + 1) op (ms ++ [.setVcomCfg v]) s { u with regs := { u.regs with vcomCfg := v } } :=
  h.append (Runs.one (by simp) fun _ => rfl)

/-- Settles O36: up to the bound the VCOM write, and its value stored; above it the check answers. -/
theorem wrVcomCompletes : Obligations.WrVcomCompletes := by
  intro v s r1 r2 r3
  refine ⟨fun hwithin ⟨hs, hspeed, hburst, ha⟩ => ?written, fun hover hs => ?refused⟩
  case written =>
    have hruns := runs_setVcomCfg v (runs_vcomWrite (.wrVcom v) v s r1 r2 r3 hspeed ha)
    exact exec_of_runs hs rfl rfl (checkVcom_within _ hwithin) hruns hburst
  case refused => exact exec_error hs rfl rfl (checkVcom_over _ hover)

end Sys2Proof.Proofs
end

section
/-! PROOFS. The arithmetic of the display operations: the expected length of an image (43_display.md rule R246) and the
host's areas (R244, R245). -/

namespace Sys2Proof.Proofs

open Sys2Proof.Machine

/-! ### Division rounded up -/

theorem ceilDiv_le_iff {n c m : Nat} (hc : 0 < c) : ceilDiv n c ≤ m ↔ n ≤ c * m := ceilDiv_le_iff_le_mul hc

theorem ceilDiv_pos {n c : Nat} (hc : 0 < c) (hn : 0 < n) : 0 < ceilDiv n c := by
  rw [ceilDiv_step n c hc hn]
  exact Nat.succ_pos _

/-- A common factor cancels, remainders included. -/
theorem ceilDiv_mul_left {k c : Nat} (hk : 0 < k) (hc : 0 < c) (n : Nat) : ceilDiv (k * n) (k * c) = ceilDiv n c := by
  refine eq_of_forall_ge_iff fun m => ?_
  rw [ceilDiv_le_iff (Nat.mul_pos hk hc), ceilDiv_le_iff hc, Nat.mul_assoc, Nat.mul_le_mul_left_iff hk]

/-! ### The expected length of an image -/

/-- Each format's formula is that of its bits, with the factor it shares with 8 cancelled. -/
theorem expectedBytes_eq_ceilDiv (f : PixelFormat) (pc : Nat) :
    expectedBytes f pc = ceilDiv (bitsPerPixel f * pc) 8 := by
  cases f with
  | bpp2 => exact (ceilDiv_mul_left (k := 2) (c := 4) (by decide) (by decide) pc).symm
  | bpp3 => rfl
  | bpp4 => exact (ceilDiv_mul_left (k := 4) (c := 2) (by decide) (by decide) pc).symm
  | bpp8 =>
    rw [bitsPerPixel, ceilDiv_mul_left (k := 8) (c := 1) (by decide) (by decide)]
    exact (Nat.div_one pc).symm

/-- An image with pixels has bytes. -/
theorem expectedBytes_pos (f : PixelFormat) {pc : Nat} (h : 0 < pc) : 0 < expectedBytes f pc := by
  have hbits : 0 < bitsPerPixel f := by cases f <;> decide
  rw [expectedBytes_eq_ceilDiv]
  exact ceilDiv_pos (by decide) (Nat.mul_pos hbits h)

/-- Settles O9: the bit count of every format; the rest by definition. -/
theorem expectedBytes_holds : Obligations.ExpectedBytes :=
  ⟨expectedBytes_eq_ceilDiv, fun _ => ⟨rfl, rfl, rfl, rfl⟩, rfl, rfl, rfl, rfl, rfl⟩

/-! ### Areas by their points -/

/-- The point `(x, y)` lies in `a`. -/
def InArea (a : Area) (x y : Nat) : Prop := a.x ≤ x ∧ x < a.x + a.w ∧ a.y ≤ y ∧ y < a.y + a.h

theorem areaIntersection_eq_none {a b : Area} :
    areaIntersection a b = none ↔
      min (a.x + a.w) (b.x + b.w) ≤ max a.x b.x ∨ min (a.y + a.h) (b.y + b.h) ≤ max a.y b.y := by
  simp only [areaIntersection, ite_eq_left_iff, reduceCtorEq, imp_false, not_not]

/-- An intersection begins where the later area begins and ends where the earlier one ends, in either direction. -/
theorem areaIntersection_eq_some {a b c : Area} (h : areaIntersection a b = some c) :
    (c.x = max a.x b.x ∧ c.x + c.w = min (a.x + a.w) (b.x + b.w)) ∧
      c.y = max a.y b.y ∧ c.y + c.h = min (a.y + a.h) (b.y + b.h) := by
  simp only [areaIntersection] at h
  split at h
  · cases h
  · cases h
    dsimp only
    omega

theorem inArea_intersection {a b c : Area} (h : areaIntersection a b = some c) (x y : Nat) :
    InArea c x y ↔ InArea a x y ∧ InArea b x y := by
  obtain ⟨⟨hx, hright⟩, hy, hbottom⟩ := areaIntersection_eq_some h
  rw [InArea, hright, hbottom, hx, hy]
  simp only [InArea, max_le_iff, lt_min_iff]
  tauto

/-- Without a common point there is no intersection: the corner where it would begin is one. -/
theorem areaIntersection_none_iff_disjoint (a b : Area) :
    areaIntersection a b = none ↔ ∀ x y, ¬ (InArea a x y ∧ InArea b x y) := by
  rw [areaIntersection_eq_none]
  constructor
  case mp =>
    intro hempty x y ⟨ha, hb⟩
    unfold InArea at ha hb
    omega
  case mpr =>
    intro hdisjoint
    have hcorner := hdisjoint (max a.x b.x) (max a.y b.y)
    unfold InArea at hcorner
    omega

/-- A union is the bounding box. -/
theorem areaUnion_bounds (a b : Area) :
    (areaUnion a b).x = min a.x b.x ∧ (areaUnion a b).y = min a.y b.y ∧
      (areaUnion a b).x + (areaUnion a b).w = max (a.x + a.w) (b.x + b.w) ∧
      (areaUnion a b).y + (areaUnion a b).h = max (a.y + a.h) (b.y + b.h) := by
  refine ⟨rfl, rfl, Nat.add_sub_cancel' ?_, Nat.add_sub_cancel' ?_⟩
  · exact (min_le_left _ _).trans ((Nat.le_add_right _ _).trans (le_max_left _ _))
  · exact (min_le_left _ _).trans ((Nat.le_add_right _ _).trans (le_max_left _ _))

/-- Settles O11: the points of an intersection, where there is none, the box of a union. -/
theorem areaFunctions : Obligations.AreaFunctions :=
  ⟨fun _ _ _ x y h => inArea_intersection h x y, areaIntersection_none_iff_disjoint, areaUnion_bounds, rfl, rfl, rfl⟩

end Sys2Proof.Proofs
end

section
/-! PROOFS. The display operations when the device answers (43_display.md rules R247 to R258): the checks passed, the
exchanges of an image load or of a refresh, success. -/

namespace Sys2Proof.Proofs

open Sys2Proof.Machine

/-! ### The checks passed -/

/-- With INFO_VALID set and a valid area, what the checks guard (R240, R241). -/
theorem requireInit_checkArea_passed {s : State} {a : Area} (k : Start) (hinit : s.stat.infoValid = true)
    (hvalid : areaValid a s.info.panelW.toNat s.info.panelH.toNat = true) : requireInit s (checkArea s a k) = k := by
  rw [requireInit_set _ hinit, checkArea_valid _ ((areaValid_iff a _ _).1 hvalid)]

theorem checkImageLength_enough {s : State} {expected : Nat} (k : Start) (h : expected ≤ s.lat.len.toNat) :
    checkImageLength s expected k = k := if_neg h.not_gt

/-- A valid area has pixels. -/
theorem pixelCount_pos {a : Area} {panelW panelH : Nat} (h : areaValid a panelW panelH = true) : 0 < pixelCount a := by
  obtain ⟨hw, hh, -, -⟩ := (areaValid_iff a panelW panelH).1 h
  exact Nat.mul_pos hw hh

theorem areaWord_toNat (w : Word16) : areaWord w.toNat = w := BitVec.eq_of_toNat_eq (by simp [areaWord])

/-- The bus takes five argument words in one chunk (R6). -/
theorem argumentWords_fit {p : Params} (h : paramsOk p = true) : 5 ≤ chunkWords p := by
  have hbus := busMaxBytes_ge h
  rw [chunkWords]
  omega

/-! ### Image loads -/

/-- The responses of an image load: eight to its start, those of its words, one to its end. -/
theorem imageLoad_responses {rs : List (List Byte)} {n : Nat} (h : rs.length = 9 + n) :
    ∃ r1 r2 r3 r4 r5 r6 r7 r8 words r9,
      rs = r1 :: r2 :: r3 :: r4 :: r5 :: r6 :: r7 :: r8 :: (words ++ [r9]) ∧ words.length = n := by
  obtain ⟨words, r9, hlast⟩ : ∃ words r9, rs.drop 8 = words ++ [r9] :=
    ⟨_, _, (List.dropLast_append_getLast (List.ne_nil_of_length_pos (by rw [List.length_drop]; omega))).symm⟩
  have hfirst : (rs.take 8).length = 8 := by
    rw [List.length_take]
    omega
  have hrest := congrArg List.length hlast
  rw [List.length_drop, List.length_append, List.length_singleton] at hrest
  rw [← List.take_append_drop 8 rs, hlast]
  match rs.take 8, hfirst with
  | [r1, r2, r3, r4, r5, r6, r7, r8], _ => exact ⟨r1, r2, r3, r4, r5, r6, r7, r8, words, r9, rfl, by omega⟩

/-- A whole image load, its responses in one list (R251 to R254, R257). -/
theorem runs_imageLoadAnswers (op : Instr) (addr : Word32) (fl : Word16) (a : Area) {src : WordSrc} {s : State}
    {rs : List (List Byte)} (hp : paramsOk s.params = true) (hspeed : s.speed = .cmd) (hsrc : srcCount src ≠ 0)
    (hl : rs.length = 9 + ceilDiv (srcCount src) (chunkWords s.params)) (h : Answered s rs) :
    Runs (2 * rs.length + 4) op (loadStart addr fl a ++ sendDataBatch src ++ loadEnd) s
      (afterExchanges s
        (imageLoadAnswers (chunkWords s.params) addr (fl :: areaWords a) (srcWords s src) rs)) := by
  obtain ⟨r1, r2, r3, r4, r5, r6, r7, r8, words, r9, rfl, hwords⟩ := imageLoad_responses hl
  have hruns := runs_imageLoad op addr fl a src s r1 r2 r3 r4 r5 r6 r7 r8 r9 words (argumentWords_fit hp) hspeed hsrc
    hwords h
  have hanswers :
      imageLoadAnswers (chunkWords s.params) addr (fl :: areaWords a) (srcWords s src)
          (r1 :: r2 :: r3 :: r4 :: r5 :: r6 :: r7 :: r8 :: (words ++ [r9])) =
        loadStartAnswers addr (fl :: areaWords a) [r1, r2, r3, r4, r5, r6, r7, r8] ++
          batchAnswers (chunkWords s.params) (srcWords s src) words ++ [⟨.cmd, cmdFrame 0x0022, r9⟩] := by
    simp [imageLoadAnswers, ← hwords, Nat.add_comm 8, atCmd]
  rw [hl, ← hwords, hanswers]
  rwa [show 2 * (9 + words.length) + 4 = 2 * words.length + 22 by omega]

/-- An operation that is an image load and passes its checks (R253, R254, R257). -/
theorem exec_imageLoad {i : Instr} {addr : Word32} {fl : Word16} {a : Area} {src : WordSrc} {s : State}
    {rs : List (List Byte)} (hf : frameLengthOk s.params i = true) (hd : operandDefect i = none)
    (hstart : startOf i s = .ok (loadStart addr fl a ++ sendDataBatch src ++ loadEnd))
    (hp : paramsOk s.params = true) (hsrc : srcCount src ≠ 0)
    (hl : rs.length = 9 + ceilDiv (srcCount src) (chunkWords s.params)) (hserved : Served s rs (2 * rs.length + 16)) :
    exec i s =
      .next (succeed (afterExchanges s
        (imageLoadAnswers (chunkWords s.params) addr (fl :: areaWords a) (srcWords s src) rs))) := by
  obtain ⟨hs, hspeed, hburst, ha⟩ := hserved
  exact exec_of_runs hs hf hd hstart (runs_imageLoadAnswers i addr fl a hp hspeed hsrc hl ha) (by omega)

/-- FILL_AREA and CLEAR differ in their area alone (R253, R254). -/
theorem startOf_fill {i : Instr} {v : Byte} {a : Area} {s : State}
    (h : (i = .fillArea v ∧ a = latchedArea s) ∨ (i = .clear v ∧ a = fullPanel s)) :
    frameLengthOk s.params i = true ∧ operandDefect i = none ∧
      startOf i s = requireInit s (checkArea s a (.ok (fillBody s a v))) := by
  rcases h with ⟨rfl, rfl⟩ | ⟨rfl, rfl⟩
  · exact ⟨rfl, rfl, rfl⟩
  · exact ⟨rfl, rfl, rfl⟩

/-- Settles O43: an image load of the fill words. -/
theorem fillsComplete : Obligations.FillsComplete := by
  intro i v a s rs hp hi hinit hvalid hl hserved
  obtain ⟨hf, hd, hstart⟩ := startOf_fill hi
  rw [requireInit_checkArea_passed _ hinit hvalid] at hstart
  have hsrc : 0 < srcCount (.fill (pixelCount a) v) := ceilDiv_pos (by decide) (pixelCount_pos hvalid)
  have hexec := exec_imageLoad hf hd hstart hp hsrc.ne' hl hserved
  rwa [srcWords_fill] at hexec

/-- Settles O44: the range and the length passed as well, an image load of the latched bytes. -/
theorem loadImageCompletes : Obligations.LoadImageCompletes := by
  intro fmt f s rs hp hfmt hrange hinit hvalid hlen hl hserved
  have hd : operandDefect (.loadImage fmt) = none := by rw [operandDefect, hfmt]; rfl
  have hstart : startOf (.loadImage fmt) s = .ok (loadImageBody s f) := by
    rw [startOf, hfmt]
    exact (checkRange_passed _ (.inr hrange)).trans
      ((requireInit_checkArea_passed _ hinit hvalid).trans (checkImageLength_enough _ hlen))
  have hbytes : 0 < s.lat.len.toNat := (expectedBytes_pos f (pixelCount_pos hvalid)).trans_le hlen
  have hsrc : 0 < srcCount (latchedImage s) := ceilDiv_pos (by decide) hbytes
  have hexec := exec_imageLoad rfl hd hstart hp hsrc.ne' hl hserved
  simpa only [latchedImage, srcWords_image, areaWords, latchedArea, areaWord_toNat] using hexec

/-! ### Refreshes -/

/-- REFRESH_AREA and REFRESH differ in their area alone; every mode up to 4 is legal (R107, R255, R256). -/
theorem startOf_refresh {i : Instr} {m : Word16} {a : Area} {s : State}
    (h : (i = .refreshArea m ∧ a = latchedArea s) ∨ (i = .refresh m ∧ a = fullPanel s)) (hm : m.toNat ≤ 4) :
    frameLengthOk s.params i = true ∧ operandDefect i = none ∧
      startOf i s = requireInit s (checkArea s a (.ok (refreshBody a m))) := by
  have hmode : (displayModeOf m).isSome = true := (displayModeOf_isSome m).trans (decide_eq_true hm)
  rcases h with ⟨rfl, rfl⟩ | ⟨rfl, rfl⟩
  · exact ⟨rfl, if_pos hmode, rfl⟩
  · exact ⟨rfl, if_pos hmode, rfl⟩

/-- The display-area command and its five argument words in one chunk (R255). -/
theorem runs_refreshBody (op : Instr) (a : Area) (m : Word16) {s : State} {r1 r2 : List Byte}
    (hp : paramsOk s.params = true) (hspeed : s.speed = .cmd) (h : Answered s [r1, r2]) :
    Runs 6 op (refreshBody a m) s
      (afterExchanges s [⟨.cmd, cmdFrame 0x0034, r1⟩, ⟨.data, chunkFrame (areaWords a ++ [m]), r2⟩]) :=
  (runs_sendCmd op (encodeUcmd .displayArea) s r1 hspeed h.first).append
    (runs_lit op (areaWords a ++ [m]) (afterExchange s ⟨.cmd, cmdFrame 0x0034, r1⟩) r2 hspeed (by simp)
      (argumentWords_fit hp) (h.rest _))

/-- Settles O45: the checks passed, the two exchanges. -/
theorem refreshesComplete : Obligations.RefreshesComplete := by
  intro i m a s r1 r2 hp hi hm hinit hvalid ⟨hs, hspeed, hburst, ha⟩
  obtain ⟨hf, hd, hstart⟩ := startOf_refresh hi hm
  rw [requireInit_checkArea_passed _ hinit hvalid] at hstart
  exact exec_of_runs hs hf hd hstart (runs_refreshBody i a m hp hspeed ha) (by omega)

end Sys2Proof.Proofs
end

section
/-! PROOFS. How an operation ends (60_exceptions.md rules R281 to R284, R304): its success end, its failure end as the host
reads it, and an engine reset that abandons it. -/

namespace Sys2Proof.Proofs

open Sys2Proof.Machine

/-! ### The success end -/

/-- An instruction whose micro-steps are done succeeds and takes no further one in its turn (R283). -/
theorem exec_done {op : Instr} {s : State} (hq : s.seq = .run op []) (hf : frameLengthOk s.params op = true) :
    exec op s = .next (succeed s) := by
  have hend := engineRun_done s.burst op s
  rw [goOn_of_seq hq] at hend
  rw [exec_running hq hf, hend]

/-- Settles O23. -/
theorem successEnd : Obligations.SuccessEnd := fun _ _ hq hf => exec_done hq hf

/-! ### The failure end -/

/-- The five error registers the host reads after a failure end (10_state.md rule R21). -/
theorem readErrorRegs_raise (e : Err) (s : State) :
    [0x02C, 0x030, 0x034, 0x038, 0x03C].map (readReg (raise e s)) =
      [(errCodeOf e).setWidth 32, errInfo0Of e, errInfo1Of e, errInfo2Of e, errInfo3Of e] := rfl

/-- Settles O24: the registers `raise` writes, row by row of the tables of R281 and R282. -/
theorem failureEnd : Obligations.FailureEnd := by
  intro e s
  refine ⟨rfl, ?_⟩
  rw [readErrorRegs_raise]
  cases e with
  | io code kind => cases kind <;> rfl
  | timeout budget kind elapsed => cases kind <;> rfl
  | _ => rfl

/-! ### Engine reset -/

/-- Engine reset gives the state of the machine right after reset, the environment's and the host's own aside (R310, R311;
logs 3, 4, 6). -/
theorem engineReset_abandons (s : State) :
    (engineReset s).seq = .idle ∧ (engineReset s).speed = .cmd ∧ (engineReset s).stat = State.reset.stat ∧
      (engineReset s).regs.errCode = 0 ∧ (engineReset s).trace = [] ∧ (engineReset s).xbuf = [] :=
  ⟨rfl, rfl, rfl, rfl, rfl, rfl⟩

/-- What engine reset keeps (logs 3, 4): the parameters, time, the agenda, and the draws made of the device. -/
theorem engineReset_keeps (s : State) :
    (engineReset s).params = s.params ∧ (engineReset s).now = s.now ∧ (engineReset s).agenda = s.agenda ∧
      (engineReset s).hrdyNo = s.hrdyNo ∧ (engineReset s).busNo = s.busNo :=
  ⟨rfl, rfl, rfl, rfl, rfl⟩

/-- Settles O15: the agenda's turn is the reset, whatever the sequencer runs. -/
theorem engineResetAbandons : Obligations.EngineResetAbandons := by
  intro s rest hp ha
  obtain ⟨hseq, hspeed, hstat, herr, htrace, hxbuf⟩ := engineReset_abandons { s with agenda := rest }
  obtain ⟨hparams, hnow, hagenda, hhrdy, hbus⟩ := engineReset_keeps { s with agenda := rest }
  refine ⟨_, step_agenda hp ha, hseq, hspeed, ?_, ?_, ?_, herr, ?_, ?_, htrace, hxbuf, hhrdy, hbus, hparams, hagenda, hnow⟩
  all_goals exact hstat ▸ rfl

end Sys2Proof.Proofs
end

section
/-! PROOFS. The state right after reset (70_reset_and_hazards.md rules R310, R311): what the host reads there, and that
the two invariants of the machine hold there. -/

namespace Sys2Proof.Proofs

open Sys2Proof.Machine

/-! ### Where reset puts the engine -/

/-- The device side right after reset (R310, R311), whatever the parameters. -/
theorem afterReset_rests (p : Params) :
    (State.afterReset p).seq = .idle ∧ (State.afterReset p).speed = .cmd ∧
      (State.afterReset p).stat = State.reset.stat ∧ (State.afterReset p).trace = [] :=
  ⟨rfl, rfl, rfl, rfl⟩

/-- Of all that an engine reset keeps (logs 3, 4, 10), the registers show only the parameters. -/
theorem readReg_engineReset (s : State) : readReg (engineReset s) = readReg (State.afterReset s.params) := rfl

/-- The two states O14 speaks of do not differ for the host or on the device side. -/
theorem reset_rests {t : State} (h : (∃ s, t = engineReset s) ∨ ∃ p, t = State.afterReset p) :
    readReg t = readReg (State.afterReset t.params) ∧
      t.seq = .idle ∧ t.speed = .cmd ∧ t.stat = State.reset.stat ∧ t.trace = [] := by
  obtain ⟨s, rfl⟩ | ⟨p, rfl⟩ := h
  · obtain ⟨hseq, hspeed, hstat, -, htrace, -⟩ := engineReset_abandons s
    exact ⟨readReg_engineReset s, hseq, hspeed, hstat, htrace⟩
  · exact ⟨rfl, afterReset_rests p⟩

/-! ### What the host reads -/

/-- The offsets of the registers with reset value 0 (R310): CTRL, the operands, RESULT, the error registers, XCOUNT and
DRDY_TIMEOUT_MS. -/
def zeroAtReset : List Nat :=
  [0x000, 0x008, 0x00C, 0x010, 0x014, 0x018, 0x01C, 0x020, 0x024, 0x028, 0x02C, 0x030, 0x034, 0x038, 0x03C, 0x040,
    0x048]

theorem readReg_afterReset_zero (p : Params) : ∀ off ∈ zeroAtReset, readReg (State.afterReset p) off = 0 :=
  List.map_eq_replicate_iff.1 (show zeroAtReset.map (readReg (State.afterReset p)) = List.replicate 17 0 from rfl)

/-- CS_N and RESET_N stand at their inactive level 1, every other bit of STATUS at 0. -/
theorem statusWord_afterReset (p : Params) : statusWord (State.afterReset p) = 0x00000060 := by
  simp only [statusWord, busFast, State.afterReset]
  decide

/-- Settles O14: both states read as the one right after reset does, register by register. -/
theorem resetRegisters : Obligations.ResetRegisters := by
  intro t h
  obtain ⟨hread, hseq, hspeed, hstat, htrace⟩ := reset_rests h
  rw [hread, hstat]
  exact ⟨readReg_afterReset_zero t.params, statusWord_afterReset t.params, rfl, rfl, rfl, rfl, hspeed, hseq, rfl, rfl,
    htrace⟩

/-! ### The invariants -/

/-- An engine reset of this very state only counts one epoch more, which no clause of the invariant reads. -/
theorem inv_afterReset (p : Params) : Machine.Inv (State.afterReset p) :=
  have h : Machine.Inv (engineReset (State.afterReset p)) := inv_engineReset _
  { h with initRuns := initRuns_frame h rfl rfl rfl }

/-- Settles O51. -/
theorem invariantAtReset : Obligations.InvariantAtReset := ⟨inv_afterReset Config.reference, inv_afterReset⟩

/-- With no event behind it and no micro-step to come there is no exchange to gate. -/
theorem gated_of_rests {s : State} (hseq : s.seq = .idle) (htrace : s.trace = []) : Gated s := by
  simp only [Gated, hseq, htrace, gatedFrom, todoOf, todoGated, and_self]

theorem gated_afterReset (p : Params) : Gated (State.afterReset p) :=
  have ⟨hseq, _, _, htrace⟩ := afterReset_rests p
  gated_of_rests hseq htrace

/-- Settles O53. -/
theorem gatedAtReset : Obligations.GatedAtReset := ⟨gated_afterReset Config.reference, gated_afterReset⟩

end Sys2Proof.Proofs
end
